-- ==== Sys2Proof/Word.lean ====
section
/-! DEFINITION. The word types of SURX: bytes, 16-bit port words, and a word together with the port it arrives on. -/

namespace Sys2Proof

/-- One byte: a buffer slot, a shift register (10_state R33). -/
abbrev Byte := BitVec 8

/-- One 16-bit word: a CMD16 command, an EVT16 event, a result RDATA (30_encoding R90, R97). -/
abbrev Word := BitVec 16

/-- A word and the port it arrives on. The port, not the bits, tells a command from an event (30_encoding R90). -/
inductive PortWord where
  /-- A CMD16 word on the command port (R91). -/
  | cmd (w : Word)
  /-- An EVT16 word on the event port (R99). -/
  | evt (w : Word)
  deriving DecidableEq, Repr

end Sys2Proof
end

