-- ==== Sys2Proof/Syntax.lean ====
section
/-! DEFINITION. The instruction set: one constructor per row of spec/opcode_table.json, 12 commands and 4 events. -/

namespace Sys2Proof

/-- The commands (30_encoding R92) and the events (R100). A field is the bits the row's pattern leaves
free: the channel nibble `CH`, the 8-bit `IMM`, the 5-bit level vector `LV`. -/
inductive Instr where
  /-- NOP: do nothing (43_readback R240). -/
  | nop
  /-- ARM: arm a channel and start a new frame (40_receive_engine R120). -/
  | arm (c : BitVec 4)
  /-- ACK: consume one complete host frame (41_frame_assembler R169). -/
  | ack (c : BitVec 4)
  /-- CLREV: clear a channel's event-pending flag (41_frame_assembler R170). -/
  | clrev (c : BitVec 4)
  /-- DECODE: decode the completed frame of a sensor channel (42_sensor_decoder R206). -/
  | decode (c : BitVec 4)
  /-- RDBUF: read one byte of a channel's current frame (43_readback R241). -/
  | rdbuf (c : BitVec 4) (idx : BitVec 8)
  /-- RDSTAT: read a channel's status word (43_readback R242). -/
  | rdstat (c : BitVec 4)
  /-- RDCNT: read a channel's frame byte count (43_readback R243). -/
  | rdcnt (c : BitVec 4)
  /-- RDPTR: read a channel's write cursor and frame start (43_readback R244). -/
  | rdptr (c : BitVec 4)
  /-- RDLAST: read a channel's last committed byte and its shift register (43_readback R245). -/
  | rdlast (c : BitVec 4)
  /-- RDDEC: read one decoder result register (42_sensor_decoder R207). -/
  | rddec (sel : BitVec 8)
  /-- RDGLB: read the global word (43_readback R246). -/
  | rdglb
  /-- EDGE: a falling edge on a line (40_receive_engine R121). -/
  | edge (c : BitVec 4)
  /-- BCLK: the BitClock fired, with the level of every line (40_receive_engine R122). -/
  | bclk (lv : BitVec 5)
  /-- ROLL: one rollover of the free-running timer (41_frame_assembler R168). -/
  | roll
  /-- RESET: return SURX to its reset state (70_reset_and_hazards R300). -/
  | reset
  deriving DecidableEq, Repr

/-- Whether the row is of format CMD16, a word of the command port; the others are EVT16 (30_encoding R90). -/
def Instr.isCommand : Instr → Bool
  | .nop => true
  | .arm _ => true
  | .ack _ => true
  | .clrev _ => true
  | .decode _ => true
  | .rdbuf _ _ => true
  | .rdstat _ => true
  | .rdcnt _ => true
  | .rdptr _ => true
  | .rdlast _ => true
  | .rddec _ => true
  | .rdglb => true
  | .edge _ => false
  | .bclk _ => false
  | .roll => false
  | .reset => false

end Sys2Proof
end

