-- ==== Sys2Proof/WellFormed.lean ====
section
/-! DEFINITION. Which instruction terms stand for a word of the hardware. -/

namespace Sys2Proof

/-- Every command term is a word SURX answers, even where `CH` names no channel (30_encoding R93: BADCH).
An event term is well formed when it names an event: EDGE only on a line 0 to 4 (30_encoding R104). -/
def Instr.wf : Instr → Bool
  | .nop => true
  | .arm _ => true
  | .ack _ => true
  | .clrev _ => true
  | .decode _ => true
  | .rdbuf _ _ => true
  | .rdstat _ => true
  | .rdcnt _ => true
  | .rdptr _ => true
  | .rdlast _ => true
  | .rddec _ => true
  | .rdglb => true
  | .edge c => decide (c.toNat < 5)
  | .bclk _ => true
  | .roll => true
  | .reset => true

end Sys2Proof
end

