-- ==== Sys2Proof/Decode.lean ====
section
/-! DEFINITION. The decoder of both ports, total on every word and rejecting by name, and the encoder written from the same
encoding tables (30_encoding R91 to R96, R99, R100, R104). -/

namespace Sys2Proof

/-- Why a word is no row of the opcode table. The first two are command words, which SURX answers with
BADOP (30_encoding R95, R96); the other three are event words, which name no event (R104). -/
inductive DecodeError where
  /-- Command port: `OP` is 0xC to 0xF (R96). -/
  | reservedOp
  /-- Command port: a non-zero bit in a field R92 marks "must be 0" (R95). -/
  | mustBeZero
  /-- Event port: `KIND` is 0x0 or 0x5 to 0xF (R104). -/
  | noSuchKind
  /-- Event port: EDGE with `CH` of 5 or more (R104). -/
  | noSuchLine
  /-- Event port: a non-zero bit outside the fields R100 uses for the kind (R104). -/
  | strayBits
  deriving DecidableEq, Repr

/-- `OP` or `KIND`, bits 15:12 (R91, R99). -/
def opField (w : Word) : BitVec 4 := w.extractLsb' 12 4

/-- `CH`, bits 11:8 (R91, R99). -/
def chField (w : Word) : BitVec 4 := w.extractLsb' 8 4

/-- `IMM`, bits 7:0 (R91). -/
def immField (w : Word) : BitVec 8 := w.extractLsb' 0 8

/-- Bits 7:5 of an event word, always 0 (R99). -/
def zeroField (w : Word) : BitVec 3 := w.extractLsb' 5 3

/-- `LV`, bits 4:0 of an event word (R99). -/
def lvField (w : Word) : BitVec 5 := w.extractLsb' 0 5

/-- `i` where the field that must be zero is zero, else the rejection of R95. -/
def ifZero (ok : Bool) (i : Instr) : Except DecodeError Instr :=
  if ok then .ok i else .error .mustBeZero

/-- The command port's decoder (R92, R95, R96). -/
def decodeCmd (w : Word) : Except DecodeError Instr :=
  let c := chField w
  let imm := immField w
  match (opField w).toNat with
  | 0x0 => ifZero (c == 0#4 && imm == 0#8) .nop
  | 0x1 => ifZero (imm == 0#8) (.arm c)
  | 0x2 => ifZero (imm == 0#8) (.ack c)
  | 0x3 => ifZero (imm == 0#8) (.clrev c)
  | 0x4 => ifZero (imm == 0#8) (.decode c)
  | 0x5 => .ok (.rdbuf c imm)
  | 0x6 => ifZero (imm == 0#8) (.rdstat c)
  | 0x7 => ifZero (imm == 0#8) (.rdcnt c)
  | 0x8 => ifZero (imm == 0#8) (.rdptr c)
  | 0x9 => ifZero (imm == 0#8) (.rdlast c)
  | 0xA => ifZero (c == 0#4) (.rddec imm)
  | 0xB => ifZero (c == 0#4 && imm == 0#8) .rdglb
  | _ => .error .reservedOp

/-- `i` where no bit stands outside the kind's fields, else the rejection of R104. -/
def ifClean (ok : Bool) (i : Instr) : Except DecodeError Instr :=
  if ok then .ok i else .error .strayBits

/-- The event port's decoder (R100, R104). -/
def decodeEvt (w : Word) : Except DecodeError Instr :=
  let c := chField w
  match (opField w).toNat with
  | 0x1 =>
    if c.toNat < 5 then ifClean (zeroField w == 0#3 && lvField w == 0#5) (.edge c)
    else .error .noSuchLine
  | 0x2 => ifClean (c == 0#4 && zeroField w == 0#3) (.bclk (lvField w))
  | 0x3 => ifClean (c == 0#4 && zeroField w == 0#3 && lvField w == 0#5) .roll
  | 0x4 => ifClean (c == 0#4 && zeroField w == 0#3 && lvField w == 0#5) .reset
  | _ => .error .noSuchKind

/-- The decoder: the port selects the format (R90). -/
def decode : PortWord → Except DecodeError Instr
  | .cmd w => decodeCmd w
  | .evt w => decodeEvt w

/-- A CMD16 word from its three fields (R91). -/
def cmd16 (op c : BitVec 4) (imm : BitVec 8) : PortWord := .cmd (op ++ c ++ imm)

/-- An EVT16 word from its fields (R99). -/
def evt16 (kind c : BitVec 4) (lv : BitVec 5) : PortWord := .evt (kind ++ c ++ 0#3 ++ lv)

/-- The word of an instruction, and the port it goes to (R92, R100). -/
def encode : Instr → PortWord
  | .nop => cmd16 0x0 0 0
  | .arm c => cmd16 0x1 c 0
  | .ack c => cmd16 0x2 c 0
  | .clrev c => cmd16 0x3 c 0
  | .decode c => cmd16 0x4 c 0
  | .rdbuf c idx => cmd16 0x5 c idx
  | .rdstat c => cmd16 0x6 c 0
  | .rdcnt c => cmd16 0x7 c 0
  | .rdptr c => cmd16 0x8 c 0
  | .rdlast c => cmd16 0x9 c 0
  | .rddec sel => cmd16 0xA 0 sel
  | .rdglb => cmd16 0xB 0 0
  | .edge c => evt16 0x1 c 0
  | .bclk lv => evt16 0x2 0 lv
  | .roll => evt16 0x3 0 0
  | .reset => evt16 0x4 0 0

/-- The port word of a table row's bits. A row's 16 bits do not say which port they arrive on
(R90: ARM 0 and EDGE 0 are both 0x1000). A word that is a command is taken as a command, a word that is
only an event as an event; where more than 16 bits are given, bit 16 names the port (1 the event port).
Assumption log 7. -/
def tableWord (nbits w : Nat) : PortWord :=
  let v := w % 2 ^ nbits
  let b : Word := BitVec.ofNat 16 v
  if v.testBit 16 then .evt b
  else
    match decodeCmd b with
    | .ok _ => .cmd b
    | .error _ =>
      match decodeEvt b with
      | .ok _ => .evt b
      | .error _ => .cmd b

/-- The instruction the decoder reads from a table row's bits, none where it rejects them. -/
def decodeTableWord (nbits w : Nat) : Option Instr :=
  match decode (tableWord nbits w) with
  | .ok i => some i
  | .error _ => none

end Sys2Proof
end

