-- ==== Sys2Proof/Config.lean ====
section
/-! DEFINITION. The implementation parameters of 00_scope R13 and the free values the spec leaves open (93_implementation_defined). -/

namespace Sys2Proof

/-- The host frame variant, fixed by the build (00_scope R13, decision D5). -/
inductive HostVariant where
  | short
  | long
  deriving DecidableEq, Repr, Inhabited

/-- `HLEN`: 8 for the short variant, 16 for the long (00_scope R13). -/
def HostVariant.hlen : HostVariant → Nat
  | .short => 8
  | .long => 16

/-- `HOST_VARIANT`, OPEN (93_implementation_defined section 3): no value is chosen. Assumption log 3. -/
opaque Config.hostVariant : HostVariant

/-- The content of slot `slot` of channel number `chan` after power-up: any value (20_memory R73, 93 S1). Assumption log 2. -/
opaque Config.powerUpByte (chan slot : Nat) : Byte

/-- `SCAP`: the buffer slots of a sensor channel (00_scope R13). -/
def Config.scap : Nat := 16

/-- `HCAP`: the buffer slots of the host channel (00_scope R13, decision D4). -/
def Config.hcap : Nat := 32

/-- `SENT`: the sentinel that ends a sensor frame (00_scope R13). -/
def Config.sentinel : Byte := 0x0A#8

/-- `TO_LIMIT`: the rollover count at which a sensor channel times out (00_scope R13). -/
def Config.toLimit : BitVec 2 := 3#2

/-- `DATA_BITS`: the data bits of one byte on the wire (00_scope R13). -/
def Config.dataBits : BitVec 4 := 8#4

/-- `SENSOR_BAUD` in bit/s, read by no rule (00_scope R13, R14). -/
def Config.sensorBaud : Nat := 1200

/-- One less than `HOST_BAUD`, an OPEN positive rate (93 section 3). Assumption log 6. -/
opaque Config.hostBaudPred : Nat

/-- `HOST_BAUD` in bit/s: any positive rate, read by no rule (00_scope R13, R14). -/
def Config.hostBaud : Nat := Config.hostBaudPred + 1

/-- One less than `ROLL_PERIOD`, an OPEN positive period (93 section 3). Assumption log 6. -/
opaque Config.rollPeriodPred : Nat

/-- `ROLL_PERIOD`: any positive period, read by no rule (00_scope R13, R14). -/
def Config.rollPeriod : Nat := Config.rollPeriodPred + 1

/-- `SURX_PORT_BASE`, OPEN: where the ports sit on the processor's bus, read by no rule (20_memory R81). Assumption log 6. -/
opaque Config.portBase : Nat

end Sys2Proof
end

