-- ==== Sys2Proof/Machine/State.lean ====
section
/-! DEFINITION. The state of SURX as plain data: the architectural state of 10_state R32 and the model's own port fields,
the reset state, and the reasons a step can stop. -/

namespace Sys2Proof.Machine

/-- A channel number, 0 to 4: 0 to 3 are the sensor channels, 4 is the host link (00_scope R13, R15). -/
inductive Chan where
  | c0
  | c1
  | c2
  | c3
  | c4
  deriving DecidableEq, Repr

/-- The receive phase (10_state R35). The value 3 is never written and has no constructor (93 S6). -/
inductive Phase where
  | wait
  | align
  | recv
  deriving DecidableEq, Repr

/-- The state of the shared BitClock (10_state R50). The value 3 is never written and has no constructor (93 S6). -/
inductive BitClock where
  | stop
  | half
  | run
  deriving DecidableEq, Repr

/-- A channel's buffer: the slots written since power-up and their bytes, slot numbers strictly rising.
An unlisted slot holds its power-up value (20_memory R73). -/
abbrev Buffer := List Host.Cell

/-- The fields of one channel (10_state R33). -/
structure Channel where
  /-- The arm bit (R34). -/
  en : Bool
  /-- The receive phase (R35). -/
  phase : Phase
  /-- Data bits still to sample (R38). -/
  bits : BitVec 4
  /-- The shift register (R39). -/
  shift : Byte
  /-- The most recently finalized byte (R40). -/
  last : Byte
  /-- The byte buffer (R41). -/
  buf : Buffer
  /-- The write cursor (R42). -/
  cur : BitVec 5
  /-- The slot of byte 0 of the current frame (R43). -/
  fstart : BitVec 5
  /-- Bytes committed and not consumed (R44). -/
  count : BitVec 8
  /-- The event-pending flag (R45). -/
  evf : Bool
  /-- Sensor frame complete; stored on sensor channels only (R46). -/
  done : Bool
  /-- Timeout (R47); the spec's field `to`. -/
  timeout : Bool
  /-- Overflow (R48). -/
  ovf : Bool
  /-- The rollover counter (R49). -/
  rc : BitVec 2
  deriving DecidableEq, Repr

/-- The decoder result registers (10_state R51). -/
structure Dec where
  soil : Word
  temp : Word
  tneg : Bool
  ckok : Bool
  fmtok : Bool
  dvalid : Bool
  dch : BitVec 3
  deriving DecidableEq, Repr

/-- The response codes (30_encoding R98). The codes 7 to 15 are never returned. -/
inductive Rsp where
  | ok
  | badOp
  | badCh
  | busy
  | badRole
  | badIdx
  | notReady
  deriving DecidableEq, Repr

/-- What the response port returns for one command word (30_encoding R97). -/
structure Response where
  rsp : Rsp
  rdata : Word
  deriving DecidableEq, Repr

/-- The state. The first seven fields are the architectural state, "exactly this" by 10_state R32; the
last three are the model's own (assumption logs 3, 4 and 5). -/
structure State where
  /-- Sensor channel 0 (R33). -/
  ch0 : Channel
  /-- Sensor channel 1 (R33). -/
  ch1 : Channel
  /-- Sensor channel 2 (R33). -/
  ch2 : Channel
  /-- Sensor channel 3 (R33). -/
  ch3 : Channel
  /-- The host channel 4 (R33). -/
  ch4 : Channel
  /-- The BitClock all channels share (R50). -/
  bclk : BitClock
  /-- The decoder result registers (R51). -/
  dec : Dec
  /-- The build's `HOST_VARIANT`; no step writes it (00_scope R13). Assumption log 3. -/
  variant : HostVariant
  /-- The words waiting on the two ports, in the one total order of 20_memory R77. Assumption log 4. -/
  input : List PortWord
  /-- What the response port showed for the last word taken; none after an event (30_encoding R97). Assumption log 5. -/
  resp : Option Response
  deriving DecidableEq, Repr

/-- Why the machine stops. SURX itself has no fault (60_exceptions R270). -/
inductive Fault where
  /-- Raised by the buffer reads of RDBUF and DECODE for a slot the channel's buffer does not have
  (20_memory R70). Safe: no reachable state raises it, since a sensor channel's cursor never passes 16
  (10_state R52 item 6). -/
  | noSuchSlot
  deriving DecidableEq, Repr

/-- Why the model gives no step. -/
inductive Refusal where
  /-- An instruction that has no meaning yet; raised by an arm of exec only. Safe: nothing is claimed of it. -/
  | notModelled (mnemonic : String)
  /-- A word on the event port that names no event (30_encoding R104, 93 S7), and the EDGE term of a line 5
  to 15, which no word encodes. Raised by step and by EDGE. Safe: the environment never produces one. -/
  | noSuchEvent
  deriving DecidableEq, Repr

/-- A channel's fields at reset (10_state R55). No slot is listed: after power-up each holds its free value (R302). -/
def Channel.reset : Channel where
  en := false
  phase := .wait
  bits := 0#4
  shift := 0x00#8
  last := 0x00#8
  buf := []
  cur := 0#5
  fstart := 0#5
  count := 0#8
  evf := false
  done := false
  timeout := false
  ovf := false
  rc := 0#2

/-- The decoder registers at reset (10_state R55). -/
def Dec.reset : Dec where
  soil := 0x0000#16
  temp := 0x0000#16
  tneg := false
  ckok := false
  fmtok := false
  dvalid := false
  dch := 0#3

/-- The machine right after power-up (10_state R55, 70_reset_and_hazards R302), with nothing waiting on its ports. -/
def State.reset : State where
  ch0 := Channel.reset
  ch1 := Channel.reset
  ch2 := Channel.reset
  ch3 := Channel.reset
  ch4 := Channel.reset
  bclk := .stop
  dec := Dec.reset
  variant := Config.hostVariant
  input := []
  resp := none

end Sys2Proof.Machine
end

