-- ==== Sys2Proof/Machine/Ops.lean ====
section
/-! DEFINITION. The named operations over the channels, the buffers, the ports and the response: every meaning is written over
these. SURX has no trap entry and no trap return (60_exceptions R275); the shared operation in their place is the
refusal `State.reject` (00_scope R19). -/

namespace Sys2Proof.Machine

/-! ### Channels -/

/-- What a channel is for (00_scope R15). -/
inductive Role where
  | sensor
  | host
  deriving DecidableEq, Repr

/-- `role(c)` (00_scope R15). -/
def Chan.role : Chan → Role
  | .c0 => .sensor
  | .c1 => .sensor
  | .c2 => .sensor
  | .c3 => .sensor
  | .c4 => .host

/-- The channel's number. -/
def Chan.num : Chan → Nat
  | .c0 => 0
  | .c1 => 1
  | .c2 => 2
  | .c3 => 3
  | .c4 => 4

/-- `cap(c)` (00_scope R15). -/
def Chan.cap (c : Chan) : Nat :=
  match c.role with
  | .sensor => Config.scap
  | .host => Config.hcap

/-- The channels in ascending order, the order of a tick (40_receive_engine R124). -/
def Chan.all : List Chan := [.c0, .c1, .c2, .c3, .c4]

/-- The sensor channels in ascending order, the order of a ROLL (41_frame_assembler R168). -/
def Chan.sensors : List Chan := [.c0, .c1, .c2, .c3]

/-- `ch[c]` (00_scope R17). -/
def State.ch (s : State) : Chan → Channel
  | .c0 => s.ch0
  | .c1 => s.ch1
  | .c2 => s.ch2
  | .c3 => s.ch3
  | .c4 => s.ch4

/-- `ch[c] <- k` (00_scope R17). -/
def State.setCh (s : State) (c : Chan) (k : Channel) : State :=
  match c with
  | .c0 => { s with ch0 := k }
  | .c1 => { s with ch1 := k }
  | .c2 => { s with ch2 := k }
  | .c3 => { s with ch3 := k }
  | .c4 => { s with ch4 := k }

/-- Update channel `c` by `f`. -/
def State.modCh (s : State) (c : Chan) (f : Channel → Channel) : State :=
  s.setCh c (f (s.ch c))

/-- Update the channels of `order` one after the other: how a tick, a ROLL and a RESET visit the channels
(60_exceptions R279). -/
def State.visit (order : List Chan) (f : Chan → Channel → Channel) (s : State) : State :=
  order.foldl (fun t c => t.modCh c (f c)) s

/-- `bclk <- b` (10_state R50). -/
def State.setBclk (s : State) (b : BitClock) : State := { s with bclk := b }

/-- Write the decoder result registers (10_state R51). -/
def State.setDec (s : State) (d : Dec) : State := { s with dec := d }

/-- `HLEN` of this build (00_scope R13). -/
def State.hlen (s : State) : Nat := s.variant.hlen

/-- `sat8(v + 1)` (00_scope R21, 41_frame_assembler R161). -/
def sat8Succ (v : BitVec 8) : BitVec 8 := BitVec.ofNat 8 (min (v.toNat + 1) 255)

/-! ### Buffers -/

/-- The byte listed for a slot, none where no commit has written it. -/
def bufGet : Buffer → Nat → Option Byte
  | [], _ => none
  | (a, b) :: m, i => if a = i then some b else bufGet m i

/-- List byte `v` for slot `i`, keeping the slots strictly rising. -/
def bufSet : Buffer → Nat → Byte → Buffer
  | [], i, v => [(i, v)]
  | (a, b) :: m, i, v =>
    if i < a then (i, v) :: (a, b) :: m
    else if i = a then (i, v) :: m
    else (a, b) :: bufSet m i v

/-- What slot `i` of channel `c` holds: the byte last committed to it, or its power-up value, which is free
(20_memory R73, 93 S1, S2). The one definition of what an unlisted slot reads as. -/
def slotByte (c : Chan) (k : Channel) (i : Nat) : Byte :=
  (bufGet k.buf i).getD (Config.powerUpByte c.num i)

/-- `BufRead(c, i)` (00_scope R18): none for a slot the buffer does not have. -/
def bufRead (c : Chan) (k : Channel) (i : Nat) : Option Byte :=
  if i < c.cap then some (slotByte c k i) else none

/-- `BufWrite(c, i, v)` (00_scope R18). Only the commit calls it, with a slot below `cap(c)` (20_memory R71). -/
def Channel.bufWrite (k : Channel) (i : Nat) (v : Byte) : Channel :=
  { k with buf := bufSet k.buf i v }

/-- Slots 0 to `cur - 1` in order, the frame DECODE reads (42_sensor_decoder R200, R206): none where the
cursor stands past the end of the buffer, which no reachable state has (10_state R52 item 6). -/
def frameBytes (c : Chan) (k : Channel) : Option (List Byte) :=
  if k.cur.toNat ≤ c.cap then some ((List.range k.cur.toNat).map (slotByte c k)) else none

/-- The canonical form of a buffer of `n` slots: slot numbers strictly rising, all of them below `n`. An
unlisted slot has no byte of its own, so no entry can equal it. -/
abbrev Buffer.wf (n : Nat) (m : Buffer) : Prop :=
  m.Pairwise (fun x y => x.1 < y.1) ∧ ∀ x ∈ m, x.1 < n

/-- The five memories (20_memory R70) are in canonical form. -/
abbrev Memory.wf (s : State) : Prop :=
  Buffer.wf Chan.c0.cap s.ch0.buf ∧ Buffer.wf Chan.c1.cap s.ch1.buf ∧
  Buffer.wf Chan.c2.cap s.ch2.buf ∧ Buffer.wf Chan.c3.cap s.ch3.buf ∧
  Buffer.wf Chan.c4.cap s.ch4.buf

/-! ### Responses -/

/-- The 4-bit code of a response (30_encoding R98). -/
def Rsp.code : Rsp → BitVec 4
  | .ok => 0
  | .badOp => 1
  | .badCh => 2
  | .busy => 3
  | .badRole => 4
  | .badIdx => 5
  | .notReady => 6

/-- `respond(code, data)` (00_scope R19). -/
def State.respond (s : State) (r : Rsp) (d : Word) : State := { s with resp := some ⟨r, d⟩ }

/-- `reject code`: the response with result 0x0000, and no other change (00_scope R19, 60_exceptions R273). -/
def State.reject (s : State) (r : Rsp) : State := s.respond r 0x0000#16

/-! ### Ports -/

/-- Take the next word off the ports: the word, and the state in which nothing has answered it yet. The
response port shows one response per command and none for an event (30_encoding R97). -/
def State.take (s : State) : Option (PortWord × State) :=
  match s.input with
  | [] => none
  | w :: rest => some (w, { s with input := rest, resp := none })

/-- A word the decoder rejects: a command word is answered BADOP (30_encoding R95, R96); an event word that
names no event is refused by the model (R104). -/
def malformed (e : DecodeError) (s : State) : Host.Outcome State Fault Refusal :=
  match e with
  | .reservedOp => .next (s.reject .badOp)
  | .mustBeZero => .next (s.reject .badOp)
  | .noSuchKind => .refused .noSuchEvent
  | .noSuchLine => .refused .noSuchEvent
  | .strayBits => .refused .noSuchEvent

/-- Put a table row's word where step takes its next word. -/
def State.placeWord (s : State) (w : PortWord) : State := { s with input := w :: s.input }

end Sys2Proof.Machine
end

