-- ==== Sys2Proof/Machine/Operands.lean ====
section
/-! DEFINITION. The operand forms: the channel nibble `CH`, the frame-relative index and the selector of `IMM`, and the level
vector `LV`. -/

namespace Sys2Proof.Machine

/-- The channel a `CH` nibble names; 5 to 15 name none (30_encoding R93, R104). -/
def Chan.ofNibble (c : BitVec 4) : Option Chan :=
  match c.toNat with
  | 0 => some .c0
  | 1 => some .c1
  | 2 => some .c2
  | 3 => some .c3
  | 4 => some .c4
  | _ => none

/-- The `CH` nibble of a channel. -/
def Chan.nibble : Chan → BitVec 4
  | .c0 => 0#4
  | .c1 => 1#4
  | .c2 => 2#4
  | .c3 => 3#4
  | .c4 => 4#4

/-- Run `f` on the channel a command names, or refuse with BADCH (30_encoding R93). -/
def onChan (c : BitVec 4) (s : State) (f : Chan → State) : State :=
  match Chan.ofNibble c with
  | some ch => f ch
  | none => s.reject .badCh

/-- The slot a frame-relative index reaches: `(fstart + idx) mod cap(c)` (20_memory R72). -/
def frameSlot (c : Chan) (k : Channel) (idx : BitVec 8) : Nat :=
  (k.fstart.toNat + idx.toNat) % c.cap

/-- Whether an RDBUF index is legal: `idx < cap(c)` (30_encoding R94). -/
def indexLegal (c : Chan) (idx : BitVec 8) : Bool := decide (idx.toNat < c.cap)

/-- The decoder register an RDDEC selector names (30_encoding R94). -/
inductive DecReg where
  | soil
  | temp
  | flags
  deriving DecidableEq, Repr

/-- The selector: 0 SOIL, 1 TEMP, 2 DFLAGS; 3 to 255 name none (30_encoding R94). -/
def DecReg.ofSelector (sel : BitVec 8) : Option DecReg :=
  match sel.toNat with
  | 0 => some .soil
  | 1 => some .temp
  | 2 => some .flags
  | _ => none

/-- `LV[c]`: the sampled level of line `c`, 1 = high (30_encoding R99, 40_receive_engine R134). -/
def level (lv : BitVec 5) (c : Chan) : Bool := lv.getLsbD c.num

end Sys2Proof.Machine
end

