-- ==== Sys2Proof/Machine/Flags.lean ====
section
/-! DEFINITION. The derived flags and levels, and the status and result words software reads (10_state R36, R37, R46, R56 to
R61; 60_exceptions R277, R282, R283; 41_frame_assembler R171). -/

namespace Sys2Proof.Machine

/-- The 2-bit value of a phase (10_state R35). -/
def Phase.code : Phase → BitVec 2
  | .wait => 0
  | .align => 1
  | .recv => 2

/-- The 2-bit value of the BitClock state (10_state R50). -/
def BitClock.code : BitClock → BitVec 2
  | .stop => 0
  | .half => 1
  | .run => 2

/-- The source's `busy` flag (10_state R36). -/
def Channel.busy (k : Channel) : Bool := k.phase == .recv

/-- The edge enable of the channel (10_state R34, 60_exceptions R277). -/
def Channel.edgeEnabled (k : Channel) : Bool := k.en && k.phase == .wait

/-- The named channel states (10_state R37). -/
inductive ChanState where
  | idle
  | armed
  | aligning
  | receiving
  | draining
  deriving DecidableEq, Repr

/-- The state name of a channel, from `en` and `phase` (10_state R37). -/
def Channel.stateName (k : Channel) : ChanState :=
  match k.en, k.phase with
  | false, .wait => .idle
  | true, .wait => .armed
  | true, .align => .aligning
  | true, .recv => .receiving
  | false, .align => .draining
  | false, .recv => .draining

/-- What the supervisor sees of a sensor frame (41_frame_assembler R171). -/
inductive FrameOutcome where
  | success
  | timeout
  | waiting
  deriving DecidableEq, Repr

/-- Success is `done = 1`, timeout is `to = 1`, and otherwise the frame is still awaited (41_frame_assembler R171). -/
def Channel.frameOutcome (k : Channel) : FrameOutcome :=
  if k.done then .success else if k.timeout then .timeout else .waiting

/-- `DONE(c)`: stored on a sensor channel, `count >= HLEN` on the host channel (10_state R46, 41_frame_assembler R165). -/
def State.doneStatus (s : State) (c : Chan) : Bool :=
  match c.role with
  | .sensor => (s.ch c).done
  | .host => decide (s.hlen ≤ (s.ch c).count.toNat)

/-- The `quiet` output (60_exceptions R282). -/
def State.quiet (s : State) : Bool := Chan.all.all fun c => (s.ch c).phase == .wait

/-- The `wake` output (60_exceptions R283). -/
def State.wake (s : State) : Bool :=
  s.ch0.evf || s.ch1.evf || s.ch2.evf || s.ch3.evf || s.ch4.evf

/-- One bit as a 1-bit word. -/
def bit (b : Bool) : BitVec 1 := BitVec.ofBool b

/-- Bit 7 of STAT: 0 for a sensor channel, 1 for the host channel (10_state R56). -/
def Role.bit : Role → BitVec 1
  | .sensor => 0
  | .host => 1

/-- `STAT(c)`: BITS 15:12, 11:10 zero, RC 9:8, ROLE 7, OVF 6, TO 5, DONE 4, EVF 3, PHASE 2:1, EN 0 (10_state R56). -/
def State.statWord (s : State) (c : Chan) : Word :=
  let k := s.ch c
  k.bits ++ 0#2 ++ k.rc ++ c.role.bit ++ bit k.ovf ++ bit k.timeout ++ bit (s.doneStatus c) ++ bit k.evf
    ++ k.phase.code ++ bit k.en

/-- CNT: the count in bits 7:0 (10_state R57). -/
def Channel.cntWord (k : Channel) : Word := 0#8 ++ k.count

/-- PTR: `fstart` in 12:8, `cur` in 4:0 (10_state R58). -/
def Channel.ptrWord (k : Channel) : Word := 0#3 ++ k.fstart ++ 0#3 ++ k.cur

/-- LASTW: `shift` in 15:8, `last` in 7:0 (10_state R59). -/
def Channel.lastWord (k : Channel) : Word := k.shift ++ k.last

/-- DFLAGS: DCH 6:4, TNEG 3, CKOK 2, FMTOK 1, DVALID 0 (10_state R60). -/
def Dec.flagsWord (d : Dec) : Word :=
  0#9 ++ d.dch ++ bit d.tneg ++ bit d.ckok ++ bit d.fmtok ++ bit d.dvalid

/-- GLB: the `evf` flags in 12:8, `wake` 3, `quiet` 2, `bclk` 1:0 (10_state R61). -/
def State.glbWord (s : State) : Word :=
  0#3 ++ bit s.ch4.evf ++ bit s.ch3.evf ++ bit s.ch2.evf ++ bit s.ch1.evf ++ bit s.ch0.evf
    ++ 0#4 ++ bit s.wake ++ bit s.quiet ++ s.bclk.code

end Sys2Proof.Machine
end

