-- ==== Sys2Proof/Machine/Readback.lean ====
section
/-! DEFINITION. NOP and the read-back commands RDBUF, RDSTAT, RDCNT, RDPTR, RDLAST and RDGLB (43_readback). -/

namespace Sys2Proof.Machine

/-- NOP: do nothing (R240). -/
def execNop (s : State) : Host.Outcome State Fault Refusal := .next (s.respond .ok 0x0000#16)

/-- RDBUF on a channel that exists (R241). The slot is taken modulo `cap(c)`, so it always exists. -/
def rdbufOn (s : State) (c : Chan) (idx : BitVec 8) : Host.Outcome State Fault Refusal :=
  if indexLegal c idx then
    match bufRead c (s.ch c) (frameSlot c (s.ch c) idx) with
    | some b => .next (s.respond .ok (b.zeroExtend 16))
    | none => .fault .noSuchSlot
  else .next (s.reject .badIdx)

/-- RDBUF: read one byte of a channel's current frame (R241). -/
def execRdbuf (c : BitVec 4) (idx : BitVec 8) (s : State) : Host.Outcome State Fault Refusal :=
  match Chan.ofNibble c with
  | some ch => rdbufOn s ch idx
  | none => .next (s.reject .badCh)

/-- RDSTAT: read a channel's status word (R242). -/
def execRdstat (c : BitVec 4) (s : State) : Host.Outcome State Fault Refusal :=
  .next (onChan c s fun ch => s.respond .ok (s.statWord ch))

/-- RDCNT: read a channel's frame byte count (R243). -/
def execRdcnt (c : BitVec 4) (s : State) : Host.Outcome State Fault Refusal :=
  .next (onChan c s fun ch => s.respond .ok (s.ch ch).cntWord)

/-- RDPTR: read a channel's write cursor and frame start (R244). -/
def execRdptr (c : BitVec 4) (s : State) : Host.Outcome State Fault Refusal :=
  .next (onChan c s fun ch => s.respond .ok (s.ch ch).ptrWord)

/-- RDLAST: read a channel's last committed byte and its shift register (R245). -/
def execRdlast (c : BitVec 4) (s : State) : Host.Outcome State Fault Refusal :=
  .next (onChan c s fun ch => s.respond .ok (s.ch ch).lastWord)

/-- RDGLB: read the global word (R246). -/
def execRdglb (s : State) : Host.Outcome State Fault Refusal := .next (s.respond .ok s.glbWord)

end Sys2Proof.Machine
end

