-- ==== Sys2Proof/Machine/Assembler.lean ====
section
/-! DEFINITION. The frame assembler: the commit, sentinel detection, termination, ROLL, ACK and CLREV (41_frame_assembler). -/

namespace Sys2Proof.Machine

/-- Termination: edge detection off (R166). -/
def Channel.terminate (k : Channel) : Channel := { k with en := false }

/-- Commit, common part (R161). -/
def commitCommon (b : Byte) (k : Channel) : Channel :=
  { k with last := b, evf := true, count := sat8Succ k.count }

/-- Commit, sensor storage: the cursor halts at capacity and the byte is dropped (R162). -/
def storeSensor (b : Byte) (k : Channel) : Channel :=
  if k.cur.toNat < Config.scap then { k.bufWrite k.cur.toNat b with cur := k.cur + 1#5 }
  else { k with ovf := true }

/-- Commit, host storage: the cursor wraps modulo 32, and a byte past the 32nd unconsumed one overwrites (R163). -/
def storeHost (b : Byte) (k : Channel) : Channel :=
  let k' := { k.bufWrite k.cur.toNat b with cur := k.cur + 1#5 }
  if Config.hcap < k.count.toNat then { k' with ovf := true } else k'

/-- Sentinel detection, on the byte and not on the buffer (R164). -/
def detectSentinel (b : Byte) (k : Channel) : Channel :=
  if !k.done && !k.timeout && b == Config.sentinel then { k with done := true }.terminate else k

/-- Commit of byte `b` on channel `c` (R160). -/
def commit (c : Chan) (b : Byte) (k : Channel) : Channel :=
  match c.role with
  | .sensor => detectSentinel b (storeSensor b (commitCommon b k))
  | .host => storeHost b (commitCommon b k)

/-- What a ROLL does to one sensor channel (R168). -/
def rollChannel (k : Channel) : Channel :=
  if k.en then
    let k' := { k with rc := k.rc + 1#2 }
    if k'.rc = Config.toLimit then { k' with timeout := true, evf := true }.terminate else k'
  else k

/-- ROLL, visiting the sensor channels in the given order. -/
def rollIn (order : List Chan) (s : State) : State := s.visit order fun _ => rollChannel

/-- ROLL: one rollover of the free-running timer (R168). -/
def execRoll (s : State) : Host.Outcome State Fault Refusal := .next (rollIn Chan.sensors s)

/-- Consume one host frame of `hlen` bytes (R169). -/
def Channel.consume (hlen : Nat) (k : Channel) : Channel :=
  { k with fstart := k.fstart + BitVec.ofNat 5 hlen, count := k.count - BitVec.ofNat 8 hlen }

/-- ACK on a channel that exists (R169). -/
def ackOn (s : State) (c : Chan) : State :=
  match c.role with
  | .sensor => s.reject .badRole
  | .host =>
    if (s.ch c).count.toNat < s.hlen then s.reject .notReady
    else (s.modCh c (Channel.consume s.hlen)).respond .ok 0x0000#16

/-- ACK: consume one complete host frame (R169). -/
def execAck (c : BitVec 4) (s : State) : Host.Outcome State Fault Refusal :=
  .next (onChan c s (ackOn s))

/-- CLREV on a channel that exists (R170). -/
def clrevOn (s : State) (c : Chan) : State :=
  (s.modCh c fun k => { k with evf := false }).respond .ok 0x0000#16

/-- CLREV: clear a channel's event-pending flag (R170). -/
def execClrev (c : BitVec 4) (s : State) : Host.Outcome State Fault Refusal :=
  .next (onChan c s (clrevOn s))

end Sys2Proof.Machine
end

