-- ==== Sys2Proof/Machine/Receive.lean ====
section
/-! DEFINITION. The receive engine: ARM, EDGE and the three cases of BCLK (40_receive_engine). -/

namespace Sys2Proof.Machine

/-! ### ARM -/

/-- The channel of an accepted ARM: armed, its frame empty; `bits`, `shift`, `last` and the slots are kept (R120). -/
def Channel.armed (k : Channel) : Channel :=
  { k with
    en := true, cur := 0#5, fstart := 0#5, count := 0#8, done := false, timeout := false, ovf := false,
    rc := 0#2, evf := false }

/-- ARM on a channel that exists (R120). -/
def armOn (s : State) (c : Chan) : State :=
  if (s.ch c).phase = .wait then (s.modCh c Channel.armed).respond .ok 0x0000#16 else s.reject .busy

/-- ARM: arm a channel and start a new frame (R120). -/
def execArm (c : BitVec 4) (s : State) : Host.Outcome State Fault Refusal :=
  .next (onChan c s (armOn s))

/-! ### EDGE -/

/-- The BitClock after an accepted edge: a stopped one starts the half-bit delay, a running one keeps its phase (R121). -/
def BitClock.afterEdge : BitClock → BitClock
  | .stop => .half
  | .half => .half
  | .run => .run

/-- EDGE on a line that exists (R121). -/
def edgeOn (s : State) (c : Chan) : State :=
  if (s.ch c).edgeEnabled then
    (s.modCh c fun k => { k with phase := .align }).setBclk s.bclk.afterEdge
  else s

/-- EDGE: a falling edge on a line (R121). A term of a line 5 to 15 names no event (30_encoding R104). -/
def execEdge (c : BitVec 4) (s : State) : Host.Outcome State Fault Refusal :=
  match Chan.ofNibble c with
  | some ch => .next (edgeOn s ch)
  | none => .refused .noSuchEvent

/-! ### BCLK -/

/-- The start of a byte: the channel becomes busy with eight bits to sample (R123, R127). -/
def Channel.startByte (k : Channel) : Channel := { k with phase := .recv, bits := Config.dataBits }

/-- The half-bit alignment event (R123). -/
def align (s : State) : State :=
  (s.visit Chan.all fun _ k => if k.phase = .align then k.startByte else k).setBclk .run

/-- A data bit: the sample enters at bit 7 and the earlier ones move down (R125). -/
def sampleBit (l : Bool) (k : Channel) : Channel :=
  { k with shift := bit l ++ k.shift.extractLsb' 1 7, bits := k.bits - 1#4 }

/-- The stop-bit tick: commit the byte, which may clear `en`, and return to `WAIT` (R126). -/
def finalize (c : Chan) (k : Channel) : Channel :=
  { commit c k.shift k with phase := .wait, bits := 15#4 }

/-- What a tick does to a channel found in `RECV` (R124). -/
def receiveTick (c : Chan) (l : Bool) (k : Channel) : Channel :=
  if k.bits = 0#4 then finalize c k else sampleBit l k

/-- The BitClock stops when every channel is in `WAIT` (R128). -/
def stopIfQuiet (s : State) : State := if s.quiet then s.setBclk .stop else s

/-- A tick, visiting the channels in the given order. The sets R and A are taken before any change (R124). -/
def tickIn (order : List Chan) (lv : BitVec 5) (s : State) : State :=
  let received := s.visit order fun c k =>
    if (s.ch c).phase = .recv then receiveTick c (level lv c) k else k
  let aligned := received.visit order fun c k =>
    if (s.ch c).phase = .align then k.startByte else k
  stopIfQuiet aligned

/-- The per-bit tick, in ascending channel order (R124). -/
def tick (lv : BitVec 5) (s : State) : State := tickIn Chan.all lv s

/-- BCLK: the BitClock fired (R122). In `STOP` it has no effect (R129). -/
def execBclk (lv : BitVec 5) (s : State) : Host.Outcome State Fault Refusal :=
  match s.bclk with
  | .stop => .next s
  | .half => .next (align s)
  | .run => .next (tick lv s)

end Sys2Proof.Machine
end

