-- ==== Sys2Proof/Machine/Reset.lean ====
section
/-! DEFINITION. The event RESET (70_reset_and_hazards R300). -/

namespace Sys2Proof.Machine

/-- A channel after RESET: every field at its reset value, the buffer kept (R300). -/
def Channel.cleared (k : Channel) : Channel := { Channel.reset with buf := k.buf }

/-- RESET: return SURX to its reset state (R300). -/
def execReset (s : State) : Host.Outcome State Fault Refusal :=
  .next (((s.visit Chan.all fun _ => Channel.cleared).setBclk .stop).setDec Dec.reset)

end Sys2Proof.Machine
end

