-- ==== Sys2Proof/Machine/SensorDecoder.lean ====
section
/-! DEFINITION. The checksum, the frame grammar, the soil and temperature values, and the commands DECODE and RDDEC
(42_sensor_decoder). -/

namespace Sys2Proof.Machine

/-! ### Characters (00_scope R20) -/

/-- `' '`. -/
def chSpace : Byte := 0x20#8

/-- `'0'`. -/
def chZero : Byte := 0x30#8

/-- CR. -/
def chCR : Byte := 0x0D#8

/-- LF, the sentinel. -/
def chLF : Byte := 0x0A#8

/-- `isdigit(b)`: `0x30 <= b <= 0x39`. -/
def isDigit (b : Byte) : Bool := decide (0x30 ≤ b.toNat ∧ b.toNat ≤ 0x39)

/-- `digit(b)`: `b - 0x30`. -/
def digit (b : Byte) : Nat := b.toNat - 0x30

/-- `dec(s)`: big-endian decimal, the first digit the most significant (00_scope R21). -/
def decimal (ds : List Byte) : Nat := ds.foldl (fun v b => 10 * v + digit b) 0

/-! ### Checksum -/

/-- `CkSum(f, L)`: the sum of `f[0]` to `f[L-3]` modulo 64, plus 32 (R201). -/
def ckSum (f : List Byte) : Nat := ((f.take (f.length - 2)).map BitVec.toNat).sum % 64 + 32

/-- The checksum verdict `CKOK` (R202). -/
def ckOk (f : List Byte) (ovf : Bool) : Bool :=
  !ovf && decide (4 ≤ f.length) && f[f.length - 1]? == some chLF && f[f.length - 4]? == some chCR
    && (f[f.length - 2]?).map BitVec.toNat == some (ckSum f)

/-! ### Grammar -/

/-- `FormatOk(f, L, ovf)`: the soil digits and the temperature digits of a frame of the grammar, none where the
verdict is 0 (R203). With `t0 = s + 3` and `t1 = L - 5` there are `L - 4 - t0` temperature digits. -/
def formatOk (f : List Byte) (ovf : Bool) : Option (List Byte × List Byte) :=
  let len := f.length
  if ovf then none
  else if ¬(9 ≤ len ∧ len ≤ 14) then none
  else if f[len - 1]? ≠ some chLF ∨ f[len - 4]? ≠ some chCR then none
  else
    match f.findIdx? (· == chSpace) with
    | none => none
    | some sp =>
      let soil := f.take sp
      let temp := (f.drop (sp + 3)).take (len - 4 - (sp + 3))
      if ¬(1 ≤ sp ∧ sp ≤ 4) then none
      else if ¬soil.all isDigit then none
      else if f[sp + 1]? ≠ some chZero ∨ f[sp + 2]? ≠ some chSpace then none
      else if ¬(1 ≤ len - 4 - (sp + 3) ∧ len - 4 - (sp + 3) ≤ 3) then none
      else if ¬temp.all isDigit then none
      else some (soil, temp)

/-! ### Values -/

/-- `SOIL`: twice the soil digits' value (R204). -/
def soilOf (ds : List Byte) : Word := BitVec.ofNat 16 (2 * decimal ds)

/-- `TEMP`: the magnitude of the offset-400 value (R205). -/
def tempOf (v : Nat) : Word := if v < 400 then BitVec.ofNat 16 (400 - v) else BitVec.ofNat 16 (v - 400)

/-- `TNEG`: the sign of the offset-400 value (R205). -/
def tnegOf (v : Nat) : Bool := decide (v < 400)

/-- The result registers of an accepted DECODE of channel `c` on frame `f` (R206). -/
def decodeFrame (c : Chan) (f : List Byte) (ovf : Bool) : Dec :=
  match formatOk f ovf with
  | some (soil, temp) =>
    { soil := soilOf soil, temp := tempOf (decimal temp), tneg := tnegOf (decimal temp),
      ckok := ckOk f ovf, fmtok := true, dvalid := true, dch := BitVec.ofNat 3 c.num }
  | none =>
    { soil := 0x0000#16, temp := 0x0000#16, tneg := false,
      ckok := ckOk f ovf, fmtok := false, dvalid := true, dch := BitVec.ofNat 3 c.num }

/-! ### Commands -/

/-- DECODE on a channel that exists (R206). -/
def decodeOn (s : State) (c : Chan) : Host.Outcome State Fault Refusal :=
  match c.role with
  | .host => .next (s.reject .badRole)
  | .sensor =>
    if (s.ch c).done then
      match frameBytes c (s.ch c) with
      | some f =>
        let d := decodeFrame c f (s.ch c).ovf
        .next ((s.setDec d).respond .ok d.flagsWord)
      | none => .fault .noSuchSlot
    else .next (s.reject .notReady)

/-- DECODE: decode the completed frame of a sensor channel (R206). -/
def execDecode (c : BitVec 4) (s : State) : Host.Outcome State Fault Refusal :=
  match Chan.ofNibble c with
  | some ch => decodeOn s ch
  | none => .next (s.reject .badCh)

/-- The value of a decoder result register (R207). -/
def Dec.read (d : Dec) : DecReg → Word
  | .soil => d.soil
  | .temp => d.temp
  | .flags => d.flagsWord

/-- RDDEC: read one decoder result register (R207). -/
def execRddec (sel : BitVec 8) (s : State) : Host.Outcome State Fault Refusal :=
  match DecReg.ofSelector sel with
  | some r => .next (s.respond .ok (s.dec.read r))
  | none => .next (s.reject .badIdx)

end Sys2Proof.Machine
end

