-- ==== Sys2Proof/Machine/Dispatch.lean ====
section
/-! DEFINITION. The meaning of each instruction, one arm per constructor. -/

namespace Sys2Proof.Machine

def exec (i : Instr) (s : State) : Host.Outcome State Fault Refusal :=
  match i with
  | .nop => Sys2Proof.Machine.execNop s
  | .arm c => Sys2Proof.Machine.execArm c s
  | .ack c => Sys2Proof.Machine.execAck c s
  | .clrev c => Sys2Proof.Machine.execClrev c s
  | .decode c => Sys2Proof.Machine.execDecode c s
  | .rdbuf c idx => Sys2Proof.Machine.execRdbuf c idx s
  | .rdstat c => Sys2Proof.Machine.execRdstat c s
  | .rdcnt c => Sys2Proof.Machine.execRdcnt c s
  | .rdptr c => Sys2Proof.Machine.execRdptr c s
  | .rdlast c => Sys2Proof.Machine.execRdlast c s
  | .rddec sel => Sys2Proof.Machine.execRddec sel s
  | .rdglb => Sys2Proof.Machine.execRdglb s
  | .edge c => Sys2Proof.Machine.execEdge c s
  | .bclk lv => Sys2Proof.Machine.execBclk lv s
  | .roll => Sys2Proof.Machine.execRoll s
  | .reset => Sys2Proof.Machine.execReset s

end Sys2Proof.Machine
end

