-- ==== Sys2Proof/Machine/Step.lean ====
section
/-! DEFINITION. One step: take the next word off the ports, decode it and run it. -/

namespace Sys2Proof.Machine

/-- One atomic step (20_memory R77): the next word of the total order is decoded by its port and run. With no word
waiting nothing happens (assumption log 4). A word the decoder rejects is answered or refused by `malformed`. -/
def step (s : State) : Host.Outcome State Fault Refusal :=
  match s.take with
  | none => .next s
  | some (w, t) =>
    match decode w with
    | .ok i => exec i t
    | .error e => malformed e t

/-- `s` with the word of a table row put where step takes its next word. Assumption log 7. -/
def State.withFetchWord (s : State) (nbits w : Nat) : State := s.placeWord (tableWord nbits w)

end Sys2Proof.Machine
end

