-- ==== Sys2Proof/Machine/Assembly.lean ====
section
/-! DEFINITION. The assembler of 30_encoding R106 and R107 over abstract lines, and the pseudo-instructions RXBYTE, RXFRAME
and ROLLN of R108 to R110. -/

namespace Sys2Proof.Machine

/-- A channel operand as written: a number, or the alias `HOST` of 4 (R106). -/
inductive AsmChan where
  | num (n : Nat)
  | host
  deriving DecidableEq, Repr

/-- A selector operand as written: a number, or `SOIL`, `TEMP`, `FLAGS` (R106). -/
inductive AsmSel where
  | num (n : Nat)
  | soil
  | temp
  | flags
  deriving DecidableEq, Repr

/-- One line of a trace (R106, R107). -/
inductive AsmLine where
  | nop
  | arm (c : AsmChan)
  | ack (c : AsmChan)
  | clrev (c : AsmChan)
  | decode (c : AsmChan)
  | rdbuf (c : AsmChan) (idx : Nat)
  | rdstat (c : AsmChan)
  | rdcnt (c : AsmChan)
  | rdptr (c : AsmChan)
  | rdlast (c : AsmChan)
  | rddec (sel : AsmSel)
  | rdglb
  | edge (c : AsmChan)
  | bclk (lv : BitVec 5)
  | roll
  | reset
  deriving DecidableEq, Repr

/-- The channel a written operand names (R106). -/
def AsmChan.value : AsmChan → Nat
  | .num n => n
  | .host => 4

/-- The selector a written operand names (R106). -/
def AsmSel.value : AsmSel → Nat
  | .num n => n
  | .soil => 0
  | .temp => 1
  | .flags => 2

/-- The channel in range, or nothing: the assembler refuses an operand out of range (R106). -/
def AsmChan.chan (c : AsmChan) : Option Chan := Chan.ofNibble (BitVec.ofNat 4 (min c.value 15))

/-- A line over one channel operand. -/
def asmChan (c : AsmChan) (f : BitVec 4 → Instr) : Option Instr :=
  c.chan.map fun ch => f ch.nibble

/-- The instruction of a line, none where an operand is out of range (R106). -/
def AsmLine.instr : AsmLine → Option Instr
  | .nop => some .nop
  | .arm c => asmChan c .arm
  | .ack c => asmChan c .ack
  | .clrev c => asmChan c .clrev
  | .decode c => asmChan c .decode
  | .rdbuf c idx =>
    c.chan.bind fun ch => if idx < ch.cap then some (.rdbuf ch.nibble (BitVec.ofNat 8 idx)) else none
  | .rdstat c => asmChan c .rdstat
  | .rdcnt c => asmChan c .rdcnt
  | .rdptr c => asmChan c .rdptr
  | .rdlast c => asmChan c .rdlast
  | .rddec sel => if sel.value < 3 then some (.rddec (BitVec.ofNat 8 sel.value)) else none
  | .rdglb => some .rdglb
  | .edge c => asmChan c .edge
  | .bclk lv => some (.bclk lv)
  | .roll => some .roll
  | .reset => some .reset

/-- The word of a line: every must-be-zero field is 0 (R106). -/
def assemble (a : AsmLine) : Option PortWord := a.instr.map encode

/-- Every line idle high: `BCLK 0b11111` (R108). -/
def idleHigh : BitVec 5 := 0b11111#5

/-- Level `l` on line `c`, every other line high (R108). -/
def lineLevel (c : Chan) (l : Bool) : BitVec 5 :=
  if l then idleHigh else idleHigh &&& ~~~(1#5 <<< c.num)

/-- `RXBYTE c, b`: the start edge, the alignment event, eight data bits from bit 0, the stop bit (R108). -/
def rxByte (c : Chan) (b : Byte) : List PortWord :=
  [encode (.edge c.nibble), encode (.bclk idleHigh)]
    ++ (List.range 8).map (fun i => encode (.bclk (lineLevel c (b.getLsbD i))))
    ++ [encode (.bclk idleHigh)]

/-- `RXFRAME c, s`: one RXBYTE per byte of the string, in order (R109). -/
def rxFrame (c : Chan) (bytes : List Byte) : List PortWord := bytes.flatMap (rxByte c)

/-- `ROLLN n`: `n` consecutive ROLL events (R110). -/
def rollN (n : Nat) : List PortWord := List.replicate n (encode .roll)

end Sys2Proof.Machine
end

