-- ==== Sys2Proof/Safety.lean ====
section
/-! DEFINITION. What claims speak of: the invariants of 10_state R52, runs of instructions, and which event words exist. -/

namespace Sys2Proof.Machine

/-- The invariants between the BitClock and the phases: 10_state R52 items 1 to 4, and the reason `quiet` is
`bclk = STOP`: a running clock serves some channel (60_exceptions R282). -/
def ClockInv (s : State) : Prop :=
  (∀ c, (s.ch c).phase = .recv → s.bclk = .run ∧ (s.ch c).bits.toNat ≤ 8) ∧
  (s.bclk = .half → (∀ c, (s.ch c).phase ≠ .recv) ∧ ∃ c, (s.ch c).phase = .align) ∧
  (s.bclk = .stop → ∀ c, (s.ch c).phase = .wait) ∧
  (s.bclk = .run → ∃ c, (s.ch c).phase ≠ .wait)

/-- The invariants of a sensor channel: 10_state R52 item 6, with `rc = 3` exactly at a timeout (41_frame_assembler R168),
`ovf` exactly when more than 16 bytes came (R162), and no byte in flight behind the sentinel (R164, R166). -/
def SensorInv (k : Channel) : Prop :=
  k.fstart = 0#5 ∧ k.cur.toNat = min k.count.toNat 16 ∧
  ¬(k.done = true ∧ k.timeout = true) ∧ (k.done = true ∨ k.timeout = true → k.en = false) ∧
  (k.en = true → k.rc ≠ 3#2) ∧ (k.timeout = true → k.rc = 3#2) ∧
  (k.ovf = true ↔ 16 < k.count.toNat) ∧ (k.done = true → k.phase = .wait)

/-- The invariants of the host channel: 10_state R52 item 7 for a ring that has not overrun. A count between 33 and 254 may
have been left by an ACK of a saturated one (assumption log 8), and no state tells it from one that has not saturated: for
those, `Obligations.HostCursorFollowsTheCountUntilItSaturates` states the item over a run. -/
def HostInv (k : Channel) : Prop :=
  k.timeout = false ∧ k.rc = 0#2 ∧ k.done = false ∧
  (k.ovf = false → k.count.toNat ≤ 32 ∧ k.cur.toNat = (k.fstart.toNat + k.count.toNat) % 32)

/-- The invariants of a channel by its role. -/
def ChannelInv (c : Chan) (k : Channel) : Prop :=
  match c.role with
  | .sensor => SensorInv k
  | .host => HostInv k

/-- The slots of the current frame have been written since power-up, so no free value stands in it, and a complete
sensor frame that did not overflow ends with the sentinel (41_frame_assembler R174). -/
def FrameInv (c : Chan) (k : Channel) : Prop :=
  match c.role with
  | .sensor =>
    (∀ i, i < k.cur.toNat → bufGet k.buf i ≠ none) ∧
    (k.done = true → k.ovf = false → bufGet k.buf (k.cur.toNat - 1) = some Config.sentinel ∧ 0 < k.cur.toNat)
  | .host => k.ovf = false → ∀ i, i < k.count.toNat → bufGet k.buf ((k.fstart.toNat + i) % 32) ≠ none

/-- The invariants of the decoder registers: their ranges (42_sensor_decoder R204, R205), no negative zero (R211), zero
values where the format verdict is 0 (R206), reset values until the first accepted DECODE (10_state R51). -/
def DecInv (d : Dec) : Prop :=
  d.dch.toNat < 4 ∧ d.soil.toNat ≤ 19998 ∧ d.soil.toNat % 2 = 0 ∧ d.temp.toNat ≤ 599 ∧
  (d.tneg = true → 1 ≤ d.temp.toNat ∧ d.temp.toNat ≤ 400) ∧
  (d.fmtok = false → d.soil = 0#16 ∧ d.temp = 0#16 ∧ d.tneg = false) ∧
  (d.dvalid = false → d = Dec.reset)

/-- The invariant every step keeps. -/
def StateInv (s : State) : Prop :=
  ClockInv s ∧ (∀ c, ChannelInv c (s.ch c)) ∧ (∀ c, FrameInv c (s.ch c)) ∧ Memory.wf s ∧ DecInv s.dec

/-- The host cursor stands where the unconsumed bytes end: `cur = (fstart + count) mod 32` (10_state R52 item 7). -/
def HostCursorAtCount (k : Channel) : Prop := k.cur.toNat = (k.fstart.toNat + k.count.toNat) % 32

/-- 10_state R52 item 7, read of one state: the cursor stands at the count wherever the count is below 255. -/
def HostCursorClaim (k : Channel) : Prop := k.count.toNat < 255 → HostCursorAtCount k

/-- Run a list of instructions, stopping at the first fault or refusal. -/
def runInstrs : List Instr → State → Host.Outcome State Fault Refusal
  | [], s => .next s
  | i :: is, s =>
    match exec i s with
    | .next t => runInstrs is t
    | .fault r => .fault r
    | .refused r => .refused r

/-- The event words that name an event: EDGE 0x1c00 for c = 0 to 4, BCLK 0x2000 to 0x201F, ROLL 0x3000, RESET 0x4000
(30_encoding R100, R104). -/
def namesEvent (w : Word) : Bool :=
  decide (w.toNat ∈ [0x1000, 0x1100, 0x1200, 0x1300, 0x1400, 0x3000, 0x4000] ∨ (0x2000 ≤ w.toNat ∧ w.toNat ≤ 0x201F))

/-- The command words SURX answers with BADOP: reserved `OP`, or a non-zero must-be-zero field (30_encoding R92, R95, R96). -/
def badOpWord (w : Word) : Bool :=
  let op := w.toNat / 4096
  decide (12 ≤ op ∨ ((op = 0 ∨ op = 11) ∧ w.toNat % 4096 ≠ 0) ∨ (op = 10 ∧ w.toNat / 256 % 16 ≠ 0) ∨
    (op ∈ [1, 2, 3, 4, 6, 7, 8, 9] ∧ w.toNat % 256 ≠ 0))

/-- BCLK events the channel still needs before its byte in flight is committed: one to align, eight samples and the
stop bit (30_encoding R108, 70_reset_and_hazards R318). -/
def ticksLeft (k : Channel) : Nat :=
  match k.phase with
  | .wait => 0
  | .align => 10
  | .recv => k.bits.toNat + 1

/-- The BCLK events of a run (40_receive_engine R122). -/
def isTick : Instr → Bool
  | .bclk _ => true
  | _ => false

/-- Nothing but the response port differs: every channel field with its buffer, `bclk`, `dec`, the build and the waiting
words are as before (60_exceptions R273). -/
def OnlyResponse (s t : State) : Prop :=
  (∀ c, t.ch c = s.ch c) ∧ t.bclk = s.bclk ∧ t.dec = s.dec ∧ t.variant = s.variant ∧ t.input = s.input

/-- Every slot of every buffer reads as before. -/
def SameBytes (s t : State) : Prop := ∀ c i, bufRead c (t.ch c) i = bufRead c (s.ch c) i

/-- Instruction `i` is refused with code `r`: a response with result 0x0000 and no other change (00_scope R19). -/
def Refuses (i : Instr) (s : State) (r : Rsp) : Prop :=
  ∃ t, exec i s = .next t ∧ t.resp = some ⟨r, 0x0000#16⟩ ∧ OnlyResponse s t

/-- Every command word with property `p` is answered BADOP, and nothing else changes (30_encoding R95, R96). -/
def BadOpWhere (p : Word → Prop) : Prop :=
  ∀ (s : State) (w : Word) (rest : List PortWord), p w → s.input = .cmd w :: rest →
    ∃ t, step s = .next t ∧ t.resp = some ⟨.badOp, 0x0000#16⟩ ∧ OnlyResponse { s with input := rest } t

/-- The channel a number from 0 to 4 names; a larger number is sent to channel 4. -/
def Chan.ofNum : Nat → Chan
  | 0 => .c0
  | 1 => .c1
  | 2 => .c2
  | 3 => .c3
  | _ => .c4

/-- The response code of a command word by the causes of 60_exceptions R271, in the order of R272, read off the
word's digits. -/
def expectedRsp (s : State) (w : Word) : Rsp :=
  let op := w.toNat / 4096
  let c := w.toNat / 256 % 16
  let imm := w.toNat % 256
  let k := s.ch (Chan.ofNum c)
  if badOpWord w then .badOp
  else if 1 ≤ op ∧ op ≤ 9 ∧ 5 ≤ c then .badCh
  else if (op = 2 ∧ c < 4) ∨ (op = 4 ∧ c = 4) then .badRole
  else if op = 1 ∧ k.phase ≠ .wait then .busy
  else if (op = 5 ∧ (if c = 4 then 32 else 16) ≤ imm) ∨ (op = 10 ∧ 3 ≤ imm) then .badIdx
  else if (op = 2 ∧ k.count.toNat < s.hlen) ∨ (op = 4 ∧ k.done = false) then .notReady
  else .ok

end Sys2Proof.Machine
end

