-- ==== Sys2Proof/Certificates/Slice0/Obligations.lean ====
section
/-! DEFINITION. The statements for the provers, each from the rules of spec/ its docstring names. -/

open Sys2Proof Sys2Proof.Machine

/-! ### Steps, decoding, malformed words -/

/-- A step runs the instruction its word decodes to (30_encoding R90: the port tells the format; 20_memory R77: one word
is one step). That around exec the step takes the word off the list of waiting words and clears the response port is the
model's choice (assumption logs 4 and 5). -/
def Obligations.StepRunsTheDecodedInstruction : Prop :=
  ∀ (s : State) (w : PortWord) (rest : List PortWord) (i : Instr),
    s.input = w :: rest → decode w = .ok i →
    step s = exec i { s with input := rest, resp := none }

/-- With no word waiting a step changes nothing. The model's choice (assumption log 4). -/
def Obligations.StepWithoutAWordIdles : Prop :=
  ∀ s : State, s.input = [] → step s = .next s

/-- Decoding the word of a well-formed instruction gives it back, every operand at every value (30_encoding R91 to R94,
R99, R100). -/
def Obligations.DecodeOfEncodeGivesTheInstruction : Prop :=
  ∀ i : Instr, i.wf = true → decode (encode i) = .ok i

/-- A word that decodes is the word of exactly that instruction, and the instruction is well formed: no word is read two
ways and no bit of a word is ignored. -/
def Obligations.DecodedWordIsTheEncoding : Prop :=
  ∀ (w : PortWord) (i : Instr), decode w = .ok i → i.wf = true ∧ encode i = w

/-- Words written out in 95_test_vectors sections 2.1 and 2.2 decode to what they stand for, by their port. -/
def Obligations.SpecWordsDecode : Prop :=
  decode (.cmd 0x0000#16) = .ok .nop ∧ decode (.cmd 0x1300#16) = .ok (.arm 3#4) ∧
  decode (.cmd 0x2400#16) = .ok (.ack 4#4) ∧ decode (.cmd 0x4200#16) = .ok (.decode 2#4) ∧
  decode (.cmd 0x541F#16) = .ok (.rdbuf 4#4 0x1F#8) ∧ decode (.cmd 0xA002#16) = .ok (.rddec 2#8) ∧
  decode (.cmd 0xB000#16) = .ok .rdglb ∧ decode (.evt 0x1200#16) = .ok (.edge 2#4) ∧
  decode (.evt 0x201B#16) = .ok (.bclk 0b11011#5) ∧ decode (.evt 0x3000#16) = .ok .roll ∧
  decode (.evt 0x4000#16) = .ok .reset

/-- 30_encoding R95, R96: a reserved `OP` or a non-zero must-be-zero field is answered BADOP and changes no state. -/
def Obligations.MalformedCommandAnswersBadOp : Prop :=
  BadOpWhere fun w => badOpWord w = true

/-- 30_encoding R104: an event word that names no event is refused; every other event word is a step (60_exceptions R274)
which produces no response (30_encoding R97; that the port then shows none is the model's choice, assumption log 5). That
the EDGE term of a line 5 to 15 is refused too is the model's choice (assumption log 16). -/
def Obligations.OnlyWordsThatNameNoEventAreRefused : Prop :=
  (∀ (s : State) (w : Word) (rest : List PortWord), s.input = .evt w :: rest → namesEvent w = false →
    step s = .refused .noSuchEvent) ∧
  (∀ (s : State) (w : Word) (rest : List PortWord), s.input = .evt w :: rest → namesEvent w = true →
    ∃ t, step s = .next t ∧ t.resp = none ∧ t.input = rest) ∧
  (∀ (s : State) (c : BitVec 4), 5 ≤ c.toNat → exec (.edge c) s = .refused .noSuchEvent)

/-- 30_encoding section 6: the assembler refuses operands out of range, so BADCH, BADIDX and BADOP are reached only
through hand-made words, and every line it accepts is a word some step takes. -/
def Obligations.AssembledWordsAreNeverMalformed : Prop :=
  ∀ (a : AsmLine) (w : PortWord) (s t : State) (rest : List PortWord),
    assemble a = some w → s.input = w :: rest → step s = .next t →
    ∀ r d, t.resp = some ⟨r, d⟩ → r ≠ .badCh ∧ r ≠ .badIdx ∧ r ≠ .badOp

/-! ### Responses -/

/-- 60_exceptions R273: a refused command changes no state, its result is 0x0000, and its effect on the state is NOP's. -/
def Obligations.RefusedCommandChangesNothing : Prop :=
  ∀ (s t : State) (w : Word) (rest : List PortWord) (r : Rsp) (d : Word),
    s.input = .cmd w :: rest → step s = .next t → t.resp = some ⟨r, d⟩ → r ≠ .ok →
    d = 0x0000#16 ∧ OnlyResponse { s with input := rest } t ∧
    ∃ u, exec .nop { s with input := rest } = .next u ∧ OnlyResponse u t

/-- 60_exceptions R270, R274: in every state that meets the invariant, SURX answers every command word and takes every
event word that names an event; nothing stops it. -/
def Obligations.NothingStopsTheMachine : Prop :=
  ∀ s : State, StateInv s → (∀ w rest, s.input = .evt w :: rest → namesEvent w = true) → ∃ t, step s = .next t

/-- 60_exceptions R271, R272: the code a command returns is the first whose condition holds, in the order BADOP, BADCH,
BADROLE, BUSY, BADIDX, NOTREADY, and OK where none does. The invariant rules out a cursor past the buffer's end. -/
def Obligations.ResponseCodesFollowTheTable : Prop :=
  ∀ (s : State) (w : Word) (rest : List PortWord), StateInv s → s.input = .cmd w :: rest →
    ∃ t d, step s = .next t ∧ t.resp = some ⟨expectedRsp s w, d⟩

/-! ### The commands, each whole: its word, its effect and frame, its refusals -/

/-- 43_readback R240: NOP. -/
def Obligations.NopDoesNothing : Prop :=
  decode (.cmd 0x0000#16) = .ok .nop ∧
  (∀ s : State, ∃ t, exec .nop s = .next t ∧ t.resp = some ⟨.ok, 0x0000#16⟩ ∧ OnlyResponse s t ∧ SameBytes s t) ∧
  BadOpWhere fun w => w.toNat / 4096 = 0 ∧ w.toNat % 4096 ≠ 0

/-- 40_receive_engine R120: ARM. -/
def Obligations.ArmStartsANewFrame : Prop :=
  (∀ c : BitVec 4, decode (.cmd (0x1#4 ++ c ++ 0x00#8)) = .ok (.arm c)) ∧
  (∀ (s : State) (c : Chan), (s.ch c).phase = .wait →
    ∃ t, exec (.arm c.nibble) s = .next t ∧ t.resp = some ⟨.ok, 0x0000#16⟩ ∧
      (t.ch c).en = true ∧ (t.ch c).cur = 0#5 ∧ (t.ch c).fstart = 0#5 ∧ (t.ch c).count = 0#8 ∧
      (t.ch c).done = false ∧ (t.ch c).timeout = false ∧ (t.ch c).ovf = false ∧ (t.ch c).rc = 0#2 ∧
      (t.ch c).evf = false ∧
      (t.ch c).phase = .wait ∧ (t.ch c).bits = (s.ch c).bits ∧ (t.ch c).shift = (s.ch c).shift ∧
      (t.ch c).last = (s.ch c).last ∧ SameBytes s t ∧ (∀ d, d ≠ c → t.ch d = s.ch d) ∧
      t.bclk = s.bclk ∧ t.dec = s.dec ∧ t.variant = s.variant ∧ t.input = s.input) ∧
  (∀ (s : State) (c : Chan), (s.ch c).phase ≠ .wait → Refuses (.arm c.nibble) s .busy) ∧
  (∀ (s : State) (c : BitVec 4), 5 ≤ c.toNat → Refuses (.arm c) s .badCh) ∧
  BadOpWhere fun w => w.toNat / 4096 = 1 ∧ w.toNat % 256 ≠ 0

/-- 41_frame_assembler R169: ACK. The bytes of the next frame are found at the frame-relative indices from 0 up. -/
def Obligations.AckConsumesOneHostFrame : Prop :=
  (∀ c : BitVec 4, decode (.cmd (0x2#4 ++ c ++ 0x00#8)) = .ok (.ack c)) ∧
  (∀ s : State, s.hlen ≤ s.ch4.count.toNat →
    ∃ t, exec (.ack 4#4) s = .next t ∧ t.resp = some ⟨.ok, 0x0000#16⟩ ∧
      t.ch4.fstart.toNat = (s.ch4.fstart.toNat + s.hlen) % 32 ∧
      t.ch4.count.toNat = s.ch4.count.toNat - s.hlen ∧
      t.ch4 = { s.ch4 with fstart := t.ch4.fstart, count := t.ch4.count } ∧
      (∀ i j : BitVec 8, j.toNat = i.toNat + s.hlen →
        bufRead .c4 t.ch4 (frameSlot .c4 t.ch4 i) = bufRead .c4 s.ch4 (frameSlot .c4 s.ch4 j)) ∧
      SameBytes s t ∧ (∀ d, d ≠ .c4 → t.ch d = s.ch d) ∧
      t.bclk = s.bclk ∧ t.dec = s.dec ∧ t.variant = s.variant ∧ t.input = s.input) ∧
  (∀ s : State, s.ch4.count.toNat < s.hlen → Refuses (.ack 4#4) s .notReady) ∧
  (∀ (s : State) (c : BitVec 4), c.toNat < 4 → Refuses (.ack c) s .badRole) ∧
  (∀ (s : State) (c : BitVec 4), 5 ≤ c.toNat → Refuses (.ack c) s .badCh) ∧
  BadOpWhere fun w => w.toNat / 4096 = 2 ∧ w.toNat % 256 ≠ 0

/-- 41_frame_assembler R170: CLREV. -/
def Obligations.ClrevClearsTheEventFlag : Prop :=
  (∀ c : BitVec 4, decode (.cmd (0x3#4 ++ c ++ 0x00#8)) = .ok (.clrev c)) ∧
  (∀ (s : State) (c : Chan),
    ∃ t, exec (.clrev c.nibble) s = .next t ∧ t.resp = some ⟨.ok, 0x0000#16⟩ ∧
      t.ch c = { s.ch c with evf := false } ∧
      (t.wake = true ↔ ∃ d, d ≠ c ∧ (s.ch d).evf = true) ∧
      SameBytes s t ∧ (∀ d, d ≠ c → t.ch d = s.ch d) ∧
      t.bclk = s.bclk ∧ t.dec = s.dec ∧ t.variant = s.variant ∧ t.input = s.input) ∧
  (∀ (s : State) (c : BitVec 4), 5 ≤ c.toNat → Refuses (.clrev c) s .badCh) ∧
  BadOpWhere fun w => w.toNat / 4096 = 3 ∧ w.toNat % 256 ≠ 0

/-- 42_sensor_decoder R206, with the values of R204 and R205 and the flag word of 10_state R60: DECODE. The frame is the
slots 0 to `cur - 1`; `cur` never passes 16 (10_state R52 item 6). -/
def Obligations.DecodeReadsTheFrame : Prop :=
  (∀ c : BitVec 4, decode (.cmd (0x4#4 ++ c ++ 0x00#8)) = .ok (.decode c)) ∧
  (∀ (s : State) (c : Chan) (f : List Byte), c.role = .sensor → (s.ch c).done = true → (s.ch c).cur.toNat ≤ 16 →
    f = (List.range (s.ch c).cur.toNat).map (slotByte c (s.ch c)) →
    ∃ t w, exec (.decode c.nibble) s = .next t ∧ t.resp = some ⟨.ok, w⟩ ∧
      t.dec.ckok = ckOk f (s.ch c).ovf ∧ t.dec.dvalid = true ∧ t.dec.dch.toNat = c.num ∧
      (∀ d e, formatOk f (s.ch c).ovf = some (d, e) →
        t.dec.fmtok = true ∧ t.dec.soil.toNat = 2 * decimal d ∧
        (decimal e < 400 → t.dec.temp.toNat = 400 - decimal e ∧ t.dec.tneg = true) ∧
        (400 ≤ decimal e → t.dec.temp.toNat = decimal e - 400 ∧ t.dec.tneg = false)) ∧
      (formatOk f (s.ch c).ovf = none →
        t.dec.fmtok = false ∧ t.dec.soil = 0#16 ∧ t.dec.temp = 0#16 ∧ t.dec.tneg = false) ∧
      w.getLsbD 0 = t.dec.dvalid ∧ w.getLsbD 1 = t.dec.fmtok ∧ w.getLsbD 2 = t.dec.ckok ∧
      w.getLsbD 3 = t.dec.tneg ∧ w.extractLsb' 4 3 = t.dec.dch ∧ w.extractLsb' 7 9 = 0#9 ∧
      SameBytes s t ∧ (∀ d, t.ch d = s.ch d) ∧ t.bclk = s.bclk ∧ t.variant = s.variant ∧ t.input = s.input) ∧
  (∀ (s : State) (c : Chan), c.role = .sensor → (s.ch c).done = false → Refuses (.decode c.nibble) s .notReady) ∧
  (∀ s : State, Refuses (.decode 4#4) s .badRole) ∧
  (∀ (s : State) (c : BitVec 4), 5 ≤ c.toNat → Refuses (.decode c) s .badCh) ∧
  (BadOpWhere fun w => w.toNat / 4096 = 4 ∧ w.toNat % 256 ≠ 0)

/-- DECODE of a frame that runs past the buffer's end faults. The model's choice (assumption log 1): 10_state R52 item 6
keeps every run away from it. -/
def Obligations.DecodePastTheBufferFaults : Prop :=
  ∀ (s : State) (c : Chan), c.role = .sensor → (s.ch c).done = true → 16 < (s.ch c).cur.toNat →
    exec (.decode c.nibble) s = .fault .noSuchSlot

/-- 43_readback R241 and 20_memory R72: RDBUF. -/
def Obligations.RdbufReadsTheFrameRelativeSlot : Prop :=
  (∀ (c : BitVec 4) (i : BitVec 8), decode (.cmd (0x5#4 ++ c ++ i)) = .ok (.rdbuf c i)) ∧
  (∀ (s : State) (c : Chan) (i : BitVec 8), i.toNat < (if c.role = .host then 32 else 16) →
    ∃ t b, exec (.rdbuf c.nibble i) s = .next t ∧ t.resp = some ⟨.ok, b.zeroExtend 16⟩ ∧
      bufRead c (s.ch c) (((s.ch c).fstart.toNat + i.toNat) % (if c.role = .host then 32 else 16)) = some b ∧
      OnlyResponse s t ∧ SameBytes s t) ∧
  (∀ (s : State) (c : Chan) (i : BitVec 8), (if c.role = .host then 32 else 16) ≤ i.toNat →
    Refuses (.rdbuf c.nibble i) s .badIdx) ∧
  (∀ (s : State) (c : BitVec 4) (i : BitVec 8), 5 ≤ c.toNat → Refuses (.rdbuf c i) s .badCh)

/-- 43_readback R242 with the layout of 10_state R56 and `DONE(c)` of R46: RDSTAT. -/
def Obligations.RdstatReturnsTheStatusWord : Prop :=
  (∀ c : BitVec 4, decode (.cmd (0x6#4 ++ c ++ 0x00#8)) = .ok (.rdstat c)) ∧
  (∀ (s : State) (c : Chan), ∃ t w, exec (.rdstat c.nibble) s = .next t ∧ t.resp = some ⟨.ok, w⟩ ∧
    w.getLsbD 0 = (s.ch c).en ∧
    w.extractLsb' 1 2 = (match (s.ch c).phase with | .wait => 0#2 | .align => 1#2 | .recv => 2#2) ∧
    w.getLsbD 3 = (s.ch c).evf ∧
    w.getLsbD 4 = (if c.role = .host then decide (s.hlen ≤ (s.ch c).count.toNat) else (s.ch c).done) ∧
    w.getLsbD 5 = (s.ch c).timeout ∧ w.getLsbD 6 = (s.ch c).ovf ∧ w.getLsbD 7 = decide (c.role = .host) ∧
    w.extractLsb' 8 2 = (s.ch c).rc ∧ w.extractLsb' 10 2 = 0#2 ∧ w.extractLsb' 12 4 = (s.ch c).bits ∧
    OnlyResponse s t ∧ SameBytes s t) ∧
  (∀ (s : State) (c : BitVec 4), 5 ≤ c.toNat → Refuses (.rdstat c) s .badCh) ∧
  BadOpWhere fun w => w.toNat / 4096 = 6 ∧ w.toNat % 256 ≠ 0

/-- 43_readback R243, R244, R245 with the layouts of 10_state R57, R58, R59: RDCNT, RDPTR, RDLAST. -/
def Obligations.CountPointerAndLastByteWords : Prop :=
  (∀ c : BitVec 4, decode (.cmd (0x7#4 ++ c ++ 0x00#8)) = .ok (.rdcnt c) ∧
    decode (.cmd (0x8#4 ++ c ++ 0x00#8)) = .ok (.rdptr c) ∧
    decode (.cmd (0x9#4 ++ c ++ 0x00#8)) = .ok (.rdlast c)) ∧
  (∀ (s : State) (c : Chan), ∃ t w, exec (.rdcnt c.nibble) s = .next t ∧ t.resp = some ⟨.ok, w⟩ ∧
    w.toNat = (s.ch c).count.toNat ∧ OnlyResponse s t ∧ SameBytes s t) ∧
  (∀ (s : State) (c : Chan), ∃ t w, exec (.rdptr c.nibble) s = .next t ∧ t.resp = some ⟨.ok, w⟩ ∧
    w.toNat = (s.ch c).fstart.toNat * 256 + (s.ch c).cur.toNat ∧ OnlyResponse s t ∧ SameBytes s t) ∧
  (∀ (s : State) (c : Chan), ∃ t w, exec (.rdlast c.nibble) s = .next t ∧ t.resp = some ⟨.ok, w⟩ ∧
    w.toNat = (s.ch c).shift.toNat * 256 + (s.ch c).last.toNat ∧ OnlyResponse s t ∧ SameBytes s t) ∧
  (∀ (s : State) (c : BitVec 4), 5 ≤ c.toNat →
    Refuses (.rdcnt c) s .badCh ∧ Refuses (.rdptr c) s .badCh ∧ Refuses (.rdlast c) s .badCh) ∧
  BadOpWhere fun w => (w.toNat / 4096 = 7 ∨ w.toNat / 4096 = 8 ∨ w.toNat / 4096 = 9) ∧ w.toNat % 256 ≠ 0

/-- 42_sensor_decoder R207 with the flag word of 10_state R60: RDDEC. -/
def Obligations.RddecReadsOneResultRegister : Prop :=
  (∀ i : BitVec 8, decode (.cmd (0xA#4 ++ 0x0#4 ++ i)) = .ok (.rddec i)) ∧
  (∀ s : State, ∃ t, exec (.rddec 0#8) s = .next t ∧ t.resp = some ⟨.ok, s.dec.soil⟩ ∧
    OnlyResponse s t ∧ SameBytes s t) ∧
  (∀ s : State, ∃ t, exec (.rddec 1#8) s = .next t ∧ t.resp = some ⟨.ok, s.dec.temp⟩ ∧
    OnlyResponse s t ∧ SameBytes s t) ∧
  (∀ s : State, ∃ t w, exec (.rddec 2#8) s = .next t ∧ t.resp = some ⟨.ok, w⟩ ∧
    w.getLsbD 0 = s.dec.dvalid ∧ w.getLsbD 1 = s.dec.fmtok ∧ w.getLsbD 2 = s.dec.ckok ∧
    w.getLsbD 3 = s.dec.tneg ∧ w.extractLsb' 4 3 = s.dec.dch ∧ w.extractLsb' 7 9 = 0#9 ∧
    OnlyResponse s t ∧ SameBytes s t) ∧
  (∀ (s : State) (i : BitVec 8), 3 ≤ i.toNat → Refuses (.rddec i) s .badIdx) ∧
  BadOpWhere fun w => w.toNat / 4096 = 10 ∧ w.toNat / 256 % 16 ≠ 0

/-- 43_readback R246 with the layout of 10_state R61 and the outputs of 60_exceptions R282 and R283: RDGLB. -/
def Obligations.RdglbReturnsTheGlobalWord : Prop :=
  decode (.cmd 0xB000#16) = .ok .rdglb ∧
  (∀ s : State, ∃ t w, exec .rdglb s = .next t ∧ t.resp = some ⟨.ok, w⟩ ∧
    w.extractLsb' 0 2 = (match s.bclk with | .stop => 0#2 | .half => 1#2 | .run => 2#2) ∧
    (w.getLsbD 2 = true ↔ ∀ c, (s.ch c).phase = .wait) ∧
    (w.getLsbD 3 = true ↔ ∃ c, (s.ch c).evf = true) ∧
    w.extractLsb' 4 4 = 0#4 ∧ (∀ c : Chan, w.getLsbD (8 + c.num) = (s.ch c).evf) ∧ w.extractLsb' 13 3 = 0#3 ∧
    OnlyResponse s t ∧ SameBytes s t) ∧
  BadOpWhere fun w => w.toNat / 4096 = 11 ∧ w.toNat % 4096 ≠ 0

/-! ### The events -/

/-- 40_receive_engine R121: EDGE starts a byte on an armed channel and has no effect on any other. -/
def Obligations.EdgeStartsAByteOnAnArmedChannel : Prop :=
  (∀ c : BitVec 4, c.toNat < 5 → decode (.evt (0x1#4 ++ c ++ 0x00#8)) = .ok (.edge c)) ∧
  (∀ (s : State) (c : Chan), (s.ch c).en = true → (s.ch c).phase = .wait →
    ∃ t, exec (.edge c.nibble) s = .next t ∧ t.ch c = { s.ch c with phase := .align } ∧
      t.bclk = (if s.bclk = .stop then .half else s.bclk) ∧
      SameBytes s t ∧ (∀ d, d ≠ c → t.ch d = s.ch d) ∧
      t.dec = s.dec ∧ t.variant = s.variant ∧ t.input = s.input ∧ t.resp = s.resp) ∧
  (∀ (s : State) (c : Chan), ¬((s.ch c).en = true ∧ (s.ch c).phase = .wait) →
    exec (.edge c.nibble) s = .next s)

/-- 40_receive_engine R129: a BCLK while the BitClock is stopped has no effect. -/
def Obligations.StoppedBitClockHasNoEffect : Prop :=
  ∀ (s : State) (lv : BitVec 5), s.bclk = .stop → exec (.bclk lv) s = .next s

/-- 40_receive_engine R123: the half-bit alignment event. -/
def Obligations.HalfBitEventAlignsEveryWaitingChannel : Prop :=
  ∀ (s : State) (lv : BitVec 5), s.bclk = .half →
    ∃ t, exec (.bclk lv) s = .next t ∧ t.bclk = .run ∧
      (∀ c, (s.ch c).phase = .align → t.ch c = { s.ch c with phase := .recv, bits := 8#4 }) ∧
      (∀ c, (s.ch c).phase ≠ .align → t.ch c = s.ch c) ∧
      SameBytes s t ∧ t.dec = s.dec ∧ t.variant = s.variant ∧ t.input = s.input ∧ t.resp = s.resp

/-- 40_receive_engine R124, R125, R127, R128: the tick. A channel with bits left samples its line into bit 7 and moves
the earlier samples down; a waiting start edge is aligned and not sampled; the clock stops when no channel needs it.
A channel at its stop bit is stated in `SensorFinalizeCommitsTheByte` and `HostFinalizeCommitsTheByte`. -/
def Obligations.TickSamplesAlignsAndStops : Prop :=
  ∀ (s : State) (lv : BitVec 5), s.bclk = .run →
    ∃ t, exec (.bclk lv) s = .next t ∧
      (∀ c, (s.ch c).phase = .recv → (s.ch c).bits ≠ 0#4 →
        t.ch c = { s.ch c with shift := (t.ch c).shift, bits := (t.ch c).bits } ∧
        (t.ch c).shift.getLsbD 7 = lv.getLsbD c.num ∧
        (∀ i, i < 7 → (t.ch c).shift.getLsbD i = (s.ch c).shift.getLsbD (i + 1)) ∧
        (t.ch c).bits.toNat = (s.ch c).bits.toNat - 1) ∧
      (∀ c, (s.ch c).phase = .align → t.ch c = { s.ch c with phase := .recv, bits := 8#4 }) ∧
      (∀ c, (s.ch c).phase = .wait → t.ch c = s.ch c) ∧
      ((∀ c, (t.ch c).phase = .wait) → t.bclk = .stop) ∧
      ((∃ c, (t.ch c).phase ≠ .wait) → t.bclk = .run) ∧
      t.dec = s.dec ∧ t.variant = s.variant ∧ t.input = s.input ∧ t.resp = s.resp

/-- 40_receive_engine R126 on a sensor channel, with the commit of 41_frame_assembler R161, R162, R164 and R166. The
byte goes to slot `cur` while `cur` is below 16 and is dropped otherwise; every other slot reads as before. -/
def Obligations.SensorFinalizeCommitsTheByte : Prop :=
  ∀ (s : State) (lv : BitVec 5) (c : Chan), s.bclk = .run → c.role = .sensor → (s.ch c).phase = .recv →
    (s.ch c).bits = 0#4 →
    ∃ t, exec (.bclk lv) s = .next t ∧
      (t.ch c).phase = .wait ∧ (t.ch c).bits = 15#4 ∧ (t.ch c).shift = (s.ch c).shift ∧
      (t.ch c).last = (s.ch c).shift ∧ (t.ch c).evf = true ∧
      (t.ch c).count.toNat = min ((s.ch c).count.toNat + 1) 255 ∧
      ((s.ch c).cur.toNat < 16 →
        (t.ch c).cur.toNat = (s.ch c).cur.toNat + 1 ∧ (t.ch c).ovf = (s.ch c).ovf ∧
        bufRead c (t.ch c) (s.ch c).cur.toNat = some (s.ch c).shift ∧
        ∀ i, i ≠ (s.ch c).cur.toNat → bufRead c (t.ch c) i = bufRead c (s.ch c) i) ∧
      (16 ≤ (s.ch c).cur.toNat →
        (t.ch c).cur = (s.ch c).cur ∧ (t.ch c).ovf = true ∧
        ∀ i, bufRead c (t.ch c) i = bufRead c (s.ch c) i) ∧
      ((s.ch c).done = false → (s.ch c).timeout = false → (s.ch c).shift = 0x0A#8 →
        (t.ch c).done = true ∧ (t.ch c).en = false) ∧
      (¬((s.ch c).done = false ∧ (s.ch c).timeout = false ∧ (s.ch c).shift = 0x0A#8) →
        (t.ch c).done = (s.ch c).done ∧ (t.ch c).en = (s.ch c).en) ∧
      (t.ch c).fstart = (s.ch c).fstart ∧ (t.ch c).timeout = (s.ch c).timeout ∧ (t.ch c).rc = (s.ch c).rc

/-- 40_receive_engine R126 on the host channel, with the commit of 41_frame_assembler R161 and R163. The byte goes to
slot `cur`, the cursor wraps modulo 32, and a count past 32 sets `ovf`. -/
def Obligations.HostFinalizeCommitsTheByte : Prop :=
  ∀ (s : State) (lv : BitVec 5), s.bclk = .run → s.ch4.phase = .recv → s.ch4.bits = 0#4 →
    ∃ t, exec (.bclk lv) s = .next t ∧
      t.ch4.phase = .wait ∧ t.ch4.bits = 15#4 ∧ t.ch4.shift = s.ch4.shift ∧ t.ch4.last = s.ch4.shift ∧
      t.ch4.evf = true ∧ t.ch4.count.toNat = min (s.ch4.count.toNat + 1) 255 ∧
      t.ch4.cur.toNat = (s.ch4.cur.toNat + 1) % 32 ∧
      bufRead .c4 t.ch4 s.ch4.cur.toNat = some s.ch4.shift ∧
      (∀ i, i ≠ s.ch4.cur.toNat → bufRead .c4 t.ch4 i = bufRead .c4 s.ch4 i) ∧
      (t.ch4.ovf = true ↔ s.ch4.ovf = true ∨ 32 < min (s.ch4.count.toNat + 1) 255) ∧
      t.ch4.en = s.ch4.en ∧ t.ch4.done = s.ch4.done ∧ t.ch4.fstart = s.ch4.fstart ∧
      t.ch4.timeout = s.ch4.timeout ∧ t.ch4.rc = s.ch4.rc

/-- 41_frame_assembler R168: ROLL counts on every armed sensor channel and on no other, and the third count is the
timeout. By R168 `rc` never passes 3, and it is below 3 on every armed sensor channel (SensorInv). -/
def Obligations.RollCountsOnArmedSensorChannels : Prop :=
  decode (.evt 0x3000#16) = .ok .roll ∧
  ∀ s : State, ∃ t, exec .roll s = .next t ∧
    (∀ c : Chan, c.role = .sensor → (s.ch c).en = true → (s.ch c).rc = 2#2 →
      t.ch c = { s.ch c with rc := 3#2, timeout := true, evf := true, en := false }) ∧
    (∀ c : Chan, c.role = .sensor → (s.ch c).en = true → (s.ch c).rc.toNat < 2 →
      (t.ch c).rc.toNat = (s.ch c).rc.toNat + 1 ∧ t.ch c = { s.ch c with rc := (t.ch c).rc }) ∧
    (∀ c : Chan, (s.ch c).en = false → t.ch c = s.ch c) ∧ t.ch4 = s.ch4 ∧
    SameBytes s t ∧ t.bclk = s.bclk ∧ t.dec = s.dec ∧ t.variant = s.variant ∧ t.input = s.input ∧ t.resp = s.resp

/-- 70_reset_and_hazards R300 and 10_state R55: RESET loads the reset values and keeps every buffer slot and the build. -/
def Obligations.ResetLoadsTheResetValues : Prop :=
  decode (.evt 0x4000#16) = .ok .reset ∧
  ∀ s : State, ∃ t, exec .reset s = .next t ∧
    (∀ c, (t.ch c).en = false ∧ (t.ch c).phase = .wait ∧ (t.ch c).bits = 0#4 ∧ (t.ch c).shift = 0#8 ∧
      (t.ch c).last = 0#8 ∧ (t.ch c).cur = 0#5 ∧ (t.ch c).fstart = 0#5 ∧ (t.ch c).count = 0#8 ∧
      (t.ch c).evf = false ∧ (t.ch c).done = false ∧ (t.ch c).timeout = false ∧ (t.ch c).ovf = false ∧
      (t.ch c).rc = 0#2) ∧
    SameBytes s t ∧ t.bclk = .stop ∧
    t.dec.soil = 0#16 ∧ t.dec.temp = 0#16 ∧ t.dec.tneg = false ∧ t.dec.ckok = false ∧ t.dec.fmtok = false ∧
    t.dec.dvalid = false ∧ t.dec.dch = 0#3 ∧ t.quiet = true ∧ t.wake = false ∧
    t.variant = s.variant ∧ t.input = s.input ∧ t.resp = s.resp

/-! ### Reset state and free values -/

/-- 10_state R55 of the power-up state (70_reset_and_hazards R302). -/
def Obligations.PowerUpStateHasTheResetValues : Prop :=
  (∀ c, (State.reset.ch c).en = false ∧ (State.reset.ch c).phase = .wait ∧ (State.reset.ch c).bits = 0#4 ∧
    (State.reset.ch c).shift = 0#8 ∧ (State.reset.ch c).last = 0#8 ∧ (State.reset.ch c).cur = 0#5 ∧
    (State.reset.ch c).fstart = 0#5 ∧ (State.reset.ch c).count = 0#8 ∧ (State.reset.ch c).evf = false ∧
    (State.reset.ch c).done = false ∧ (State.reset.ch c).timeout = false ∧ (State.reset.ch c).ovf = false ∧
    (State.reset.ch c).rc = 0#2) ∧
  State.reset.bclk = .stop ∧ State.reset.dec.soil = 0#16 ∧ State.reset.dec.temp = 0#16 ∧
  State.reset.dec.tneg = false ∧ State.reset.dec.ckok = false ∧ State.reset.dec.fmtok = false ∧
  State.reset.dec.dvalid = false ∧ State.reset.dec.dch = 0#3

/-- 20_memory R73, 93 S1 and S2: after power-up a buffer read returns the slot's free value, whatever it is, and RESET
does not draw it again. -/
def Obligations.UnwrittenSlotsReadTheirPowerUpValue : Prop :=
  (∀ (c : Chan) (i : BitVec 8), i.toNat < c.cap →
    ∃ t, exec (.rdbuf c.nibble i) State.reset = .next t ∧
      t.resp = some ⟨.ok, (Config.powerUpByte c.num i.toNat).zeroExtend 16⟩) ∧
  (∀ (s t : State) (c : Chan) (i : Nat), bufGet (s.ch c).buf i = none → exec .reset s = .next t → i < c.cap →
    bufRead c (t.ch c) i = some (Config.powerUpByte c.num i))

/-! ### The receive engine as a whole -/

/-- 10_state R39 and 40_receive_engine R125: after eight data ticks bit `i` of the shift register is the `i`-th sample,
whatever the register held before. -/
def Obligations.EightSamplesAssembleTheByte : Prop :=
  ∀ (k : Channel) (l : List Bool), l.length = 8 → k.bits = 8#4 →
    (∀ i, i < 8 → some ((l.foldl (fun k b => sampleBit b k) k).shift.getLsbD i) = l[i]?) ∧
    (l.foldl (fun k b => sampleBit b k) k).bits = 0#4

/-- 40_receive_engine R132: from an armed channel with the BitClock stopped and every channel in `WAIT`, the eleven
events of `RXBYTE c, b` commit exactly the byte `b` once and leave the BitClock stopped, the other channels alone. That
they are taken off the list of waiting words and leave no response on the port is the model's choice (assumption logs 4
and 5; 30_encoding R97 gives an event no response). -/
def Obligations.RxByteCommitsExactlyTheByte : Prop :=
  ∀ (s : State) (c : Chan) (b : Byte) (rest : List PortWord),
    (s.ch c).en = true → s.bclk = .stop → (∀ d, (s.ch d).phase = .wait) → s.input = rxByte c b ++ rest →
    ∃ t, Host.Core.run Sys2Proof.core 11 s = .next t ∧
      t.ch c = { commit c b { s.ch c with shift := b } with phase := .wait, bits := 15#4 } ∧
      (∀ d, d ≠ c → t.ch d = s.ch d) ∧ t.bclk = .stop ∧ t.dec = s.dec ∧ t.variant = s.variant ∧
      t.input = rest ∧ t.resp = none

/-- 42_sensor_decoder R210 end to end: a sensor frame of the grammar with a correct checksum, whose tag is not the
sentinel, received on a freshly armed channel, is complete, and DECODE then gives OK, `CKOK = 1`, `FMTOK = 1`, twice
the soil digits, and the offset-400 temperature. -/
def Obligations.ReceivedSensorFrameIsDecoded : Prop :=
  ∀ (s : State) (c : Chan) (d e : List Byte) (tag ck : Byte) (f : List Byte),
    c.role = .sensor → (s.ch c).en = true → (s.ch c).cur = 0#5 → (s.ch c).done = false →
    (s.ch c).timeout = false → (s.ch c).ovf = false → s.bclk = .stop → (∀ x, (s.ch x).phase = .wait) →
    1 ≤ d.length → d.length ≤ 4 → 1 ≤ e.length → e.length ≤ 3 →
    (∀ b ∈ d ++ e, 0x30 ≤ b.toNat ∧ b.toNat ≤ 0x39) → tag ≠ 0x0A#8 →
    f = d ++ [0x20#8, 0x30#8, 0x20#8] ++ e ++ [0x0D#8, tag, ck, 0x0A#8] →
    ck.toNat = ((f.take (f.length - 2)).map BitVec.toNat).sum % 64 + 32 →
    s.input = rxFrame c f ++ [encode (.decode c.nibble)] →
    ∃ t w, Host.Core.run Sys2Proof.core (11 * f.length + 1) s = .next t ∧ t.resp = some ⟨.ok, w⟩ ∧
      (t.ch c).done = true ∧ t.dec.dvalid = true ∧ t.dec.ckok = true ∧ t.dec.fmtok = true ∧
      t.dec.dch.toNat = c.num ∧ t.dec.soil.toNat = 2 * decimal d ∧
      (if t.dec.tneg then -(t.dec.temp.toNat : Int) else (t.dec.temp.toNat : Int)) = (decimal e : Int) - 400

/-- 60_exceptions R279, 20_memory R82: the order in which a tick or a ROLL visits the channels cannot be observed. -/
def Obligations.VisitingOrderCannotBeObserved : Prop :=
  (∀ (order : List Chan), order.Perm Chan.all → ∀ (lv : BitVec 5) (s : State),
    tickIn order lv s = tick lv s ∧ (s.bclk = .run → exec (.bclk lv) s = .next (tickIn order lv s))) ∧
  (∀ (order : List Chan), order.Perm Chan.sensors → ∀ s : State, exec .roll s = .next (rollIn order s))

/-- 60_exceptions R279: no channel's update reads another channel's fields. Two states that agree on one channel, the
BitClock and the build agree on that channel after the same instruction. -/
def Obligations.ChannelsDoNotReadEachOther : Prop :=
  ∀ (i : Instr) (c : Chan) (s₁ s₂ t₁ t₂ : State),
    s₁.ch c = s₂.ch c → s₁.bclk = s₂.bclk → s₁.variant = s₂.variant →
    exec i s₁ = .next t₁ → exec i s₂ = .next t₂ → t₁.ch c = t₂.ch c

/-- 40_receive_engine R131 and decision D16: a channel is disarmed only by RESET, by its timeout, or by its sentinel. -/
def Obligations.OnlyTerminationOrResetDisarms : Prop :=
  ∀ (i : Instr) (c : Chan) (s t : State), exec i s = .next t → (s.ch c).en = true → (t.ch c).en = false →
    i = .reset ∨ (i = .roll ∧ c.role = .sensor ∧ (t.ch c).timeout = true) ∨
    ((∃ lv, i = .bclk lv) ∧ c.role = .sensor ∧ (t.ch c).done = true ∧ (t.ch c).last = 0x0A#8)

/-- 70_reset_and_hazards R318: a byte in flight is over within 10 BCLK events, whatever else happens but RESET, and it
has then been committed: `last` is the byte of the shift register. -/
def Obligations.ByteInFlightEndsWithinTenTicks : Prop :=
  ∀ (s t : State) (c : Chan) (is : List Instr), StateInv s → (s.ch c).phase ≠ .wait →
    (∀ i ∈ is, i ≠ .reset) → ticksLeft (s.ch c) ≤ (is.filter isTick).length →
    runInstrs is s = .next t →
    ticksLeft (s.ch c) ≤ 10 ∧
    ∃ n u, n ≤ is.length ∧ runInstrs (is.take n) s = .next u ∧ (u.ch c).phase = .wait ∧
      (u.ch c).last = (u.ch c).shift ∧ (u.ch c).evf = true

/-! ### Frames -/

/-- 41_frame_assembler R172: from ARM on a sensor channel, with no EDGE on its line, no RESET and no further ARM of it,
whatever else happens: fewer than three ROLL events leave it armed and waiting, the third makes it time out, and no
further ROLL changes anything of it. -/
def Obligations.TimeoutComesAtTheThirdRoll : Prop :=
  ∀ (s t u : State) (c : Chan) (is : List Instr), c.role = .sensor → (s.ch c).phase = .wait →
    exec (.arm c.nibble) s = .next t → (∀ i ∈ is, i ≠ .edge c.nibble ∧ i ≠ .reset ∧ i ≠ .arm c.nibble) →
    runInstrs is t = .next u →
    ((is.filter (· == .roll)).length < 3 → (u.ch c).timeout = false ∧ (u.ch c).en = true) ∧
    (3 ≤ (is.filter (· == .roll)).length → (u.ch c).timeout = true ∧ (u.ch c).en = false ∧
      ∃ v, exec .roll u = .next v ∧ v.ch c = u.ch c)

/-- 41_frame_assembler R162, R164, R174 and 20_memory R75: the bytes committed to a freshly armed sensor channel up to
the first sentinel are its frame, in order. Past 16 bytes the later ones are dropped and `ovf` is set, and the sentinel
still ends the frame. -/
def Obligations.CommittedBytesAreTheSensorFrame : Prop :=
  ∀ (c : Chan) (k k' : Channel) (body f : List Byte), c.role = .sensor → k.en = true → k.cur = 0#5 → k.done = false →
    k.timeout = false → k.ovf = false → (∀ b ∈ body, b ≠ 0x0A#8) → f = body ++ [0x0A#8] →
    k' = f.foldl (fun k b => commit c b k) k →
    frameBytes c k' = some (f.take 16) ∧ (k'.ovf = true ↔ 16 < f.length) ∧
    k'.done = true ∧ k'.en = false ∧ k'.last = 0x0A#8

/-- 41_frame_assembler R163, R165: `n` bytes committed to a freshly armed host channel, at most 32, are read back by
frame-relative index in order; the frame is complete once `HLEN` of them have come, and the channel stays armed. -/
def Obligations.CommittedBytesFillTheHostRing : Prop :=
  ∀ (s : State) (k k' : Channel) (f : List Byte), k.en = true → k.cur = 0#5 → k.fstart = 0#5 → k.count = 0#8 →
    k.ovf = false → f.length ≤ 32 → k' = f.foldl (fun k b => commit .c4 b k) k →
    k'.count.toNat = f.length ∧ k'.ovf = false ∧ k'.en = true ∧
    (∀ i : BitVec 8, i.toNat < f.length → bufRead .c4 k' (frameSlot .c4 k' i) = f[i.toNat]?) ∧
    ((s.setCh .c4 k').doneStatus .c4 = true ↔ s.hlen ≤ f.length)

/-- 70_reset_and_hazards R315, second bullet: a complete host frame is stable until it is consumed, as long as the ring
does not overrun. -/
def Obligations.CompleteHostFrameIsStable : Prop :=
  ∀ (i : Instr) (s t : State) (idx : BitVec 8), StateInv s → s.hlen ≤ s.ch4.count.toNat → s.ch4.ovf = false →
    exec i s = .next t → t.ch4.ovf = false → i ≠ .arm 4#4 → i ≠ .ack 4#4 → i ≠ .reset → idx.toNat < s.hlen →
    s.hlen ≤ t.ch4.count.toNat ∧
    bufRead .c4 t.ch4 (frameSlot .c4 t.ch4 idx) = bufRead .c4 s.ch4 (frameSlot .c4 s.ch4 idx)

/-- 70_reset_and_hazards R315, first bullet, and 41_frame_assembler R167: a sensor channel that is not armed and has no
byte in flight is changed by nothing but ARM, RESET, and CLREV, which clears only its event flag. -/
def Obligations.TerminatedSensorFrameIsFrozen : Prop :=
  ∀ (i : Instr) (c : Chan) (s t : State), c.role = .sensor → (s.ch c).en = false → (s.ch c).phase = .wait →
    exec i s = .next t → i ≠ .arm c.nibble → i ≠ .reset →
    (i ≠ .clrev c.nibble → t.ch c = s.ch c) ∧
    (i = .clrev c.nibble → t.ch c = { s.ch c with evf := false })

/-! ### What writes what -/

/-- 20_memory R71: a slot changes only when a tick commits the byte of the channel's shift register to slot `cur`. -/
def Obligations.OnlyACommitWritesABuffer : Prop :=
  ∀ (i : Instr) (c : Chan) (n : Nat) (s t : State), exec i s = .next t →
    bufRead c (t.ch c) n ≠ bufRead c (s.ch c) n →
    (∃ lv, i = .bclk lv) ∧ s.bclk = .run ∧ (s.ch c).phase = .recv ∧ (s.ch c).bits = 0#4 ∧
    n = (s.ch c).cur.toNat ∧ n < c.cap ∧ bufRead c (t.ch c) n = some (s.ch c).shift

/-- 10_state R51: only an accepted DECODE and RESET change the decoder registers. -/
def Obligations.OnlyDecodeAndResetWriteTheResults : Prop :=
  ∀ (i : Instr) (s t : State), exec i s = .next t → t.dec ≠ s.dec →
    i = .reset ∨ ∃ c w, c.role = .sensor ∧ i = .decode c.nibble ∧ (s.ch c).done = true ∧ t.resp = some ⟨.ok, w⟩

/-- 20_memory R79: the read commands have no side effects, and reading twice gives the same value; no command but ARM,
ACK, CLREV and DECODE changes the state. -/
def Obligations.ReadCommandsHaveNoSideEffects : Prop :=
  ∀ (i : Instr) (s t : State), i.isCommand = true →
    (∀ c, i ≠ .arm c ∧ i ≠ .ack c ∧ i ≠ .clrev c ∧ i ≠ .decode c) → exec i s = .next t →
    OnlyResponse s t ∧ ∃ u, exec i t = .next u ∧ u.resp = t.resp ∧ OnlyResponse t u

/-- 60_exceptions R283: `wake` is the OR of the event flags. A commit sets its channel's flag and so does a timeout, and
nothing else sets one; CLREV and an accepted ARM of the channel and RESET clear it, and nothing else clears one. -/
def Obligations.WakeIsTheOrOfThePendingFlags : Prop :=
  (∀ s : State, s.wake = true ↔ ∃ c, (s.ch c).evf = true) ∧
  (∀ (s : State) (c : Chan) (lv : BitVec 5), s.bclk = .run → (s.ch c).phase = .recv → (s.ch c).bits = 0#4 →
    ∃ t, exec (.bclk lv) s = .next t ∧ (t.ch c).evf = true ∧ t.wake = true) ∧
  (∀ (s : State) (c : Chan), c.role = .sensor → (s.ch c).en = true → (s.ch c).rc = 2#2 →
    ∃ t, exec .roll s = .next t ∧ (t.ch c).timeout = true ∧ (t.ch c).evf = true ∧ t.wake = true) ∧
  (∀ (i : Instr) (c : Chan) (s t : State), exec i s = .next t → (s.ch c).evf = false → (t.ch c).evf = true →
    ((∃ lv, i = .bclk lv) ∧ s.bclk = .run ∧ (s.ch c).phase = .recv ∧ (s.ch c).bits = 0#4) ∨
    (i = .roll ∧ c.role = .sensor ∧ (s.ch c).en = true ∧ (t.ch c).timeout = true)) ∧
  (∀ (s : State) (c : Chan), ∃ t, exec (.clrev c.nibble) s = .next t ∧ (t.ch c).evf = false) ∧
  (∀ (s : State) (c : Chan), (s.ch c).phase = .wait →
    ∃ t, exec (.arm c.nibble) s = .next t ∧ (t.ch c).evf = false) ∧
  (∀ s : State, ∃ t, exec .reset s = .next t ∧ (∀ c, (t.ch c).evf = false) ∧ t.wake = false) ∧
  (∀ (i : Instr) (c : Chan) (s t : State), exec i s = .next t → (s.ch c).evf = true → (t.ch c).evf = false →
    (i = .arm c.nibble ∧ (s.ch c).phase = .wait) ∨ i = .clrev c.nibble ∨ i = .reset)

/-- 00_scope R13: `HLEN` is 8 in the short build and 16 in the long, and no instruction changes the build, RESET not
excepted (70_reset_and_hazards R300). That no instruction takes a word off the list of waiting words is the model's choice
(assumption log 4: only the step does). -/
def Obligations.HostVariantIsFixed : Prop :=
  (∀ s : State, s.variant = .short → s.hlen = 8) ∧ (∀ s : State, s.variant = .long → s.hlen = 16) ∧
  (∀ (i : Instr) (s t : State), exec i s = .next t → t.variant = s.variant ∧ t.hlen = s.hlen ∧ t.input = s.input)

/-! ### Invariants -/

/-- 60_exceptions R282: `quiet` says that every channel is in `WAIT`, and in every state that meets the invariant that is
the condition `bclk = STOP`. -/
def Obligations.QuietIsTheStoppedBitClock : Prop :=
  (∀ s : State, s.quiet = true ↔ ∀ c, (s.ch c).phase = .wait) ∧
  (∀ s : State, StateInv s → (s.quiet = true ↔ s.bclk = .stop))

/-- The reset state meets the invariant. -/
def Obligations.ResetStateMeetsTheInvariant : Prop := StateInv State.reset

/-- Every step from a state that meets the invariant leads to one that does: 10_state R52 items 1 to 6, item 7 for a
ring that has not overrun, the canonical form of the buffers, frames without unwritten slots, and the ranges of the
decoder registers. -/
def Obligations.EveryStepKeepsTheInvariant : Prop :=
  ∀ s t : State, StateInv s → step s = .next t → StateInv t

/-- 10_state R52 item 7 as the spec words it is not kept: an ACK of a saturated count breaks it (assumption log 8, the
256-byte vector of 95_test_vectors section 4.3). -/
def Obligations.HostCursorClaimFailsAfterSaturation : Prop :=
  ∃ s t : State, StateInv s ∧ HostCursorClaim s.ch4 ∧ exec (.ack 4#4) s = .next t ∧ StateInv t ∧ ¬HostCursorClaim t.ch4

/-! ### The sensor decoder -/

/-- 42_sensor_decoder R201: the checksum is the sum of `f[0]` to `f[L-3]` modulo 64, plus 32; a 6-bit accumulator gives the
same, and the result is in 32 to 95. -/
def Obligations.ChecksumIsASixBitSum : Prop :=
  ∀ f : List Byte, 3 ≤ f.length →
    ckSum f = ((f.take (f.length - 2)).map BitVec.toNat).sum % 64 + 32 ∧
    ckSum f = ((f.take (f.length - 2)).foldl (fun (a : BitVec 6) b => a + b.truncate 6) 0#6).toNat + 32 ∧
    32 ≤ ckSum f ∧ ckSum f ≤ 95

/-- 42_sensor_decoder R202 and section 2: `CKOK` is 1 exactly if the frame has not overflowed, is four bytes or longer, ends
with CR, tag, checksum and LF, and the checksum byte is the checksum. On a frame whose checksum is right, a change of one
covered byte by no multiple of 64 is detected; a change by a multiple of 64 is not, but at the CR (assumption log 9); a
change of the checksum byte or of the CR always is. -/
def Obligations.ChecksumDetectsSingleByteChanges : Prop :=
  (∀ (f : List Byte) (ovf : Bool), ckOk f ovf = true ↔
    ovf = false ∧ 4 ≤ f.length ∧ f[f.length - 1]? = some 0x0A#8 ∧ f[f.length - 4]? = some 0x0D#8 ∧
    ∃ ck, f[f.length - 2]? = some ck ∧ ck.toNat = ckSum f) ∧
  (∀ (f : List Byte) (p : Nat) (b x : Byte), ckOk f false = true → f[p]? = some x → b ≠ x →
    (p + 2 < f.length → b.toNat % 64 ≠ x.toNat % 64 → ckOk (f.set p b) false = false) ∧
    (p + 2 < f.length → p + 4 ≠ f.length → b.toNat % 64 = x.toNat % 64 → ckOk (f.set p b) false = true) ∧
    (p + 2 = f.length → ckOk (f.set p b) false = false) ∧
    (p + 4 = f.length → ckOk (f.set p b) false = false))

/-- 42_sensor_decoder R203: the algorithm accepts exactly the frames of the layout: 1 to 4 soil digits, " 0 ", 1 to 3
temperature digits, CR, any tag, any checksum byte, LF; and it returns those digits. -/
def Obligations.FormatAlgorithmAcceptsExactlyTheGrammar : Prop :=
  ∀ (f d e : List Byte) (ovf : Bool),
    formatOk f ovf = some (d, e) ↔
      ovf = false ∧ 1 ≤ d.length ∧ d.length ≤ 4 ∧ 1 ≤ e.length ∧ e.length ≤ 3 ∧
      (∀ b ∈ d ++ e, 0x30 ≤ b.toNat ∧ b.toNat ≤ 0x39) ∧
      ∃ tag ck : Byte, f = d ++ [0x20#8, 0x30#8, 0x20#8] ++ e ++ [0x0D#8, tag, ck, 0x0A#8]

/-- 42_sensor_decoder R205, R211: of a frame of the grammar, sign and magnitude are the temperature digits' value less
400, and `TNEG = 1` never goes with `TEMP = 0`. -/
def Obligations.TemperatureIsSignAndMagnitude : Prop :=
  ∀ (c : Chan) (f d e : List Byte) (ovf : Bool), formatOk f ovf = some (d, e) →
    decimal e ≤ 999 ∧
    (if (decodeFrame c f ovf).tneg then -((decodeFrame c f ovf).temp.toNat : Int)
      else ((decodeFrame c f ovf).temp.toNat : Int)) = (decimal e : Int) - 400 ∧
    ¬((decodeFrame c f ovf).tneg = true ∧ (decodeFrame c f ovf).temp = 0#16) ∧
    (decodeFrame c f ovf).temp.toNat ≤ 599

/-- 70_reset_and_hazards R309: a tag of 0x0A ends the frame at the tag, and DECODE of what is stored gives `CKOK = 0` and
`FMTOK = 0`. -/
def Obligations.SentinelTagSpoilsTheFrame : Prop :=
  ∀ (c : Chan) (k k' : Channel) (d e f : List Byte), c.role = .sensor → k.en = true → k.cur = 0#5 → k.done = false →
    k.timeout = false → k.ovf = false → 1 ≤ d.length → d.length ≤ 4 → 1 ≤ e.length → e.length ≤ 3 →
    (∀ b ∈ d ++ e, 0x30 ≤ b.toNat ∧ b.toNat ≤ 0x39) →
    f = d ++ [0x20#8, 0x30#8, 0x20#8] ++ e ++ [0x0D#8, 0x0A#8] →
    k' = f.foldl (fun k b => commit c b k) k →
    k'.done = true ∧ k'.en = false ∧ frameBytes c k' = some f ∧
    (decodeFrame c f k'.ovf).ckok = false ∧ (decodeFrame c f k'.ovf).fmtok = false

/-! ### Added after the review: the host cursor as long as the count has not saturated, and decimal values -/

/-- 10_state R52 item 7, read as `count` having stayed below 255 (assumption log 8). From any state in which the cursor is
`fstart + count` modulo 32 every instruction keeps that while `count` is below 255, and at 255 every instruction but the
commit of one more byte; so it holds after every run, from reset too, of which no instruction met a count of 255. The
item in its own words, for a count below 255 only, is kept by every instruction but an ACK of a count of 255, and so by
every run without such an ACK. `to = 0` and `rc = 0` are in the invariant. -/
def Obligations.HostCursorFollowsTheCountUntilItSaturates : Prop :=
  HostCursorAtCount State.reset.ch4 ∧
  (∀ (i : Instr) (s t : State), HostCursorAtCount s.ch4 → exec i s = .next t →
    (s.ch4.count.toNat < 255 ∨ ∀ lv, i ≠ .bclk lv) → HostCursorAtCount t.ch4) ∧
  (∀ (is : List Instr) (s t : State), HostCursorAtCount s.ch4 → runInstrs is s = .next t →
    (∀ (n : Nat) (u : State), n < is.length → runInstrs (is.take n) s = .next u → u.ch4.count.toNat < 255) →
    HostCursorAtCount t.ch4) ∧
  (∀ (i : Instr) (s t : State), HostCursorClaim s.ch4 → exec i s = .next t →
    (i = .ack 4#4 → s.ch4.count.toNat < 255) → HostCursorClaim t.ch4) ∧
  (∀ (is : List Instr) (s t : State), HostCursorClaim s.ch4 → runInstrs is s = .next t →
    (∀ (n : Nat) (u : State), is[n]? = some (.ack 4#4) → runInstrs (is.take n) s = .next u → u.ch4.count.toNat < 255) →
    HostCursorClaim t.ch4)

/-- 00_scope R20, R21: `dec(s)` is the sum over `k` of `digit(s[k]) * 10^(len(s)-1-k)`, with `digit(b) = b - 0x30`. -/
def Obligations.DecimalIsTheBigEndianSum : Prop :=
  ∀ s : List Byte, (∀ b ∈ s, 0x30 ≤ b.toNat ∧ b.toNat ≤ 0x39) →
    decimal s = (s.zipIdx.map fun x => (x.1.toNat - 0x30) * 10 ^ (s.length - 1 - x.2)).sum
end

