-- ==== Sys2Proof/Laws/State.lean ====
section
/-! SUPPORT. The small lemmas of the state's updates: one per field per update. -/

namespace Sys2Proof.Machine

/-! ### setCh and modCh -/

@[simp] theorem State.setCh_ch_self (s : State) (c : Chan) (k : Channel) : (s.setCh c k).ch c = k := by
  cases c <;> rfl

theorem State.setCh_ch_of_ne (s : State) {c d : Chan} (k : Channel) (h : d ≠ c) :
    (s.setCh c k).ch d = s.ch d := by
  cases c <;> cases d <;> first | rfl | exact absurd rfl h

theorem State.setCh_ch (s : State) (c d : Chan) (k : Channel) :
    (s.setCh c k).ch d = if d = c then k else s.ch d := by
  split
  · subst d; exact s.setCh_ch_self c k
  · exact s.setCh_ch_of_ne k ‹_›

@[simp] theorem State.setCh_bclk (s : State) (c : Chan) (k : Channel) : (s.setCh c k).bclk = s.bclk := by
  cases c <;> rfl
@[simp] theorem State.setCh_dec (s : State) (c : Chan) (k : Channel) : (s.setCh c k).dec = s.dec := by
  cases c <;> rfl
@[simp] theorem State.setCh_variant (s : State) (c : Chan) (k : Channel) : (s.setCh c k).variant = s.variant := by
  cases c <;> rfl
@[simp] theorem State.setCh_input (s : State) (c : Chan) (k : Channel) : (s.setCh c k).input = s.input := by
  cases c <;> rfl
@[simp] theorem State.setCh_resp (s : State) (c : Chan) (k : Channel) : (s.setCh c k).resp = s.resp := by
  cases c <;> rfl

theorem State.modCh_ch (s : State) (c d : Chan) (f : Channel → Channel) :
    (s.modCh c f).ch d = if d = c then f (s.ch c) else s.ch d := s.setCh_ch c d _

@[simp] theorem State.modCh_ch_self (s : State) (c : Chan) (f : Channel → Channel) :
    (s.modCh c f).ch c = f (s.ch c) := s.setCh_ch_self c _
@[simp] theorem State.modCh_bclk (s : State) (c : Chan) (f : Channel → Channel) :
    (s.modCh c f).bclk = s.bclk := s.setCh_bclk c _
@[simp] theorem State.modCh_dec (s : State) (c : Chan) (f : Channel → Channel) :
    (s.modCh c f).dec = s.dec := s.setCh_dec c _
@[simp] theorem State.modCh_variant (s : State) (c : Chan) (f : Channel → Channel) :
    (s.modCh c f).variant = s.variant := s.setCh_variant c _
@[simp] theorem State.modCh_input (s : State) (c : Chan) (f : Channel → Channel) :
    (s.modCh c f).input = s.input := s.setCh_input c _
@[simp] theorem State.modCh_resp (s : State) (c : Chan) (f : Channel → Channel) :
    (s.modCh c f).resp = s.resp := s.setCh_resp c _

/-! ### setBclk, setDec, respond, reject, placeWord -/

@[simp] theorem State.setBclk_ch (s : State) (b : BitClock) (c : Chan) : (s.setBclk b).ch c = s.ch c := by
  cases c <;> rfl
@[simp] theorem State.setBclk_bclk (s : State) (b : BitClock) : (s.setBclk b).bclk = b := rfl
@[simp] theorem State.setBclk_dec (s : State) (b : BitClock) : (s.setBclk b).dec = s.dec := rfl
@[simp] theorem State.setBclk_variant (s : State) (b : BitClock) : (s.setBclk b).variant = s.variant := rfl
@[simp] theorem State.setBclk_input (s : State) (b : BitClock) : (s.setBclk b).input = s.input := rfl
@[simp] theorem State.setBclk_resp (s : State) (b : BitClock) : (s.setBclk b).resp = s.resp := rfl

@[simp] theorem State.setDec_ch (s : State) (d : Dec) (c : Chan) : (s.setDec d).ch c = s.ch c := by
  cases c <;> rfl
@[simp] theorem State.setDec_bclk (s : State) (d : Dec) : (s.setDec d).bclk = s.bclk := rfl
@[simp] theorem State.setDec_dec (s : State) (d : Dec) : (s.setDec d).dec = d := rfl
@[simp] theorem State.setDec_variant (s : State) (d : Dec) : (s.setDec d).variant = s.variant := rfl
@[simp] theorem State.setDec_input (s : State) (d : Dec) : (s.setDec d).input = s.input := rfl
@[simp] theorem State.setDec_resp (s : State) (d : Dec) : (s.setDec d).resp = s.resp := rfl

@[simp] theorem State.respond_ch (s : State) (r : Rsp) (d : Word) (c : Chan) : (s.respond r d).ch c = s.ch c := by
  cases c <;> rfl
@[simp] theorem State.respond_bclk (s : State) (r : Rsp) (d : Word) : (s.respond r d).bclk = s.bclk := rfl
@[simp] theorem State.respond_dec (s : State) (r : Rsp) (d : Word) : (s.respond r d).dec = s.dec := rfl
@[simp] theorem State.respond_variant (s : State) (r : Rsp) (d : Word) : (s.respond r d).variant = s.variant := rfl
@[simp] theorem State.respond_input (s : State) (r : Rsp) (d : Word) : (s.respond r d).input = s.input := rfl
@[simp] theorem State.respond_resp (s : State) (r : Rsp) (d : Word) : (s.respond r d).resp = some ⟨r, d⟩ := rfl

@[simp] theorem State.reject_ch (s : State) (r : Rsp) (c : Chan) : (s.reject r).ch c = s.ch c := by
  cases c <;> rfl
@[simp] theorem State.reject_bclk (s : State) (r : Rsp) : (s.reject r).bclk = s.bclk := rfl
@[simp] theorem State.reject_dec (s : State) (r : Rsp) : (s.reject r).dec = s.dec := rfl
@[simp] theorem State.reject_variant (s : State) (r : Rsp) : (s.reject r).variant = s.variant := rfl
@[simp] theorem State.reject_input (s : State) (r : Rsp) : (s.reject r).input = s.input := rfl
@[simp] theorem State.reject_resp (s : State) (r : Rsp) : (s.reject r).resp = some ⟨r, 0#16⟩ := rfl

@[simp] theorem State.placeWord_input (s : State) (w : PortWord) : (s.placeWord w).input = w :: s.input := rfl
@[simp] theorem State.placeWord_ch (s : State) (w : PortWord) (c : Chan) : (s.placeWord w).ch c = s.ch c := by
  cases c <;> rfl

/-! ### Two states agree when every part does -/

theorem State.ext_ch {s t : State} (hc : ∀ c, s.ch c = t.ch c) (hb : s.bclk = t.bclk) (hd : s.dec = t.dec)
    (hv : s.variant = t.variant) (hi : s.input = t.input) (hr : s.resp = t.resp) : s = t := by
  have h0 := hc .c0
  have h1 := hc .c1
  have h2 := hc .c2
  have h3 := hc .c3
  have h4 := hc .c4
  cases s; cases t
  simp only [State.ch] at h0 h1 h2 h3 h4
  subst h0 h1 h2 h3 h4 hb hd hv hi hr
  rfl

end Sys2Proof.Machine
end

