-- ==== Sys2Proof/Laws/Buffer.lean ====
section
/-! SUPPORT. The buffers: a read after a write, and the canonical form every write keeps. -/

namespace Sys2Proof.Machine

theorem bufGet_bufSet (m : Buffer) (i j : Nat) (v : Byte) :
    bufGet (bufSet m i v) j = if j = i then some v else bufGet m j := by
  induction m with
  | nil => simp [bufSet, bufGet, eq_comm]
  | cons e m ih =>
    obtain ⟨a, b⟩ := e
    simp only [bufSet]
    split
    · simp [bufGet, eq_comm]
    · split
      · subst i
        by_cases hj : j = a
        · simp [bufGet, hj]
        · simp [bufGet, hj, Ne.symm hj]
      · by_cases hj : a = j
        · subst j; simp [bufGet]; omega
        · simp [bufGet, hj, ih]

@[simp] theorem bufGet_bufSet_self (m : Buffer) (i : Nat) (v : Byte) : bufGet (bufSet m i v) i = some v := by
  rw [bufGet_bufSet, if_pos rfl]

theorem mem_bufSet {m : Buffer} {i : Nat} {v : Byte} {x : Nat × Byte} (h : x ∈ bufSet m i v) :
    x = (i, v) ∨ x ∈ m := by
  induction m with
  | nil => simpa [bufSet] using h
  | cons e m ih =>
    obtain ⟨a, b⟩ := e
    simp only [bufSet] at h
    split at h
    · simpa using h
    · split at h
      · rcases List.mem_cons.1 h with h | h
        · exact .inl h
        · exact .inr (List.mem_cons_of_mem _ h)
      · rcases List.mem_cons.1 h with h | h
        · exact .inr (h ▸ List.mem_cons_self ..)
        · exact (ih h).imp id (List.mem_cons_of_mem _)

/-- A write below the capacity keeps the canonical form. -/
theorem Buffer.wf_bufSet {n : Nat} {m : Buffer} {i : Nat} (v : Byte) (h : Buffer.wf n m) (hi : i < n) :
    Buffer.wf n (bufSet m i v) := by
  refine ⟨?_, fun x hx => ?_⟩
  · obtain ⟨hs, -⟩ := h
    induction m with
    | nil => simp [bufSet]
    | cons e m ih =>
      obtain ⟨a, b⟩ := e
      obtain ⟨h1, h2⟩ := List.pairwise_cons.1 hs
      simp only [bufSet]
      split
      · refine List.pairwise_cons.2 ⟨fun x hx => ?_, hs⟩
        rcases List.mem_cons.1 hx with rfl | hx
        · assumption
        · have := h1 x hx; dsimp only at this ⊢; omega
      · split
        · subst i; exact List.pairwise_cons.2 ⟨fun x hx => h1 x hx, h2⟩
        · refine List.pairwise_cons.2 ⟨fun x hx => ?_, ih h2⟩
          rcases mem_bufSet hx with rfl | hx
          · dsimp only; omega
          · exact h1 x hx
  · rcases mem_bufSet hx with rfl | hx
    · exact hi
    · exact h.2 x hx

/-- The buffer write of a channel keeps the canonical form, for a slot the buffer has. -/
theorem Buffer.wf_bufWrite {n : Nat} {k : Channel} {i : Nat} (v : Byte) (h : Buffer.wf n k.buf) (hi : i < n) :
    Buffer.wf n (k.bufWrite i v).buf := Buffer.wf_bufSet v h hi

/-- The memories are in canonical form exactly when each channel's buffer is. -/
theorem Memory.wf_iff (s : State) : Memory.wf s ↔ ∀ c : Chan, Buffer.wf c.cap (s.ch c).buf := by
  constructor
  · rintro ⟨h0, h1, h2, h3, h4⟩ c
    cases c <;> assumption
  · exact fun h => ⟨h .c0, h .c1, h .c2, h .c3, h .c4⟩

theorem Memory.wf_reset : Memory.wf State.reset := by
  refine (Memory.wf_iff _).2 fun c => ?_
  cases c <;> exact ⟨List.Pairwise.nil, fun x hx => nomatch hx⟩

theorem slotByte_bufWrite (c : Chan) (k : Channel) (i j : Nat) (v : Byte) :
    slotByte c (k.bufWrite i v) j = if j = i then v else slotByte c k j := by
  simp only [slotByte, Channel.bufWrite, bufGet_bufSet]
  split <;> rfl

theorem bufRead_eq_some {c : Chan} {k : Channel} {i : Nat} {b : Byte} :
    bufRead c k i = some b ↔ i < c.cap ∧ b = slotByte c k i := by
  unfold bufRead
  split
  · simp [*, eq_comm]
  · simp [*]

/-- DECODE's frame is the slots 0 to `cur - 1`, each read as BufRead reads it. -/
theorem frameBytes_eq_some {c : Chan} {k : Channel} {f : List Byte} :
    frameBytes c k = some f ↔ k.cur.toNat ≤ c.cap ∧ f = (List.range k.cur.toNat).map (slotByte c k) := by
  unfold frameBytes
  split
  · simp [*, eq_comm]
  · simp [*]

end Sys2Proof.Machine
end

