-- ==== Sys2Proof/Laws/Visit.lean ====
section
/-! SUPPORT. What a visit of the channels does: each visited channel is updated once from its own old value, and the visiting
order cannot be seen (60_exceptions R279). -/

namespace Sys2Proof.Machine

@[simp] theorem State.visit_nil (f : Chan → Channel → Channel) (s : State) : s.visit [] f = s := rfl

theorem State.visit_cons (c : Chan) (order : List Chan) (f : Chan → Channel → Channel) (s : State) :
    s.visit (c :: order) f = (s.modCh c (f c)).visit order f := rfl

@[simp] theorem State.visit_bclk (order : List Chan) (f : Chan → Channel → Channel) (s : State) :
    (s.visit order f).bclk = s.bclk := by
  induction order generalizing s with
  | nil => rfl
  | cons c order ih => rw [State.visit_cons, ih, State.modCh_bclk]

@[simp] theorem State.visit_dec (order : List Chan) (f : Chan → Channel → Channel) (s : State) :
    (s.visit order f).dec = s.dec := by
  induction order generalizing s with
  | nil => rfl
  | cons c order ih => rw [State.visit_cons, ih, State.modCh_dec]

@[simp] theorem State.visit_variant (order : List Chan) (f : Chan → Channel → Channel) (s : State) :
    (s.visit order f).variant = s.variant := by
  induction order generalizing s with
  | nil => rfl
  | cons c order ih => rw [State.visit_cons, ih, State.modCh_variant]

@[simp] theorem State.visit_input (order : List Chan) (f : Chan → Channel → Channel) (s : State) :
    (s.visit order f).input = s.input := by
  induction order generalizing s with
  | nil => rfl
  | cons c order ih => rw [State.visit_cons, ih, State.modCh_input]

@[simp] theorem State.visit_resp (order : List Chan) (f : Chan → Channel → Channel) (s : State) :
    (s.visit order f).resp = s.resp := by
  induction order generalizing s with
  | nil => rfl
  | cons c order ih => rw [State.visit_cons, ih, State.modCh_resp]

/-- A visit that passes each channel once updates exactly the visited channels, each from its old value. -/
theorem State.visit_ch {order : List Chan} (h : order.Nodup) (f : Chan → Channel → Channel) (s : State) (d : Chan) :
    (s.visit order f).ch d = if d ∈ order then f d (s.ch d) else s.ch d := by
  induction order generalizing s with
  | nil => rfl
  | cons c order ih =>
    rw [State.visit_cons, ih (List.nodup_cons.1 h).2, State.modCh_ch]
    have hc := (List.nodup_cons.1 h).1
    by_cases hd : d = c
    · subst hd; simp [hc]
    · simp [hd]

theorem Chan.all_nodup : Chan.all.Nodup := by decide
theorem Chan.sensors_nodup : Chan.sensors.Nodup := by decide
@[simp] theorem Chan.mem_all (c : Chan) : c ∈ Chan.all := by cases c <;> decide
theorem Chan.mem_sensors (c : Chan) : c ∈ Chan.sensors ↔ c.role = .sensor := by cases c <;> decide

/-- A visit of every channel updates every channel. -/
@[simp] theorem State.visit_all_ch (f : Chan → Channel → Channel) (s : State) (d : Chan) :
    (s.visit Chan.all f).ch d = f d (s.ch d) := by
  rw [State.visit_ch Chan.all_nodup, if_pos (Chan.mem_all d)]

/-- A visit of the sensor channels leaves the host channel alone. -/
theorem State.visit_sensors_ch (f : Chan → Channel → Channel) (s : State) (d : Chan) :
    (s.visit Chan.sensors f).ch d = if d.role = .sensor then f d (s.ch d) else s.ch d := by
  rw [State.visit_ch Chan.sensors_nodup]
  by_cases h : d.role = .sensor
  · rw [if_pos h, if_pos ((Chan.mem_sensors d).2 h)]
  · rw [if_neg h, if_neg (mt (Chan.mem_sensors d).1 h)]

end Sys2Proof.Machine
end

