-- ==== Sys2Proof/Laws/Ops.lean ====
section
/-! SUPPORT. Spec lemmas of the operand forms, the port operations and the step. -/

namespace Sys2Proof.Machine

/-! ### The channel nibble -/

@[simp] theorem Chan.ofNibble_nibble (c : Chan) : Chan.ofNibble c.nibble = some c := by cases c <;> rfl

theorem Chan.ofNibble_eq_some : ∀ {c : BitVec 4} {ch : Chan}, Chan.ofNibble c = some ch ↔ c = ch.nibble := by
  intro c ch
  cases ch <;> revert c <;> decide

theorem Chan.ofNibble_eq_none : ∀ {c : BitVec 4}, Chan.ofNibble c = none ↔ 5 ≤ c.toNat := by
  decide

@[simp] theorem onChan_nibble (c : Chan) (s : State) (f : Chan → State) : onChan c.nibble s f = f c := by
  rw [onChan, Chan.ofNibble_nibble]

theorem onChan_of_ge {c : BitVec 4} (h : 5 ≤ c.toNat) (s : State) (f : Chan → State) :
    onChan c s f = s.reject .badCh := by
  rw [onChan, Chan.ofNibble_eq_none.2 h]

/-- What `onChan` can answer: the command on a channel that exists, or BADCH. -/
theorem onChan_cases (c : BitVec 4) (s : State) (f : Chan → State) :
    (∃ ch, c = ch.nibble ∧ onChan c s f = f ch) ∨ (5 ≤ c.toNat ∧ onChan c s f = s.reject .badCh) := by
  rcases h : Chan.ofNibble c with _ | ch
  · exact .inr ⟨Chan.ofNibble_eq_none.1 h, by rw [onChan, h]⟩
  · exact .inl ⟨ch, Chan.ofNibble_eq_some.1 h, by rw [onChan, h]⟩

/-! ### The slots an index reaches -/

theorem Chan.cap_sensor {c : Chan} (h : c.role = .sensor) : c.cap = 16 := by cases c <;> first | rfl | cases h
theorem Chan.cap_host {c : Chan} (h : c.role = .host) : c.cap = 32 := by cases c <;> first | rfl | cases h
theorem Chan.cap_pos (c : Chan) : 0 < c.cap := by cases c <;> decide

/-- A frame-relative index always reaches a slot that exists (20_memory R72). -/
theorem frameSlot_lt (c : Chan) (k : Channel) (idx : BitVec 8) : frameSlot c k idx < c.cap :=
  Nat.mod_lt _ c.cap_pos

/-- RDBUF on a channel answers the slot's byte or BADIDX; it never faults. -/
theorem rdbufOn_eq (s : State) (c : Chan) (idx : BitVec 8) :
    rdbufOn s c idx = .next (if idx.toNat < c.cap
      then s.respond .ok ((slotByte c (s.ch c) (frameSlot c (s.ch c) idx)).zeroExtend 16)
      else s.reject .badIdx) := by
  simp only [rdbufOn, indexLegal, bufRead, frameSlot_lt, if_true]
  by_cases h : idx.toNat < c.cap <;> simp [h]

/-! ### The ports and the step -/

theorem State.take_nil {s : State} (h : s.input = []) : s.take = none := by simp [State.take, h]

theorem State.take_cons {s : State} {w : PortWord} {rest : List PortWord} (h : s.input = w :: rest) :
    s.take = some (w, { s with input := rest, resp := none }) := by simp [State.take, h]

/-- What a step can do: nothing without a word, the decoded instruction, or the answer to a malformed word. -/
theorem step_cases (s : State) :
    (s.input = [] ∧ step s = .next s) ∨
    ∃ w rest, s.input = w :: rest ∧
      ((∃ i, decode w = .ok i ∧ step s = exec i { s with input := rest, resp := none }) ∨
       (∃ e, decode w = .error e ∧ step s = malformed e { s with input := rest, resp := none })) := by
  rcases h : s.input with _ | ⟨w, rest⟩
  · exact .inl ⟨rfl, by rw [step, State.take_nil h]⟩
  · refine .inr ⟨w, rest, rfl, ?_⟩
    rcases hd : decode w with e | i
    · exact .inr ⟨e, rfl, by simp only [step, State.take_cons h, hd]⟩
    · exact .inl ⟨i, rfl, by simp only [step, State.take_cons h, hd]⟩

/-- What the answer to a malformed word can be. -/
theorem malformed_cases (e : DecodeError) (s : State) :
    malformed e s = .next (s.reject .badOp) ∨ malformed e s = .refused .noSuchEvent := by
  cases e <;> first | exact .inl rfl | exact .inr rfl

end Sys2Proof.Machine
end

