-- ==== Sys2Proof/Laws/Receive.lean ====
section
/-! SUPPORT. Spec lemmas of the commit, the tick, the alignment, the edge and the rollover: what each does to every part of the
state. -/

namespace Sys2Proof.Machine

/-! ### Commit -/

@[simp] theorem sat8Succ_toNat (v : BitVec 8) : (sat8Succ v).toNat = min (v.toNat + 1) 255 := by
  simp only [sat8Succ, BitVec.toNat_ofNat]
  omega

theorem commit_sensor {c : Chan} (h : c.role = .sensor) (b : Byte) (k : Channel) :
    commit c b k = detectSentinel b (storeSensor b (commitCommon b k)) := by simp [commit, h]

theorem commit_host {c : Chan} (h : c.role = .host) (b : Byte) (k : Channel) :
    commit c b k = storeHost b (commitCommon b k) := by simp [commit, h]

/-- A commit on a sensor channel, field by field (R161, R162, R164, R166). -/
theorem commit_sensor_eq {c : Chan} (h : c.role = .sensor) (b : Byte) (k : Channel) :
    commit c b k =
      { k with
        last := b, evf := true, count := sat8Succ k.count,
        buf := if k.cur.toNat < 16 then bufSet k.buf k.cur.toNat b else k.buf,
        cur := if k.cur.toNat < 16 then k.cur + 1#5 else k.cur,
        ovf := if k.cur.toNat < 16 then k.ovf else true,
        done := k.done || (!k.timeout && b == Config.sentinel),
        en := k.en && !(!k.done && !k.timeout && b == Config.sentinel) } := by
  rw [commit_sensor h]
  obtain ⟨en, phase, bits, shift, last, buf, cur, fstart, count, evf, done, timeout, ovf, rc⟩ := k
  simp only [commitCommon, storeSensor, detectSentinel, Channel.bufWrite, Channel.terminate, Config.scap]
  by_cases hc : cur.toNat < 16 <;> simp only [hc, if_true, if_false] <;>
    cases done <;> cases timeout <;> cases hb : b == Config.sentinel <;> simp

/-- A commit on the host channel, field by field (R161, R163). -/
theorem commit_host_eq {c : Chan} (h : c.role = .host) (b : Byte) (k : Channel) :
    commit c b k =
      { k with
        last := b, evf := true, count := sat8Succ k.count,
        buf := bufSet k.buf k.cur.toNat b, cur := k.cur + 1#5,
        ovf := k.ovf || decide (32 < (sat8Succ k.count).toNat) } := by
  rw [commit_host h]
  simp only [commitCommon, storeHost, Channel.bufWrite, Config.hcap]
  by_cases hc : 32 < (sat8Succ k.count).toNat
  · simp only [hc, if_true, decide_true, Bool.or_true]
  · simp only [hc, if_false, decide_false, Bool.or_false]

@[simp] theorem commit_phase (c : Chan) (b : Byte) (k : Channel) : (commit c b k).phase = k.phase := by
  cases h : c.role <;> simp [commit_sensor_eq, commit_host_eq, h]
@[simp] theorem commit_bits (c : Chan) (b : Byte) (k : Channel) : (commit c b k).bits = k.bits := by
  cases h : c.role <;> simp [commit_sensor_eq, commit_host_eq, h]
@[simp] theorem commit_shift (c : Chan) (b : Byte) (k : Channel) : (commit c b k).shift = k.shift := by
  cases h : c.role <;> simp [commit_sensor_eq, commit_host_eq, h]
@[simp] theorem commit_last (c : Chan) (b : Byte) (k : Channel) : (commit c b k).last = b := by
  cases h : c.role <;> simp [commit_sensor_eq, commit_host_eq, h]
@[simp] theorem commit_evf (c : Chan) (b : Byte) (k : Channel) : (commit c b k).evf = true := by
  cases h : c.role <;> simp [commit_sensor_eq, commit_host_eq, h]
@[simp] theorem commit_count (c : Chan) (b : Byte) (k : Channel) : (commit c b k).count = sat8Succ k.count := by
  cases h : c.role <;> simp [commit_sensor_eq, commit_host_eq, h]
@[simp] theorem commit_fstart (c : Chan) (b : Byte) (k : Channel) : (commit c b k).fstart = k.fstart := by
  cases h : c.role <;> simp [commit_sensor_eq, commit_host_eq, h]
@[simp] theorem commit_timeout (c : Chan) (b : Byte) (k : Channel) : (commit c b k).timeout = k.timeout := by
  cases h : c.role <;> simp [commit_sensor_eq, commit_host_eq, h]
@[simp] theorem commit_rc (c : Chan) (b : Byte) (k : Channel) : (commit c b k).rc = k.rc := by
  cases h : c.role <;> simp [commit_sensor_eq, commit_host_eq, h]

/-- A commit keeps the canonical form of the channel's buffer. -/
theorem Buffer.wf_commit {c : Chan} {k : Channel} (b : Byte) (h : Buffer.wf c.cap k.buf) :
    Buffer.wf c.cap (commit c b k).buf := by
  rcases hr : c.role with _ | _
  · rw [commit_sensor_eq hr]
    dsimp only
    split
    · exact Buffer.wf_bufSet _ h (by rwa [Chan.cap_sensor hr])
    · exact h
  · rw [commit_host_eq hr]
    exact Buffer.wf_bufSet _ h (by rw [Chan.cap_host hr]; exact k.cur.isLt)

/-! ### The tick -/

/-- Every channel in `WAIT`, said of each channel (60_exceptions R282). -/
theorem State.quiet_iff (s : State) : s.quiet = true ↔ ∀ c, (s.ch c).phase = .wait := by
  simp only [State.quiet, List.all_eq_true, beq_iff_eq]
  exact ⟨fun h c => h c (Chan.mem_all c), fun h c _ => h c⟩

/-- What a tick does to one channel: it depends on that channel and its line only (60_exceptions R279). -/
theorem tickIn_ch {order : List Chan} (hn : order.Nodup) (hm : ∀ c, c ∈ order) (lv : BitVec 5) (s : State)
    (c : Chan) :
    (tickIn order lv s).ch c =
      match (s.ch c).phase with
      | .wait => s.ch c
      | .align => (s.ch c).startByte
      | .recv => receiveTick c (level lv c) (s.ch c) := by
  have key : ∀ t : State, (stopIfQuiet t).ch c = t.ch c := fun t => by
    unfold stopIfQuiet
    split <;> simp
  simp only [tickIn, key, State.visit_ch hn, hm, if_true]
  cases (s.ch c).phase <;> simp

theorem tick_ch (lv : BitVec 5) (s : State) (c : Chan) :
    (tick lv s).ch c =
      match (s.ch c).phase with
      | .wait => s.ch c
      | .align => (s.ch c).startByte
      | .recv => receiveTick c (level lv c) (s.ch c) :=
  tickIn_ch Chan.all_nodup Chan.mem_all lv s c

theorem stopIfQuiet_bclk (s : State) : (stopIfQuiet s).bclk = if s.quiet then .stop else s.bclk := by
  unfold stopIfQuiet
  split <;> simp [*]

theorem stopIfQuiet_ch (s : State) (c : Chan) : (stopIfQuiet s).ch c = s.ch c := by
  unfold stopIfQuiet
  split <;> simp

@[simp] theorem stopIfQuiet_dec (s : State) : (stopIfQuiet s).dec = s.dec := by
  unfold stopIfQuiet
  split <;> simp
@[simp] theorem stopIfQuiet_variant (s : State) : (stopIfQuiet s).variant = s.variant := by
  unfold stopIfQuiet
  split <;> simp
@[simp] theorem stopIfQuiet_input (s : State) : (stopIfQuiet s).input = s.input := by
  unfold stopIfQuiet
  split <;> simp
@[simp] theorem stopIfQuiet_resp (s : State) : (stopIfQuiet s).resp = s.resp := by
  unfold stopIfQuiet
  split <;> simp

/-- `quiet` reads the channels only. -/
theorem State.quiet_congr {s t : State} (h : ∀ c, s.ch c = t.ch c) : s.quiet = t.quiet := by
  rw [Bool.eq_iff_iff, State.quiet_iff, State.quiet_iff]
  simp only [h]

/-- After a tick the BitClock stands still exactly when every channel is in `WAIT` (40_receive_engine R128). -/
theorem tickIn_bclk (order : List Chan) (lv : BitVec 5) (s : State) :
    (tickIn order lv s).bclk = if (tickIn order lv s).quiet then .stop else s.bclk := by
  have hq : (tickIn order lv s).quiet =
      ((s.visit order fun c k => if (s.ch c).phase = .recv then receiveTick c (level lv c) k else k).visit order
        fun c k => if (s.ch c).phase = .align then k.startByte else k).quiet :=
    State.quiet_congr fun c => stopIfQuiet_ch _ c
  rw [hq]
  simp only [tickIn, stopIfQuiet_bclk, State.visit_bclk]

@[simp] theorem tickIn_dec (order : List Chan) (lv : BitVec 5) (s : State) : (tickIn order lv s).dec = s.dec := by
  simp [tickIn]
@[simp] theorem tickIn_variant (order : List Chan) (lv : BitVec 5) (s : State) :
    (tickIn order lv s).variant = s.variant := by simp [tickIn]
@[simp] theorem tickIn_input (order : List Chan) (lv : BitVec 5) (s : State) :
    (tickIn order lv s).input = s.input := by simp [tickIn]
@[simp] theorem tickIn_resp (order : List Chan) (lv : BitVec 5) (s : State) :
    (tickIn order lv s).resp = s.resp := by simp [tickIn]

/-! ### Alignment, edge and rollover -/

theorem align_ch (s : State) (c : Chan) :
    (align s).ch c = if (s.ch c).phase = .align then (s.ch c).startByte else s.ch c := by
  simp [align]

@[simp] theorem align_bclk (s : State) : (align s).bclk = .run := rfl
@[simp] theorem align_dec (s : State) : (align s).dec = s.dec := by simp [align]
@[simp] theorem align_variant (s : State) : (align s).variant = s.variant := by simp [align]
@[simp] theorem align_input (s : State) : (align s).input = s.input := by simp [align]
@[simp] theorem align_resp (s : State) : (align s).resp = s.resp := by simp [align]

theorem Channel.edgeEnabled_iff (k : Channel) : k.edgeEnabled = true ↔ k.en = true ∧ k.phase = .wait := by
  simp [Channel.edgeEnabled]

/-- What an edge does: it starts a byte on an armed channel, or nothing (40_receive_engine R121). -/
theorem edgeOn_cases (s : State) (c : Chan) :
    ((s.ch c).en = true ∧ (s.ch c).phase = .wait ∧
      edgeOn s c = (s.modCh c fun k => { k with phase := .align }).setBclk s.bclk.afterEdge) ∨
    (¬((s.ch c).en = true ∧ (s.ch c).phase = .wait) ∧ edgeOn s c = s) := by
  rw [← Channel.edgeEnabled_iff, edgeOn]
  by_cases h : (s.ch c).edgeEnabled = true
  · exact .inl (by rw [Channel.edgeEnabled_iff] at h; simp [h, Channel.edgeEnabled])
  · exact .inr ⟨h, by simp [h]⟩

/-- A rollover on one sensor channel, field by field (41_frame_assembler R168). -/
theorem rollChannel_eq (k : Channel) :
    rollChannel k =
      { k with
        rc := if k.en then k.rc + 1#2 else k.rc,
        timeout := k.timeout || (k.en && decide (k.rc = 2#2)),
        evf := k.evf || (k.en && decide (k.rc = 2#2)),
        en := k.en && !decide (k.rc = 2#2) } := by
  obtain ⟨en, phase, bits, shift, last, buf, cur, fstart, count, evf, done, timeout, ovf, rc⟩ := k
  have hrc : rc + 1#2 = 3#2 ↔ rc = 2#2 := by revert rc; decide
  cases en
  · simp [rollChannel]
  · by_cases h : rc = 2#2
    · subst h; simp [rollChannel, Config.toLimit, Channel.terminate]
    · simp [rollChannel, Config.toLimit, hrc, h]

theorem rollIn_sensors_ch (s : State) (c : Chan) :
    (rollIn Chan.sensors s).ch c = if c.role = .sensor then rollChannel (s.ch c) else s.ch c :=
  State.visit_sensors_ch _ s c

end Sys2Proof.Machine
end

