-- ==== Sys2Proof/Laws/Exec.lean ====
section
/-! SUPPORT. What one instruction can do, said once: to each channel from that channel's own old value, to the BitClock, to the
decoder registers, and to the fields no instruction writes. -/

namespace Sys2Proof.Machine

/-- What a tick does to one channel by its phase. -/
def tickChannel (c : Chan) (l : Bool) (k : Channel) : Channel :=
  match k.phase with
  | .wait => k
  | .align => k.startByte
  | .recv => receiveTick c l k

/-- What an instruction does to channel `c` with value `k`, given the BitClock and `HLEN`: no other channel is read. -/
def chanAfter (i : Instr) (b : BitClock) (hlen : Nat) (c : Chan) (k : Channel) : Channel :=
  match i with
  | .nop => k
  | .arm x => if x = c.nibble ∧ k.phase = .wait then k.armed else k
  | .ack x => if x = c.nibble ∧ c.role = .host ∧ hlen ≤ k.count.toNat then k.consume hlen else k
  | .clrev x => if x = c.nibble then { k with evf := false } else k
  | .decode _ => k
  | .rdbuf _ _ => k
  | .rdstat _ => k
  | .rdcnt _ => k
  | .rdptr _ => k
  | .rdlast _ => k
  | .rddec _ => k
  | .rdglb => k
  | .edge x => if x = c.nibble ∧ k.en = true ∧ k.phase = .wait then { k with phase := .align } else k
  | .bclk lv =>
    match b with
    | .stop => k
    | .half => if k.phase = .align then k.startByte else k
    | .run => tickChannel c (level lv c) k
  | .roll => if c.role = .sensor then rollChannel k else k
  | .reset => k.cleared

/-- Everything one instruction can do to channel `c` with value `k`, given the BitClock and `HLEN`: one case per rule. -/
inductive ChanStep (i : Instr) (b : BitClock) (hlen : Nat) (c : Chan) (k : Channel) : Channel → Prop where
  | same : ChanStep i b hlen c k k
  | arm (hi : i = .arm c.nibble) (hp : k.phase = .wait) : ChanStep i b hlen c k k.armed
  | ack (hi : i = .ack c.nibble) (hr : c.role = .host) (hn : hlen ≤ k.count.toNat) :
    ChanStep i b hlen c k (k.consume hlen)
  | clrev (hi : i = .clrev c.nibble) : ChanStep i b hlen c k { k with evf := false }
  | edge (hi : i = .edge c.nibble) (he : k.en = true) (hp : k.phase = .wait) :
    ChanStep i b hlen c k { k with phase := .align }
  | start (lv : BitVec 5) (hi : i = .bclk lv) (hb : b ≠ .stop) (hp : k.phase = .align) :
    ChanStep i b hlen c k k.startByte
  | sample (lv : BitVec 5) (hi : i = .bclk lv) (hb : b = .run) (hp : k.phase = .recv) (hz : k.bits ≠ 0#4) :
    ChanStep i b hlen c k (sampleBit (level lv c) k)
  | finish (lv : BitVec 5) (hi : i = .bclk lv) (hb : b = .run) (hp : k.phase = .recv) (hz : k.bits = 0#4) :
    ChanStep i b hlen c k (finalize c k)
  | roll (hi : i = .roll) (hr : c.role = .sensor) : ChanStep i b hlen c k (rollChannel k)
  | reset (hi : i = .reset) : ChanStep i b hlen c k k.cleared

theorem chanAfter_step (i : Instr) (b : BitClock) (hlen : Nat) (c : Chan) (k : Channel) :
    ChanStep i b hlen c k (chanAfter i b hlen c k) := by
  cases i with
  | arm x =>
    simp only [chanAfter]
    split
    · rename_i h; exact .arm (by rw [h.1]) h.2
    · exact .same
  | ack x =>
    simp only [chanAfter]
    split
    · rename_i h; exact .ack (by rw [h.1]) h.2.1 h.2.2
    · exact .same
  | clrev x =>
    simp only [chanAfter]
    split
    · rename_i h; exact .clrev (by rw [h])
    · exact .same
  | edge x =>
    simp only [chanAfter]
    split
    · rename_i h; exact .edge (by rw [h.1]) h.2.1 h.2.2
    · exact .same
  | bclk lv =>
    cases b with
    | stop => exact .same
    | half =>
      simp only [chanAfter]
      split
      · exact .start lv rfl (by decide) ‹_›
      · exact .same
    | run =>
      simp only [chanAfter, tickChannel]
      split
      · exact .same
      · exact .start lv rfl (by decide) ‹_›
      · unfold receiveTick
        split
        · exact .finish lv rfl rfl ‹_› ‹_›
        · exact .sample lv rfl rfl ‹_› ‹_›
  | roll =>
    simp only [chanAfter]
    split
    · exact .roll rfl ‹_›
    · exact .same
  | reset => exact .reset rfl
  | _ => exact .same

theorem Chan.nibble_inj {c d : Chan} : c.nibble = d.nibble ↔ c = d := by
  cases c <;> cases d <;> decide

theorem Chan.toNat_nibble_lt (c : Chan) : c.nibble.toNat < 5 := by cases c <;> decide

theorem Chan.nibble_ne_of_ge {x : BitVec 4} (h : 5 ≤ x.toNat) (c : Chan) : x ≠ c.nibble := by
  rintro rfl
  exact absurd c.toNat_nibble_lt (by omega)

/-- DECODE changes only the decoder registers and the response. -/
theorem decodeOn_cases (s : State) (c : Chan) :
    (c.role = .host ∧ decodeOn s c = .next (s.reject .badRole)) ∨
    (c.role = .sensor ∧ (s.ch c).done = false ∧ decodeOn s c = .next (s.reject .notReady)) ∨
    (c.role = .sensor ∧ (s.ch c).done = true ∧ frameBytes c (s.ch c) = none ∧ decodeOn s c = .fault .noSuchSlot) ∨
    ∃ f, c.role = .sensor ∧ (s.ch c).done = true ∧ frameBytes c (s.ch c) = some f ∧
      decodeOn s c = .next ((s.setDec (decodeFrame c f (s.ch c).ovf)).respond .ok
        (decodeFrame c f (s.ch c).ovf).flagsWord) := by
  rcases hr : c.role with _ | _
  · rcases hd : (s.ch c).done with _ | _
    · exact .inr (.inl ⟨rfl, rfl, by simp [decodeOn, hr, hd]⟩)
    · rcases hf : frameBytes c (s.ch c) with _ | f
      · exact .inr (.inr (.inl ⟨rfl, rfl, rfl, by simp [decodeOn, hr, hd, hf]⟩))
      · exact .inr (.inr (.inr ⟨f, rfl, rfl, rfl, by simp [decodeOn, hr, hd, hf]⟩))
  · exact .inl ⟨rfl, by simp [decodeOn, hr]⟩

/-- What DECODE can do. -/
theorem execDecode_cases (x : BitVec 4) (s : State) :
    (∃ c, x = c.nibble ∧ execDecode x s = decodeOn s c) ∨
    (5 ≤ x.toNat ∧ execDecode x s = .next (s.reject .badCh)) := by
  rcases h : Chan.ofNibble x with _ | c
  · exact .inr ⟨Chan.ofNibble_eq_none.1 h, by simp [execDecode, h]⟩
  · exact .inl ⟨c, Chan.ofNibble_eq_some.1 h, by simp [execDecode, h]⟩

/-- What RDBUF can do: it answers, and never faults. -/
theorem execRdbuf_cases (x : BitVec 4) (idx : BitVec 8) (s : State) :
    (∃ c, x = c.nibble ∧ execRdbuf x idx s = .next (if idx.toNat < c.cap
      then s.respond .ok ((slotByte c (s.ch c) (frameSlot c (s.ch c) idx)).zeroExtend 16)
      else s.reject .badIdx)) ∨
    (5 ≤ x.toNat ∧ execRdbuf x idx s = .next (s.reject .badCh)) := by
  rcases h : Chan.ofNibble x with _ | c
  · exact .inr ⟨Chan.ofNibble_eq_none.1 h, by simp [execRdbuf, h]⟩
  · exact .inl ⟨c, Chan.ofNibble_eq_some.1 h, by simp only [execRdbuf, h, rdbufOn_eq]⟩

/-- What RDDEC can do. -/
theorem execRddec_cases (sel : BitVec 8) (s : State) :
    (∃ r, execRddec sel s = .next (s.respond .ok (s.dec.read r))) ∨ execRddec sel s = .next (s.reject .badIdx) := by
  rcases h : DecReg.ofSelector sel with _ | r
  · exact .inr (by simp [execRddec, h])
  · exact .inl ⟨r, by simp [execRddec, h]⟩

/-- What EDGE can do. -/
theorem execEdge_cases (x : BitVec 4) (s : State) :
    (∃ c, x = c.nibble ∧ execEdge x s = .next (edgeOn s c)) ∨
    (5 ≤ x.toNat ∧ execEdge x s = .refused .noSuchEvent) := by
  rcases h : Chan.ofNibble x with _ | c
  · exact .inr ⟨Chan.ofNibble_eq_none.1 h, by simp [execEdge, h]⟩
  · exact .inl ⟨c, Chan.ofNibble_eq_some.1 h, by simp [execEdge, h]⟩

/-- A command whose answer is a response only, on a channel that exists or not. -/
theorem onChan_respond_cases (x : BitVec 4) (s : State) (f : Chan → Word) :
    ∃ r d, onChan x s (fun c => s.respond .ok (f c)) = s.respond r d := by
  rcases onChan_cases x s (fun c => s.respond .ok (f c)) with ⟨c, -, h⟩ | ⟨-, h⟩
  · exact ⟨_, _, h⟩
  · exact ⟨_, _, h⟩

/-- The read commands and NOP answer with a response and do nothing else. -/
theorem exec_read (i : Instr) (s : State) (hc : i.isCommand = true)
    (h : ∀ c, i ≠ .arm c ∧ i ≠ .ack c ∧ i ≠ .clrev c ∧ i ≠ .decode c) :
    ∃ r d, exec i s = .next (s.respond r d) := by
  cases i with
  | nop => exact ⟨_, _, rfl⟩
  | arm c => exact absurd rfl (h c).1
  | ack c => exact absurd rfl (h c).2.1
  | clrev c => exact absurd rfl (h c).2.2.1
  | decode c => exact absurd rfl (h c).2.2.2
  | rdbuf c idx =>
    rcases execRdbuf_cases c idx s with ⟨x, -, hx⟩ | ⟨-, hx⟩
    · by_cases hi : idx.toNat < x.cap
      · rw [if_pos hi] at hx; exact ⟨_, _, hx⟩
      · rw [if_neg hi] at hx; exact ⟨_, _, hx⟩
    · exact ⟨_, _, hx⟩
  | rdstat c =>
    obtain ⟨r, d, hx⟩ := onChan_respond_cases c s fun ch => s.statWord ch
    exact ⟨r, d, congrArg Host.Outcome.next hx⟩
  | rdcnt c =>
    obtain ⟨r, d, hx⟩ := onChan_respond_cases c s fun ch => (s.ch ch).cntWord
    exact ⟨r, d, congrArg Host.Outcome.next hx⟩
  | rdptr c =>
    obtain ⟨r, d, hx⟩ := onChan_respond_cases c s fun ch => (s.ch ch).ptrWord
    exact ⟨r, d, congrArg Host.Outcome.next hx⟩
  | rdlast c =>
    obtain ⟨r, d, hx⟩ := onChan_respond_cases c s fun ch => (s.ch ch).lastWord
    exact ⟨r, d, congrArg Host.Outcome.next hx⟩
  | rddec sel =>
    rcases execRddec_cases sel s with ⟨r, hx⟩ | hx
    · exact ⟨_, _, hx⟩
    · exact ⟨_, _, hx⟩
  | rdglb => exact ⟨_, _, rfl⟩
  | edge c => cases hc
  | bclk lv => cases hc
  | roll => cases hc
  | reset => cases hc

theorem exec_read_next {i : Instr} {s t : State} (h : exec i s = .next t) (hc : i.isCommand = true)
    (hi : ∀ c, i ≠ .arm c ∧ i ≠ .ack c ∧ i ≠ .clrev c ∧ i ≠ .decode c) : ∃ r d, t = s.respond r d := by
  obtain ⟨r, d, hx⟩ := exec_read i s hc hi
  rw [hx] at h
  cases h
  exact ⟨r, d, rfl⟩

theorem armOn_ch (s : State) (c d : Chan) :
    (armOn s c).ch d = if d = c ∧ (s.ch d).phase = .wait then (s.ch d).armed else s.ch d := by
  unfold armOn
  by_cases h : (s.ch c).phase = .wait
  · by_cases hd : d = c
    · subst hd; simp [h]
    · simp [h, hd, State.modCh_ch]
  · by_cases hd : d = c
    · subst hd; simp [h]
    · simp [h, hd]

theorem ackOn_ch (s : State) (c d : Chan) :
    (ackOn s c).ch d =
      if d = c ∧ d.role = .host ∧ s.hlen ≤ (s.ch d).count.toNat then (s.ch d).consume s.hlen else s.ch d := by
  unfold ackOn
  by_cases hd : d = c
  · subst hd
    rcases hr : d.role with _ | _
    · simp
    · by_cases h : (s.ch d).count.toNat < s.hlen
      · simp [h, Nat.not_le.2 h]
      · simp [h, Nat.not_lt.1 h]
  · rcases hr : c.role with _ | _
    · simp [hd]
    · by_cases h : (s.ch c).count.toNat < s.hlen <;> simp [h, hd, State.modCh_ch]

theorem clrevOn_ch (s : State) (c d : Chan) :
    (clrevOn s c).ch d = if d = c then { s.ch d with evf := false } else s.ch d := by
  unfold clrevOn
  by_cases hd : d = c
  · subst hd; simp
  · simp [hd, State.modCh_ch]

theorem edgeOn_ch (s : State) (c d : Chan) :
    (edgeOn s c).ch d =
      if d = c ∧ (s.ch d).en = true ∧ (s.ch d).phase = .wait then { s.ch d with phase := .align } else s.ch d := by
  rcases edgeOn_cases s c with ⟨he, hp, h⟩ | ⟨hn, h⟩
  · rw [h]
    by_cases hd : d = c
    · subst hd; simp [he, hp]
    · simp [hd, State.modCh_ch]
  · rw [h]
    by_cases hd : d = c
    · subst hd; rw [if_neg]; exact fun h => hn h.2
    · simp [hd]

/-- Every instruction that gives a next state does to each channel what `chanAfter` says. -/
theorem exec_ch {i : Instr} {s t : State} (h : exec i s = .next t) (c : Chan) :
    t.ch c = chanAfter i s.bclk s.hlen c (s.ch c) := by
  cases i with
  | arm x =>
    cases h
    rcases onChan_cases x s (armOn s) with ⟨d, rfl, hx⟩ | ⟨hx5, hx⟩
    · simp [hx, armOn_ch, chanAfter, Chan.nibble_inj, eq_comm (a := c)]
    · simp [hx, chanAfter, Chan.nibble_ne_of_ge hx5]
  | ack x =>
    cases h
    rcases onChan_cases x s (ackOn s) with ⟨d, rfl, hx⟩ | ⟨hx5, hx⟩
    · simp [hx, ackOn_ch, chanAfter, Chan.nibble_inj, eq_comm (a := c)]
    · simp [hx, chanAfter, Chan.nibble_ne_of_ge hx5]
  | clrev x =>
    cases h
    rcases onChan_cases x s (clrevOn s) with ⟨d, rfl, hx⟩ | ⟨hx5, hx⟩
    · simp [hx, clrevOn_ch, chanAfter, Chan.nibble_inj, eq_comm (a := c)]
    · simp [hx, chanAfter, Chan.nibble_ne_of_ge hx5]
  | decode x =>
    rcases execDecode_cases x s with ⟨d, rfl, hx⟩ | ⟨-, hx⟩
    · rcases decodeOn_cases s d with ⟨-, hd⟩ | ⟨-, -, hd⟩ | ⟨-, -, -, hd⟩ | ⟨f, -, -, -, hd⟩ <;>
        (rw [exec, hx, hd] at h; cases h) <;> simp [chanAfter]
    · rw [exec, hx] at h; cases h; simp [chanAfter]
  | edge x =>
    rcases execEdge_cases x s with ⟨d, rfl, hx⟩ | ⟨-, hx⟩
    · rw [exec, hx] at h
      cases h
      simp [edgeOn_ch, chanAfter, Chan.nibble_inj, eq_comm (a := c)]
    · rw [exec, hx] at h; cases h
  | bclk lv =>
    rcases hb : s.bclk with _ | _ | _ <;> simp only [exec, execBclk, hb] at h <;> cases h
    · rfl
    · simp [chanAfter, align_ch]
    · exact tick_ch lv s c
  | roll => cases h; exact rollIn_sensors_ch s c
  | reset => cases h; simp [chanAfter]
  | _ =>
    obtain ⟨r, d, rfl⟩ := exec_read_next h rfl fun c => by simp
    simp [chanAfter]

/-- The one inversion lemma of a step on one channel. -/
theorem exec_chanStep {i : Instr} {s t : State} (h : exec i s = .next t) (c : Chan) :
    ChanStep i s.bclk s.hlen c (s.ch c) (t.ch c) := by
  rw [exec_ch h c]
  exact chanAfter_step i _ _ c _

/-- A command on a channel that exists or not keeps a field of the state both answers keep. -/
theorem onChan_keeps {α : Type} (g : State → α) {x : BitVec 4} {s : State} {f : Chan → State}
    (hf : ∀ c, g (f c) = g s) (hr : g (s.reject .badCh) = g s) : g (onChan x s f) = g s := by
  rcases onChan_cases x s f with ⟨c, -, h⟩ | ⟨-, h⟩
  · rw [h, hf]
  · rw [h, hr]

/-- A field no operation writes is kept by every instruction. -/
theorem exec_keeps {α : Type} (g : State → α) (hch : ∀ s c k, g (State.setCh s c k) = g s)
    (hb : ∀ s b, g (State.setBclk s b) = g s) (hd : ∀ s d, g (State.setDec s d) = g s)
    (hr : ∀ s r d, g (State.respond s r d) = g s) {i : Instr} {s t : State} (h : exec i s = .next t) :
    g t = g s := by
  have hm : ∀ s c f, g (State.modCh s c f) = g s := fun s c f => hch s c _
  have hrej : ∀ s r, g (State.reject s r) = g s := fun s r => hr s r _
  have hv : ∀ order f s, g (State.visit order f s) = g s := fun order f s => by
    induction order generalizing s with
    | nil => rfl
    | cons c order ih => rw [State.visit_cons, ih, hm]
  have hstop : ∀ s, g (stopIfQuiet s) = g s := fun s => by
    unfold stopIfQuiet
    split
    · exact hb s _
    · rfl
  cases i with
  | arm x =>
    cases h
    refine onChan_keeps g (fun c => ?_) (hrej s _)
    unfold armOn
    split
    · rw [hr, hm]
    · exact hrej s _
  | ack x =>
    cases h
    refine onChan_keeps g (fun c => ?_) (hrej s _)
    unfold ackOn
    split
    · exact hrej s _
    · split
      · exact hrej s _
      · rw [hr, hm]
  | clrev x =>
    cases h
    exact onChan_keeps g (fun c => by rw [clrevOn, hr, hm]) (hrej s _)
  | decode x =>
    rcases execDecode_cases x s with ⟨d, rfl, hx⟩ | ⟨-, hx⟩
    · rcases decodeOn_cases s d with ⟨-, hd'⟩ | ⟨-, -, hd'⟩ | ⟨-, -, -, hd'⟩ | ⟨f, -, -, -, hd'⟩ <;>
        (rw [exec, hx, hd'] at h; cases h)
      · exact hrej s _
      · exact hrej s _
      · rw [hr, hd]
    · rw [exec, hx] at h; cases h; exact hrej s _
  | edge x =>
    rcases execEdge_cases x s with ⟨d, rfl, hx⟩ | ⟨-, hx⟩
    · rw [exec, hx] at h
      cases h
      rcases edgeOn_cases s d with ⟨-, -, he⟩ | ⟨-, he⟩
      · rw [he, hb, hm]
      · rw [he]
    · rw [exec, hx] at h; cases h
  | bclk lv =>
    rcases hb' : s.bclk with _ | _ | _ <;> simp only [exec, execBclk, hb'] at h <;> cases h
    · rfl
    · rw [align, hb, hv]
    · rw [tick, tickIn, hstop, hv, hv]
  | roll => cases h; exact hv _ _ s
  | reset => cases h; rw [hd, hb, hv]
  | _ =>
    obtain ⟨r, d, rfl⟩ := exec_read_next h rfl fun c => by simp
    exact hr s r d

/-- What an instruction does to the BitClock: an accepted EDGE starts it, an alignment runs it, a tick may stop it and
RESET stops it; nothing else writes it (10_state R50). -/
theorem exec_bclk {i : Instr} {s t : State} (h : exec i s = .next t) :
    t.bclk = s.bclk ∨
    ((∃ c, i = .edge (Chan.nibble c) ∧ (s.ch c).en = true ∧ (s.ch c).phase = .wait) ∧ t.bclk = s.bclk.afterEdge) ∨
    ((∃ lv, i = .bclk lv) ∧ s.bclk = .half ∧ t.bclk = .run) ∨
    ((∃ lv, i = .bclk lv) ∧ s.bclk = .run ∧ t.bclk = if t.quiet then .stop else .run) ∨
    (i = .reset ∧ t.bclk = .stop) := by
  cases i with
  | arm x =>
    cases h
    refine .inl (onChan_keeps State.bclk (fun c => ?_) rfl)
    unfold armOn
    split
    · simp
    · rfl
  | ack x =>
    cases h
    refine .inl (onChan_keeps State.bclk (fun c => ?_) rfl)
    unfold ackOn
    split
    · rfl
    · split
      · rfl
      · simp
  | clrev x =>
    cases h
    exact .inl (onChan_keeps State.bclk (fun c => by simp [clrevOn]) rfl)
  | decode x =>
    rcases execDecode_cases x s with ⟨d, rfl, hx⟩ | ⟨-, hx⟩
    · rcases decodeOn_cases s d with ⟨-, hd⟩ | ⟨-, -, hd⟩ | ⟨-, -, -, hd⟩ | ⟨f, -, -, -, hd⟩ <;>
        (rw [exec, hx, hd] at h; cases h) <;> exact .inl rfl
    · rw [exec, hx] at h; cases h; exact .inl rfl
  | edge x =>
    rcases execEdge_cases x s with ⟨d, rfl, hx⟩ | ⟨-, hx⟩
    · rw [exec, hx] at h
      cases h
      rcases edgeOn_cases s d with ⟨he, hp, heq⟩ | ⟨-, heq⟩
      · exact .inr (.inl ⟨⟨d, rfl, he, hp⟩, by rw [heq]; rfl⟩)
      · exact .inl (by rw [heq])
    · rw [exec, hx] at h; cases h
  | bclk lv =>
    rcases hb : s.bclk with _ | _ | _ <;> simp only [exec, execBclk, hb] at h <;> cases h
    · exact .inl hb
    · exact .inr (.inr (.inl ⟨⟨lv, rfl⟩, rfl, rfl⟩))
    · refine .inr (.inr (.inr (.inl ⟨⟨lv, rfl⟩, rfl, ?_⟩)))
      rw [tick, tickIn_bclk, hb]
  | roll => cases h; exact .inl (State.visit_bclk _ _ s)
  | reset => cases h; exact .inr (.inr (.inr (.inr ⟨rfl, rfl⟩)))
  | _ =>
    obtain ⟨r, d, rfl⟩ := exec_read_next h rfl fun c => by simp
    exact .inl rfl

/-- Every instruction keeps the memories in canonical form. -/
theorem Memory.wf_exec {i : Instr} {s t : State} (h : exec i s = .next t) (hw : Memory.wf s) : Memory.wf t := by
  rw [Memory.wf_iff] at *
  intro c
  have hc := hw c
  have hs := exec_chanStep h c
  generalize t.ch c = k' at *
  cases hs with
  | finish lv hi hb hp hz => exact Buffer.wf_commit _ hc
  | roll hi hr => rw [rollChannel_eq]; exact hc
  | _ => exact hc

end Sys2Proof.Machine
end

