-- ==== Sys2Proof/Laws/Answers.lean ====
section
/-! SUPPORT. What a command answers and what an answer leaves alone, and the two values of `HLEN`. -/

namespace Sys2Proof.Machine

theorem OnlyResponse.respond (s : State) (r : Rsp) (d : Word) : OnlyResponse s (s.respond r d) :=
  ⟨s.respond_ch r d, rfl, rfl, rfl, rfl⟩

theorem OnlyResponse.reject (s : State) (r : Rsp) : OnlyResponse s (s.reject r) :=
  ⟨s.reject_ch r, rfl, rfl, rfl, rfl⟩

/-- Where only the response differs, every slot reads as before. -/
theorem OnlyResponse.sameBytes {s t : State} (h : OnlyResponse s t) : SameBytes s t := fun c i => by rw [h.1 c]

/-- A channel that keeps its buffer keeps every slot. -/
theorem bufRead_congr {c : Chan} {k k' : Channel} (h : k'.buf = k.buf) (i : Nat) : bufRead c k' i = bufRead c k i := by
  simp only [bufRead, slotByte, h]

/-- `HLEN` is 8 or 16 (00_scope R13). -/
theorem State.hlen_cases (s : State) : s.hlen = 8 ∨ s.hlen = 16 := by
  cases h : s.variant <;> simp [State.hlen, HostVariant.hlen, h]

/-- A command on a channel number of 5 or more is refused with BADCH. -/
theorem Refuses.badCh {s : State} {i : Instr} {x : BitVec 4} {f : Chan → State} (hx : 5 ≤ x.toNat)
    (h : exec i s = .next (onChan x s f)) : Refuses i s .badCh :=
  ⟨_, by rw [h, onChan_of_ge hx], rfl, OnlyResponse.reject s _⟩

/-- A command that gives a next state answers OK, or is a refusal and nothing else (60_exceptions R273). -/
theorem exec_command_cases {i : Instr} {s t : State} (hc : i.isCommand = true) (h : exec i s = .next t) :
    (∃ d, t.resp = some ⟨.ok, d⟩) ∨ ∃ r, t = s.reject r := by
  have on : ∀ {x : BitVec 4} {f : Chan → State}, t = onChan x s f →
      (∀ c, (∃ d, (f c).resp = some ⟨.ok, d⟩) ∨ ∃ r, f c = s.reject r) →
      (∃ d, t.resp = some ⟨.ok, d⟩) ∨ ∃ r, t = s.reject r := by
    intro x f ht hf
    rcases onChan_cases x s f with ⟨c, -, hx⟩ | ⟨-, hx⟩
    · rw [ht, hx]; exact hf c
    · exact .inr ⟨_, ht.trans hx⟩
  cases i with
  | nop => cases h; exact .inl ⟨_, rfl⟩
  | arm x =>
    refine on (Host.Outcome.next.inj h).symm fun c => ?_
    unfold armOn
    split
    · exact .inl ⟨_, rfl⟩
    · exact .inr ⟨_, rfl⟩
  | ack x =>
    refine on (Host.Outcome.next.inj h).symm fun c => ?_
    unfold ackOn
    split
    · exact .inr ⟨_, rfl⟩
    · split
      · exact .inr ⟨_, rfl⟩
      · exact .inl ⟨_, rfl⟩
  | clrev x => exact on (Host.Outcome.next.inj h).symm fun c => .inl ⟨_, rfl⟩
  | decode x =>
    rcases execDecode_cases x s with ⟨d, rfl, hx⟩ | ⟨-, hx⟩
    · rcases decodeOn_cases s d with ⟨-, hd⟩ | ⟨-, -, hd⟩ | ⟨-, -, -, hd⟩ | ⟨f, -, -, -, hd⟩ <;>
        (rw [exec, hx, hd] at h; cases h)
      · exact .inr ⟨_, rfl⟩
      · exact .inr ⟨_, rfl⟩
      · exact .inl ⟨_, rfl⟩
    · rw [exec, hx] at h; cases h; exact .inr ⟨_, rfl⟩
  | rdbuf x idx =>
    rcases execRdbuf_cases x idx s with ⟨c, -, hx⟩ | ⟨-, hx⟩ <;> (rw [exec, hx] at h; cases h)
    · split
      · exact .inl ⟨_, rfl⟩
      · exact .inr ⟨_, rfl⟩
    · exact .inr ⟨_, rfl⟩
  | rdstat x => exact on (Host.Outcome.next.inj h).symm fun c => .inl ⟨_, rfl⟩
  | rdcnt x => exact on (Host.Outcome.next.inj h).symm fun c => .inl ⟨_, rfl⟩
  | rdptr x => exact on (Host.Outcome.next.inj h).symm fun c => .inl ⟨_, rfl⟩
  | rdlast x => exact on (Host.Outcome.next.inj h).symm fun c => .inl ⟨_, rfl⟩
  | rddec sel =>
    rcases execRddec_cases sel s with ⟨r, hx⟩ | hx <;> (rw [exec, hx] at h; cases h)
    · exact .inl ⟨_, rfl⟩
    · exact .inr ⟨_, rfl⟩
  | rdglb => cases h; exact .inl ⟨_, rfl⟩
  | edge x => cases hc
  | bclk lv => cases hc
  | roll => cases hc
  | reset => cases hc

end Sys2Proof.Machine
end

