-- ==== Sys2Proof/Laws/Decoder.lean ====
section
/-! SUPPORT. The arithmetic of the sensor decoder: digits, decimal values, the checksum verdict. -/

namespace Sys2Proof.Machine

theorem isDigit_iff (b : Byte) : isDigit b = true ↔ 0x30 ≤ b.toNat ∧ b.toNat ≤ 0x39 := by simp [isDigit]

theorem decimal_concat (l : List Byte) (b : Byte) : decimal (l ++ [b]) = 10 * decimal l + digit b := by simp [decimal]

/-- The value of `n` digits is below `10 ^ n`. -/
theorem decimal_lt (l : List Byte) (h : l.all isDigit = true) : decimal l < 10 ^ l.length := by
  induction l using List.reverseRecOn with
  | nil => simp [decimal]
  | append_singleton l b ih =>
    simp only [List.all_append, Bool.and_eq_true, List.all_cons, List.all_nil] at h
    have hb := (isDigit_iff b).1 h.2.1
    have hl := ih h.1
    have : digit b ≤ 9 := by unfold digit; omega
    rw [decimal_concat, List.length_append, List.length_singleton, pow_succ]
    omega

/-- The checksum verdict, clause by clause (42_sensor_decoder R202). -/
theorem ckOk_iff (f : List Byte) (ovf : Bool) :
    ckOk f ovf = true ↔ ovf = false ∧ 4 ≤ f.length ∧ f[f.length - 1]? = some chLF ∧ f[f.length - 4]? = some chCR ∧
      (f[f.length - 2]?).map BitVec.toNat = some (ckSum f) := by
  simp [ckOk, and_assoc]

end Sys2Proof.Machine
end

