-- ==== Sys2Proof/Laws/Encoding.lean ====
section
/-! SUPPORT. The fields of an encoded word, as numbers: every field of CMD16 and EVT16 is read back whole. -/

namespace Sys2Proof

/-- The number of two fields side by side. -/
theorem toNat_append_add {m n : Nat} (x : BitVec m) (y : BitVec n) : (x ++ y).toNat = x.toNat * 2 ^ n + y.toNat := by
  rw [BitVec.toNat_append, ← Nat.shiftLeft_add_eq_or_of_lt y.isLt, Nat.shiftLeft_eq]

theorem opField_toNat (w : Word) : (opField w).toNat = w.toNat / 4096 := by
  have h := w.isLt
  simp only [opField, BitVec.extractLsb'_toNat, Nat.shiftRight_eq_div_pow]
  omega

theorem chField_toNat (w : Word) : (chField w).toNat = w.toNat / 256 % 16 := by
  simp only [chField, BitVec.extractLsb'_toNat, Nat.shiftRight_eq_div_pow]

theorem immField_toNat (w : Word) : (immField w).toNat = w.toNat % 256 := by
  simp only [immField, BitVec.extractLsb'_toNat, Nat.shiftRight_eq_div_pow]
  omega

theorem zeroField_toNat (w : Word) : (zeroField w).toNat = w.toNat / 32 % 8 := by
  simp only [zeroField, BitVec.extractLsb'_toNat, Nat.shiftRight_eq_div_pow]

theorem lvField_toNat (w : Word) : (lvField w).toNat = w.toNat % 32 := by
  simp only [lvField, BitVec.extractLsb'_toNat, Nat.shiftRight_eq_div_pow]
  omega

/-- The number of a CMD16 word from its fields (30_encoding R91). -/
theorem cmd_toNat (op c : BitVec 4) (imm : BitVec 8) :
    (op ++ c ++ imm : Word).toNat = op.toNat * 4096 + c.toNat * 256 + imm.toNat := by
  have h : (op ++ c ++ imm : Word).toNat = (op ++ c).toNat * 2 ^ 8 + imm.toNat := toNat_append_add _ _
  rw [h, toNat_append_add]
  omega

/-- The number of an EVT16 word from its fields (30_encoding R99). -/
theorem evt_toNat (kind c : BitVec 4) (lv : BitVec 5) :
    (kind ++ c ++ 0#3 ++ lv : Word).toNat = kind.toNat * 4096 + c.toNat * 256 + lv.toNat := by
  have h : (kind ++ c ++ 0#3 ++ lv : Word).toNat = (kind ++ c ++ 0#3).toNat * 2 ^ 5 + lv.toNat := toNat_append_add _ _
  rw [h, toNat_append_add, toNat_append_add, BitVec.toNat_ofNat]
  omega

@[simp] theorem opField_cmd (op c : BitVec 4) (imm : BitVec 8) : opField (op ++ c ++ imm) = op := by
  have := c.isLt; have := imm.isLt
  exact BitVec.eq_of_toNat_eq (by rw [opField_toNat, cmd_toNat]; omega)

@[simp] theorem chField_cmd (op c : BitVec 4) (imm : BitVec 8) : chField (op ++ c ++ imm) = c := by
  have := c.isLt; have := imm.isLt
  exact BitVec.eq_of_toNat_eq (by rw [chField_toNat, cmd_toNat]; omega)

@[simp] theorem immField_cmd (op c : BitVec 4) (imm : BitVec 8) : immField (op ++ c ++ imm) = imm := by
  have := c.isLt; have := imm.isLt
  exact BitVec.eq_of_toNat_eq (by rw [immField_toNat, cmd_toNat]; omega)

@[simp] theorem opField_evt (kind c : BitVec 4) (lv : BitVec 5) : opField (kind ++ c ++ 0#3 ++ lv) = kind := by
  have := c.isLt; have := lv.isLt
  exact BitVec.eq_of_toNat_eq (by rw [opField_toNat, evt_toNat]; omega)

@[simp] theorem chField_evt (kind c : BitVec 4) (lv : BitVec 5) : chField (kind ++ c ++ 0#3 ++ lv) = c := by
  have := c.isLt; have := lv.isLt
  exact BitVec.eq_of_toNat_eq (by rw [chField_toNat, evt_toNat]; omega)

@[simp] theorem zeroField_evt (kind c : BitVec 4) (lv : BitVec 5) : zeroField (kind ++ c ++ 0#3 ++ lv) = 0#3 := by
  have := c.isLt; have := lv.isLt
  exact BitVec.eq_of_toNat_eq (by rw [zeroField_toNat, evt_toNat, BitVec.toNat_ofNat]; omega)

@[simp] theorem lvField_evt (kind c : BitVec 4) (lv : BitVec 5) : lvField (kind ++ c ++ 0#3 ++ lv) = lv := by
  have := c.isLt; have := lv.isLt
  exact BitVec.eq_of_toNat_eq (by rw [lvField_toNat, evt_toNat]; omega)

/-- A word is its CMD16 fields (30_encoding R91). -/
theorem cmd_fields (w : Word) : opField w ++ chField w ++ immField w = w := by
  refine BitVec.eq_of_toNat_eq ?_
  rw [cmd_toNat, opField_toNat, chField_toNat, immField_toNat]
  omega

/-- A word whose bits 7:5 are zero is its EVT16 fields (30_encoding R99). -/
theorem evt_fields (w : Word) (h : zeroField w = 0#3) : opField w ++ chField w ++ 0#3 ++ lvField w = w := by
  refine BitVec.eq_of_toNat_eq ?_
  have hz : w.toNat / 32 % 8 = 0 := by rw [← zeroField_toNat, h]; rfl
  rw [evt_toNat, opField_toNat, chField_toNat, lvField_toNat]
  omega

end Sys2Proof
end

