-- ==== Sys2Proof/Laws/PerInstr.lean ====
section
/-! SUPPORT. Per instruction, as syntax: the port its word goes to and the operation digit of that word. -/

namespace Sys2Proof.Laws

/-- The operation digit of a row, bits 15:12 of its word: `OP` of 30_encoding R92 for a command, `KIND` of R100 for an
event. -/
def WordFields.digit : Instr → Nat
  | .nop => 0
  | .arm _ => 1
  | .ack _ => 2
  | .clrev _ => 3
  | .decode _ => 4
  | .rdbuf _ _ => 5
  | .rdstat _ => 6
  | .rdcnt _ => 7
  | .rdptr _ => 8
  | .rdlast _ => 9
  | .rddec _ => 10
  | .rdglb => 11
  | .edge _ => 1
  | .bclk _ => 2
  | .roll => 3
  | .reset => 4

/-- The word of the instruction goes to the port of its format and carries its operation digit (30_encoding R90, R92,
R100); an event word has bits 7:5 zero (R99). -/
def WordFields.Statement (i : Instr) : Prop :=
  match encode i with
  | .cmd w => i.isCommand = true ∧ w.toNat / 4096 = WordFields.digit i
  | .evt w => i.isCommand = false ∧ w.toNat / 4096 = WordFields.digit i ∧ w.toNat / 32 % 8 = 0

/-- The operation digit of a CMD16 word. -/
theorem WordFields.cmd_digit (op c : BitVec 4) (imm : BitVec 8) : (op ++ c ++ imm : Word).toNat / 4096 = op.toNat := by
  have := c.isLt
  have := imm.isLt
  rw [cmd_toNat]
  omega

/-- The operation digit and the zero field of an EVT16 word. -/
theorem WordFields.evt_digit (kind c : BitVec 4) (lv : BitVec 5) :
    (kind ++ c ++ 0#3 ++ lv : Word).toNat / 4096 = kind.toNat ∧ (kind ++ c ++ 0#3 ++ lv : Word).toNat / 32 % 8 = 0 := by
  have := c.isLt
  have := lv.isLt
  rw [evt_toNat]
  omega

theorem WordFields.nop : WordFields.Statement .nop := ⟨rfl, WordFields.cmd_digit 0x0 0 0⟩
theorem WordFields.arm (c : BitVec 4) : WordFields.Statement (.arm c) := ⟨rfl, WordFields.cmd_digit 0x1 c 0⟩
theorem WordFields.ack (c : BitVec 4) : WordFields.Statement (.ack c) := ⟨rfl, WordFields.cmd_digit 0x2 c 0⟩
theorem WordFields.clrev (c : BitVec 4) : WordFields.Statement (.clrev c) := ⟨rfl, WordFields.cmd_digit 0x3 c 0⟩
theorem WordFields.decode (c : BitVec 4) : WordFields.Statement (.decode c) := ⟨rfl, WordFields.cmd_digit 0x4 c 0⟩
theorem WordFields.rdbuf (c : BitVec 4) (idx : BitVec 8) : WordFields.Statement (.rdbuf c idx) :=
  ⟨rfl, WordFields.cmd_digit 0x5 c idx⟩
theorem WordFields.rdstat (c : BitVec 4) : WordFields.Statement (.rdstat c) := ⟨rfl, WordFields.cmd_digit 0x6 c 0⟩
theorem WordFields.rdcnt (c : BitVec 4) : WordFields.Statement (.rdcnt c) := ⟨rfl, WordFields.cmd_digit 0x7 c 0⟩
theorem WordFields.rdptr (c : BitVec 4) : WordFields.Statement (.rdptr c) := ⟨rfl, WordFields.cmd_digit 0x8 c 0⟩
theorem WordFields.rdlast (c : BitVec 4) : WordFields.Statement (.rdlast c) := ⟨rfl, WordFields.cmd_digit 0x9 c 0⟩
theorem WordFields.rddec (sel : BitVec 8) : WordFields.Statement (.rddec sel) := ⟨rfl, WordFields.cmd_digit 0xA 0 sel⟩
theorem WordFields.rdglb : WordFields.Statement .rdglb := ⟨rfl, WordFields.cmd_digit 0xB 0 0⟩
theorem WordFields.edge (c : BitVec 4) : WordFields.Statement (.edge c) := ⟨rfl, WordFields.evt_digit 0x1 c 0⟩
theorem WordFields.bclk (lv : BitVec 5) : WordFields.Statement (.bclk lv) := ⟨rfl, WordFields.evt_digit 0x2 0 lv⟩
theorem WordFields.roll : WordFields.Statement .roll := ⟨rfl, WordFields.evt_digit 0x3 0 0⟩
theorem WordFields.reset : WordFields.Statement .reset := ⟨rfl, WordFields.evt_digit 0x4 0 0⟩

end Sys2Proof.Laws
end

