-- ==== Sys2Proof/Laws/Words.lean ====
section
/-! SUPPORT. The status and result words as numbers, and their fields read back (10_state R56 to R61). -/

namespace Sys2Proof.Machine

open Sys2Proof

theorem bit_toNat (b : Bool) : (bit b).toNat = b.toNat := by cases b <;> rfl

/-- A bit of a word as a digit of its number. -/
theorem getLsbD_eq_digit {n : Nat} (w : BitVec n) (i : Nat) : w.getLsbD i = decide (w.toNat / 2 ^ i % 2 = 1) := by
  rw [BitVec.getLsbD, Nat.testBit_eq_decide_div_mod_eq]

/-- A field of a word as digits of its number. -/
theorem extract_toNat {n : Nat} (w : BitVec n) (lo len : Nat) :
    (w.extractLsb' lo len).toNat = w.toNat / 2 ^ lo % 2 ^ len := by
  rw [BitVec.extractLsb'_toNat, Nat.shiftRight_eq_div_pow]

theorem State.statWord_toNat (s : State) (c : Chan) :
    (s.statWord c).toNat =
      (s.ch c).bits.toNat * 4096 + (s.ch c).rc.toNat * 256 + c.role.bit.toNat * 128 + (s.ch c).ovf.toNat * 64
        + (s.ch c).timeout.toNat * 32 + (s.doneStatus c).toNat * 16 + (s.ch c).evf.toNat * 8
        + (s.ch c).phase.code.toNat * 2 + (s.ch c).en.toNat := by
  unfold State.statWord
  simp only [toNat_append_add, bit_toNat, BitVec.toNat_ofNat]
  omega

theorem Channel.cntWord_toNat (k : Channel) : k.cntWord.toNat = k.count.toNat := by
  unfold Channel.cntWord
  simp only [toNat_append_add, BitVec.toNat_ofNat]
  omega

theorem Channel.ptrWord_toNat (k : Channel) : k.ptrWord.toNat = k.fstart.toNat * 256 + k.cur.toNat := by
  unfold Channel.ptrWord
  simp only [toNat_append_add, BitVec.toNat_ofNat]
  omega

theorem Channel.lastWord_toNat (k : Channel) : k.lastWord.toNat = k.shift.toNat * 256 + k.last.toNat := by
  unfold Channel.lastWord
  simp only [toNat_append_add]
  omega

theorem Dec.flagsWord_toNat (d : Dec) :
    d.flagsWord.toNat = d.dch.toNat * 16 + d.tneg.toNat * 8 + d.ckok.toNat * 4 + d.fmtok.toNat * 2 + d.dvalid.toNat := by
  unfold Dec.flagsWord
  simp only [toNat_append_add, bit_toNat, BitVec.toNat_ofNat]
  omega

theorem State.glbWord_toNat (s : State) :
    s.glbWord.toNat =
      s.ch4.evf.toNat * 4096 + s.ch3.evf.toNat * 2048 + s.ch2.evf.toNat * 1024 + s.ch1.evf.toNat * 512
        + s.ch0.evf.toNat * 256 + s.wake.toNat * 8 + s.quiet.toNat * 4 + s.bclk.code.toNat := by
  unfold State.glbWord
  simp only [toNat_append_add, bit_toNat, BitVec.toNat_ofNat]
  omega

/-- `wake` is 1 exactly when some channel has an event pending (60_exceptions R283). -/
theorem State.wake_iff (s : State) : s.wake = true ↔ ∃ c, (s.ch c).evf = true := by
  simp only [State.wake, Bool.or_eq_true]
  constructor
  · rintro ((((h | h) | h) | h) | h)
    exacts [⟨.c0, h⟩, ⟨.c1, h⟩, ⟨.c2, h⟩, ⟨.c3, h⟩, ⟨.c4, h⟩]
  · rintro ⟨c, h⟩
    cases c <;> simp only [State.ch] at h <;> simp [h]

end Sys2Proof.Machine
end

