-- ==== Sys2Proof/Machine/Trace.lean ====
section
/-! DEFINITION. The text of a trace: how a line of 30_encoding R106 to R110 is read, and the port words it stands for. -/

namespace Sys2Proof.Machine

/-- A text is a list of characters. -/
abbrev Text := List Char

/-- The text without the spaces at its front. DESIGN CHOICE, safe (assumption log 14): R106 to R110 say nothing of spaces;
no other character counts as one. -/
def skipSpaces : Text → Text
  | [] => []
  | c :: t => if c = ' ' then skipSpaces t else c :: t

/-- The text without the spaces at either end. -/
def trim (t : Text) : Text := (skipSpaces (skipSpaces t).reverse).reverse

/-- The text before the first `sep`, and the text after it where there is one. -/
def cut (sep : Char) : Text → Text × Option Text
  | [] => ([], none)
  | c :: t => if c = sep then ([], some t) else ((c :: (cut sep t).1), (cut sep t).2)

/-- The operands of a text, separated by commas: `a, b` is two, the empty text none (R106). DESIGN CHOICE, safe
(assumption log 14): an empty operand after the last comma is dropped, so `ARM 0,` reads as `ARM 0`. -/
def operands : Nat → Text → List Text
  | 0, _ => []
  | fuel + 1, t =>
    match cut ',' t with
    | (a, none) => if trim a = [] then [] else [trim a]
    | (a, some r) => trim a :: operands fuel r

/-- The value of a digit, 0 to 15. -/
def digitOf (c : Char) : Option Nat :=
  if '0' ≤ c ∧ c ≤ '9' then some (c.toNat - 48)
  else if 'a' ≤ c ∧ c ≤ 'f' then some (c.toNat - 87)
  else if 'A' ≤ c ∧ c ≤ 'F' then some (c.toNat - 55)
  else none

/-- The value of digits in a base, read after the value so far; none where a character is no digit of it. -/
def digitsIn (base : Nat) : Nat → Text → Option Nat
  | v, [] => some v
  | v, c :: t =>
    match digitOf c with
    | some d => if d < base then digitsIn base (base * v + d) t else none
    | none => none

/-- A number, decimal or hexadecimal with `0x` (R106, for `idx` and `sel`). DESIGN CHOICE, safe (assumption log 14): the
bytes of RXBYTE, the count of ROLLN and channel numbers are read so too, and leading zeros are free. -/
def readNat (t : Text) : Option Nat :=
  match t with
  | [] => none
  | '0' :: 'x' :: c :: r => digitsIn 16 0 (c :: r)
  | c :: r => digitsIn 10 0 (c :: r)

/-- A channel operand (R106). DESIGN CHOICE, safe (assumption log 14): R106 gives `0x` for `idx` and `sel` only, and a channel
number is read in hexadecimal as well. -/
def readChan (t : Text) : Option AsmChan :=
  if t = ['H', 'O', 'S', 'T'] then some .host else (readNat t).map .num

/-- A selector operand (R106). -/
def readSel (t : Text) : Option AsmSel :=
  if t = ['S', 'O', 'I', 'L'] then some .soil
  else if t = ['T', 'E', 'M', 'P'] then some .temp
  else if t = ['F', 'L', 'A', 'G', 'S'] then some .flags
  else (readNat t).map .num

/-- A level vector: a 5-bit binary literal, line 4 first (R107). -/
def readLevels (t : Text) : Option (BitVec 5) :=
  match t with
  | ['0', 'b', l4, l3, l2, l1, l0] => (digitsIn 2 0 [l4, l3, l2, l1, l0]).map (BitVec.ofNat 5)
  | _ => none

/-- A line of one channel operand. -/
def chanLine (f : AsmChan → AsmLine) (ops : List Text) : Option AsmLine :=
  match ops with
  | [c] => (readChan c).map f
  | _ => none

/-- A line of no operand. -/
def bareLine (a : AsmLine) (ops : List Text) : Option AsmLine :=
  match ops with
  | [] => some a
  | _ => none

/-- The line of a mnemonic and its operands (R106, R107). -/
def readOps (m : Text) (ops : List Text) : Option AsmLine :=
  if m = ['N', 'O', 'P'] then bareLine .nop ops
  else if m = ['A', 'R', 'M'] then chanLine .arm ops
  else if m = ['A', 'C', 'K'] then chanLine .ack ops
  else if m = ['C', 'L', 'R', 'E', 'V'] then chanLine .clrev ops
  else if m = ['D', 'E', 'C', 'O', 'D', 'E'] then chanLine .decode ops
  else if m = ['R', 'D', 'B', 'U', 'F'] then
    match ops with
    | [c, i] => (readChan c).bind fun ch => (readNat i).map fun idx => .rdbuf ch idx
    | _ => none
  else if m = ['R', 'D', 'S', 'T', 'A', 'T'] then chanLine .rdstat ops
  else if m = ['R', 'D', 'C', 'N', 'T'] then chanLine .rdcnt ops
  else if m = ['R', 'D', 'P', 'T', 'R'] then chanLine .rdptr ops
  else if m = ['R', 'D', 'L', 'A', 'S', 'T'] then chanLine .rdlast ops
  else if m = ['R', 'D', 'D', 'E', 'C'] then
    match ops with
    | [sel] => (readSel sel).map .rddec
    | _ => none
  else if m = ['R', 'D', 'G', 'L', 'B'] then bareLine .rdglb ops
  else if m = ['E', 'D', 'G', 'E'] then chanLine .edge ops
  else if m = ['B', 'C', 'L', 'K'] then
    match ops with
    | [lv] => (readLevels lv).map .bclk
    | _ => none
  else if m = ['R', 'O', 'L', 'L'] then bareLine .roll ops
  else if m = ['R', 'E', 'S', 'E', 'T'] then bareLine .reset ops
  else none

/-- The bytes of a string up to its closing quote, which ends the text; `\r`, `\n` and `\xHH` are bytes by number
(R109). DESIGN CHOICE, safe (assumption log 14): `\x` without two hexadecimal digits directly after it is refused, before
the closing quote too; a backslash before any other character than `r`, `n` and `x` is the byte 0x5C; any other character
of code up to 255 is the byte of its code, and one above is refused. -/
def readString : Text → Option (List Byte)
  | [] => none
  | '"' :: t => if trim t = [] then some [] else none
  | '\\' :: 'r' :: t => (readString t).map (0x0D#8 :: ·)
  | '\\' :: 'n' :: t => (readString t).map (0x0A#8 :: ·)
  | '\\' :: 'x' :: h :: l :: t =>
    (digitsIn 16 0 [h, l]).bind fun b => (readString t).map (BitVec.ofNat 8 b :: ·)
  | '\\' :: 'x' :: _ => none
  | c :: t => if c.toNat < 256 then (readString t).map (BitVec.ofNat 8 c.toNat :: ·) else none

/-- The words of a line without its port prefix: a pseudo-instruction's expansion (R108 to R110), or the word of one
command or event. None where the line is refused. -/
def lineWords (t : Text) : Option (List PortWord) :=
  let (m, rest) := cut ' ' (trim t)
  let ops := rest.getD []
  if m = ['R', 'X', 'B', 'Y', 'T', 'E'] then
    match operands ops.length ops with
    | [c, b] =>
      (readChan c).bind fun ch => ch.chan.bind fun x => (readNat b).bind fun v =>
        if v < 256 then some (rxByte x (BitVec.ofNat 8 v)) else none
    | _ => none
  else if m = ['R', 'X', 'F', 'R', 'A', 'M', 'E'] then
    match cut ',' ops with
    | (c, some s) =>
      match trim s with
      | '"' :: r => (readChan (trim c)).bind fun ch => ch.chan.bind fun x => (readString r).map (rxFrame x)
      | _ => none
    | (_, none) => none
  else if m = ['R', 'O', 'L', 'L', 'N'] then (readNat (trim ops)).map rollN
  else (readOps m (operands ops.length ops)).bind fun a => (assemble a).map fun w => [w]

/-- Whether a word goes to the command port. -/
def PortWord.isCmd : PortWord → Bool
  | .cmd _ => true
  | .evt _ => false

/-- The words of a line of a trace: `C:` before a command, `E:` before an event (R107). DESIGN CHOICE, safe (assumption log
14): a pseudo-instruction without events (`ROLLN 0`, RXFRAME of the empty string) is accepted under either prefix. -/
def traceLine (t : Text) : Option (List PortWord) :=
  match trim t with
  | 'C' :: ':' :: r => (lineWords r).bind fun ws => if ws.all PortWord.isCmd then some ws else none
  | 'E' :: ':' :: r => (lineWords r).bind fun ws => if ws.any PortWord.isCmd then none else some ws
  | _ => none

/-- The words of a trace, its lines in order; none where a line is refused. -/
def traceWords : List Text → Option (List PortWord)
  | [] => some []
  | t :: ts => (traceLine t).bind fun ws => (traceWords ts).map (ws ++ ·)

end Sys2Proof.Machine
end

