-- ==== Sys2Proof/Tests/Slice0.lean ====
section
/-! SUPPORT. The model's own tests: well-formedness, decoding of words written out bit by bit, one step of each instruction
with results from spec/95_test_vectors.md, and a witness of the hypotheses of each statement. -/

namespace Sys2Proof.Tests

open Sys2Proof Sys2Proof.Machine

/-! ### Small states -/

/-- The next state of an outcome. -/
def nextOf : Host.Outcome State Fault Refusal → Option State
  | .next t => some t
  | .fault _ => none
  | .refused _ => none

/-- A field of the state an instruction leads to. -/
def after {α : Type} (i : Instr) (s : State) (f : State → α) : Option α := (nextOf (exec i s)).map f

/-- The response code and the result word, as numbers. -/
def answer (i : Instr) (s : State) : Option (Rsp × Nat) :=
  (after i s fun t => t.resp.map fun r => (r.rsp, r.rdata.toNat)).join

/-- The short build after reset. -/
def s0 : State := { State.reset with variant := .short }

/-- Channel 0 armed, the word of `EDGE 0` waiting. -/
def sArm : State := { s0 with ch0 := { Channel.reset with en := true }, input := [.evt 0x1000#16] }

/-- Channel 0 in `ALIGN`. -/
def sAlign : State := { s0 with ch0 := { Channel.reset with en := true, phase := .align }, bclk := .half }

/-- Channel 0 in `RECV` before data bit 0, channel 1 just aligned behind it. -/
def sRecv : State :=
  { s0 with
    ch0 := { Channel.reset with en := true, phase := .recv, bits := 8#4, shift := 0x80#8 }
    ch1 := { Channel.reset with en := true, phase := .align }
    bclk := .run }

/-- Channel 0 before the stop bit of 0x41. -/
def sStop : State :=
  { s0 with ch0 := { Channel.reset with en := true, phase := .recv, shift := 0x41#8 }, bclk := .run }

/-- The end of program P1 of 95: 0x41 received on channel 0. -/
def sP1 : State :=
  { s0 with
    ch0 := { Channel.reset with
      en := true, bits := 15#4, shift := 0x41#8, last := 0x41#8, buf := [(0, 0x41#8)], cur := 1#5, count := 1#8,
      evf := true } }

/-- A sensor channel that holds a complete frame. -/
def frameOf (f : List Byte) : Channel :=
  { Channel.reset with
    bits := 15#4, shift := 0x0A#8, last := 0x0A#8, buf := (List.range f.length).zip f, evf := true, done := true
    cur := BitVec.ofNat 5 f.length, count := BitVec.ofNat 8 f.length }

/-- The frame "7 0 5", CR, tag 'A', checksum 'J', LF of 95 section 5.1. -/
def frame705 : List Byte := [0x37#8, 0x20#8, 0x30#8, 0x20#8, 0x35#8, 0x0D#8, 0x41#8, 0x4A#8, 0x0A#8]

/-- Channel 3 holds that frame. -/
def sDone : State := { s0 with ch3 := frameOf frame705 }

/-- Frame 1 of 95 section 4.3 on the host channel. -/
def sHost : State :=
  { s0 with
    ch4 := { Channel.reset with
      en := true, bits := 15#4, shift := 0x31#8, last := 0x31#8, evf := true, cur := 8#5, count := 8#8
      buf := [(0, 0x01#8), (1, 0x05#8), (2, 0x08#8), (3, 0x01#8), (4, 0x57#8), (5, 0x58#8), (6, 0x59#8), (7, 0x31#8)] } }

/-- The pointers of the 256-byte case of 95 section 4.3. -/
def sFull : State := { s0 with ch4 := { Channel.reset with en := true, bits := 15#4, count := 255#8, ovf := true } }

/-! ### Well-formedness -/

theorem test_edge_line_4_is_wf : (Instr.edge 4#4).wf = true := by decide
theorem test_edge_line_5_is_ill_formed : (Instr.edge 5#4).wf = false := by decide
theorem test_command_channel_15_is_wf : (Instr.arm 15#4).wf = true := by decide

/-! ### Decoding, from the words of 95 sections 2.1 and 2.2 written out bit by bit by 30_encoding R91 and R99 -/

theorem test_decode_nop : decode (.cmd 0b0000000000000000#16) = .ok .nop := by decide
theorem test_decode_arm : decode (.cmd 0b0001001100000000#16) = .ok (.arm 3#4) := by decide
theorem test_decode_ack : decode (.cmd 0b0010010000000000#16) = .ok (.ack 4#4) := by decide
theorem test_decode_clrev : decode (.cmd 0b0011000100000000#16) = .ok (.clrev 1#4) := by decide
theorem test_decode_decode : decode (.cmd 0b0100001000000000#16) = .ok (.decode 2#4) := by decide
theorem test_decode_rdbuf : decode (.cmd 0b0101010000011111#16) = .ok (.rdbuf 4#4 0x1F#8) := by decide
theorem test_decode_rdstat : decode (.cmd 0b0110010000000000#16) = .ok (.rdstat 4#4) := by decide
theorem test_decode_rdcnt : decode (.cmd 0b0111100100000000#16) = .ok (.rdcnt 9#4) := by decide
theorem test_decode_rdptr : decode (.cmd 0b1000010000000000#16) = .ok (.rdptr 4#4) := by decide
theorem test_decode_rdlast : decode (.cmd 0b1001001000000000#16) = .ok (.rdlast 2#4) := by decide
theorem test_decode_rddec : decode (.cmd 0b1010000000000001#16) = .ok (.rddec 1#8) := by decide
theorem test_decode_rdglb : decode (.cmd 0b1011000000000000#16) = .ok .rdglb := by decide
theorem test_decode_edge : decode (.evt 0b0001001000000000#16) = .ok (.edge 2#4) := by decide
theorem test_decode_bclk : decode (.evt 0b0010000000011010#16) = .ok (.bclk 0b11010#5) := by decide
theorem test_decode_roll : decode (.evt 0b0011000000000000#16) = .ok .roll := by decide
theorem test_decode_reset : decode (.evt 0b0100000000000000#16) = .ok .reset := by decide

/-- The command words of 95 section 7 that are malformed. -/
theorem test_malformed_commands :
    decode (.cmd 0xC000#16) = .error .reservedOp ∧ decode (.cmd 0xF000#16) = .error .reservedOp ∧
    decode (.cmd 0x1901#16) = .error .mustBeZero ∧ decode (.cmd 0x0001#16) = .error .mustBeZero ∧
    decode (.cmd 0xB001#16) = .error .mustBeZero ∧ decode (.cmd 0xA100#16) = .error .mustBeZero := by decide

/-- The words of 95 section 2.2 that name no event. -/
theorem test_words_that_name_no_event :
    decode (.evt 0x0000#16) = .error .noSuchKind ∧ decode (.evt 0x5000#16) = .error .noSuchKind ∧
    decode (.evt 0x1500#16) = .error .noSuchLine ∧ decode (.evt 0x1001#16) = .error .strayBits ∧
    decode (.evt 0x2020#16) = .error .strayBits ∧ decode (.evt 0x3001#16) = .error .strayBits := by decide

/-- The expansion of `RXBYTE 2, 0x0A` of 95 section 2.3. -/
theorem test_rxbyte_expansion :
    rxByte .c2 0x0A#8 = [.evt 0x1200#16, .evt 0x201F#16, .evt 0x201B#16, .evt 0x201F#16, .evt 0x201B#16, .evt 0x201F#16,
      .evt 0x201B#16, .evt 0x201B#16, .evt 0x201B#16, .evt 0x201B#16, .evt 0x201F#16] := by decide

/-- Lines of a trace, as 95 sections 2.1, 2.2 and 4 write them, and choices of assumption log 14. -/
theorem test_trace_lines :
    traceLine "C: RDBUF 0, 13".toList = some [.cmd 0x500D#16] ∧ traceLine "C: ARM HOST".toList = some [.cmd 0x1400#16] ∧
    traceLine "C: RDDEC FLAGS".toList = some [.cmd 0xA002#16] ∧ traceLine "E: BCLK 0b11010".toList = some [.evt 0x201A#16] ∧
    traceLine "E: ARM 0".toList = none ∧ traceLine "C: RDBUF 0, 0x10".toList = none ∧
    traceLine "E: ROLLN 2".toList = some [.evt 0x3000#16, .evt 0x3000#16] ∧
    traceLine "E: RXFRAME 0, \"7\\r\\x41\"".toList = some (rxFrame .c0 [0x37#8, 0x0D#8, 0x41#8]) ∧
    traceLine "E: RXFRAME 0, \"\\x\"".toList = none ∧ traceLine "E: RXFRAME 0, \"\\x4\"".toList = none ∧
    traceLine "E: RXFRAME 0, \"\\q\"".toList = some (rxFrame .c0 [0x5C#8, 0x71#8]) ∧
    traceLine "C: ARM 0,".toList = some [.cmd 0x1000#16] ∧ traceLine "C: ROLLN 0".toList = some [] ∧
    traceLine "E: RXBYTE 2, 0x0A".toList = some (rxByte .c2 0x0A#8) := by decide

/-- A table word that only an event has reads as the event, and bit 16 names the event port. -/
theorem test_table_words :
    decodeTableWord 16 0x201B = some (.bclk 0b11011#5) ∧ decodeTableWord 16 0x1000 = some (.arm 0#4) ∧
    decodeTableWord 17 0x11000 = some (.edge 0#4) ∧ decodeTableWord 16 0xC000 = none := by decide

/-- The response codes of 30_encoding R98. -/
theorem test_response_codes :
    [Rsp.ok, .badOp, .badCh, .busy, .badRole, .badIdx, .notReady].map (fun r => r.code.toNat) = [0, 1, 2, 3, 4, 5, 6] := by
  decide

/-! ### Commands -/

theorem test_nop : answer .nop s0 = some (.ok, 0x0000) := by decide
theorem test_arm : after (.arm 0#4) s0 (fun t => (t.ch0.en, t.ch1.en)) = some (true, false) := by decide
theorem test_arm_busy : answer (.arm 0#4) sAlign = some (.busy, 0x0000) := by decide
theorem test_ack : after (.ack 4#4) sHost (fun t => (t.ch4.fstart, t.ch4.count, t.ch4.cur)) = some (8#5, 0#8, 8#5) := by
  decide
/-- 95 section 4.3: after 256 bytes ACK leaves CNT 0x00F7 and PTR 0x0800. -/
theorem test_ack_saturated :
    after (.ack 4#4) sFull (fun t => (t.ch4.cntWord, t.ch4.ptrWord)) = some (0x00F7#16, 0x0800#16) := by decide
/-- 95 section 4.3, the long variant: after 16 bytes ACK leaves PTR 0x1010. -/
theorem test_ack_long :
    after (.ack 4#4) { s0 with variant := .long, ch4 := { Channel.reset with cur := 16#5, count := 16#8 } }
      (fun t => (t.ch4.cntWord, t.ch4.ptrWord)) = some (0x0000#16, 0x1010#16) := by decide
/-- 95 section 4.6, first row. -/
theorem test_clrev :
    after (.clrev 0#4) sP1 (fun t => (t.statWord .c0, t.glbWord)) = some (0xF001#16, 0x0004#16) := by decide
theorem test_clrev_badch : answer (.clrev 9#4) s0 = some (.badCh, 0x0000) := by decide
/-- 95 section 5.1: `7 0 5`, here on channel 3, so DFLAGS has DCH = 3. -/
theorem test_decode_values :
    answer (.decode 3#4) sDone = some (.ok, 0x003F) ∧
    after (.decode 3#4) sDone (fun t => (t.dec.soil, t.dec.temp)) = some (0x000E#16, 0x018B#16) := by decide
/-- 95 section 5.1, first row: `1234 0 456`, tag 'x', checksum '>': SOIL 0x09A4 (2468), TEMP 0x0038 (56). -/
theorem test_decode_digit_order :
    after (.decode 0#4)
      { s0 with ch0 := frameOf [0x31#8, 0x32#8, 0x33#8, 0x34#8, 0x20#8, 0x30#8, 0x20#8, 0x34#8, 0x35#8, 0x36#8, 0x0D#8,
        0x78#8, 0x3E#8, 0x0A#8] }
      (fun t => (t.dec.soil, t.dec.temp, t.dec.flagsWord)) = some (0x09A4#16, 0x0038#16, 0x0007#16) := by decide
/-- 95 section 5.2, fifth row: `1a 0 456`, tag 'x', checksum 'F': CKOK without FMTOK, DFLAGS 0x0005; and with `ovf` set 0x0001. -/
theorem test_decode_verdicts_apart :
    let f := [0x31#8, 0x61#8, 0x20#8, 0x30#8, 0x20#8, 0x34#8, 0x35#8, 0x36#8, 0x0D#8, 0x78#8, 0x46#8, 0x0A#8]
    answer (.decode 0#4) { s0 with ch0 := frameOf f } = some (.ok, 0x0005) ∧
    answer (.decode 0#4) { s0 with ch0 := { frameOf f with ovf := true } } = some (.ok, 0x0001) := by decide
theorem test_decode_badrole : answer (.decode 4#4) s0 = some (.badRole, 0x0000) := by decide
theorem test_rdbuf : answer (.rdbuf 0#4 0#8) sP1 = some (.ok, 0x0041) := by decide
theorem test_rdbuf_badidx :
    answer (.rdbuf 0#4 16#8) sP1 = some (.badIdx, 0x0000) ∧ answer (.rdbuf 4#4 32#8) s0 = some (.badIdx, 0x0000) := by
  decide
theorem test_rdstat : answer (.rdstat 0#4) sP1 = some (.ok, 0xF009) := by decide
theorem test_rdstat_host : answer (.rdstat 4#4) sHost = some (.ok, 0xF099) := by decide
theorem test_rdcnt : answer (.rdcnt 3#4) sDone = some (.ok, 0x0009) := by decide
theorem test_rdptr : answer (.rdptr 4#4) sHost = some (.ok, 0x0008) := by decide
theorem test_rdlast : answer (.rdlast 0#4) sP1 = some (.ok, 0x4141) := by decide
theorem test_rddec : answer (.rddec 0#8) s0 = some (.ok, 0x0000) := by decide
theorem test_rddec_badidx : answer (.rddec 3#8) s0 = some (.badIdx, 0x0000) := by decide
theorem test_rdglb : answer .rdglb sP1 = some (.ok, 0x010C) := by decide
theorem test_rdglb_running : answer .rdglb sStop = some (.ok, 0x0002) := by decide

/-! ### Events -/

/-- 95 section 3.2: STAT 0x0003 and GLB 0x0001 after `EDGE 0`. -/
theorem test_edge :
    after (.edge 0#4) sArm (fun t => (t.statWord .c0, t.glbWord)) = some (0x0003#16, 0x0001#16) := by decide
theorem test_edge_idle : after (.edge 0#4) s0 (fun t => (t.ch0, t.bclk)) = some (Channel.reset, .stop) := by decide
/-- 95 section 3.2: STAT 0x8005 and GLB 0x0002 after the alignment. -/
theorem test_bclk_align :
    after (.bclk 0b11111#5) sAlign (fun t => (t.statWord .c0, t.glbWord)) = some (0x8005#16, 0x0002#16) := by decide
/-- 95 section 3.2: STAT 0xF009 and GLB 0x010C after the finalize. -/
theorem test_bclk_finalize :
    after (.bclk 0b11111#5) sStop (fun t => (t.statWord .c0, t.glbWord)) = some (0xF009#16, 0x010C#16) := by decide
/-- 95 section 3.1: a high level on top of 0x80 gives 0xC0; section 3.3: a channel in `ALIGN` goes to `RECV`. -/
theorem test_bclk_sample :
    after (.bclk 0b00001#5) sRecv (fun t => (t.ch0.shift, t.ch0.bits)) = some (0xC0#8, 7#4) ∧
    after (.bclk 0b00001#5) sRecv (fun t => (t.ch1.phase, t.ch1.bits, t.ch1.shift)) = some (.recv, 8#4, 0x00#8) := by
  decide
/-- 95 section 4.5: the third ROLL of a byte in flight gives STAT 0x632C. -/
theorem test_roll_timeout :
    after .roll { s0 with ch0 := { Channel.reset with en := true, phase := .recv, bits := 6#4, rc := 2#2 }, bclk := .run }
      (fun t => t.statWord .c0) = some 0x632C#16 := by decide
theorem test_roll_host : after .roll sHost (fun t => t.ch4.rc) = some 0#2 := by decide
theorem test_reset : after .reset sRecv (fun t => (t.statWord .c0, t.glbWord)) = some (0x0000#16, 0x0004#16) := by decide

/-! ### Steps -/

theorem test_step_takes_one_word : (nextOf (step sArm)).map (fun t => (t.ch0.phase, t.input)) = some (.align, []) := by
  decide
theorem test_fetch_word : (nextOf (step (s0.withFetchWord 16 0x6400))).bind State.resp = some ⟨.ok, 0x0080#16⟩ := by decide

/-! ### Witnesses: for each statement with hypotheses, states and operands that meet them, clause by clause -/

/-- Channel 0 armed, and the words given waiting. -/
def sInput (ws : List PortWord) : State := { sArm with input := ws }

theorem test_wit_step_runs : (sInput [.cmd 0x541F#16]).input = .cmd 0x541F#16 :: [] ∧
    decode (.cmd 0x541F#16) = .ok (.rdbuf 4#4 0x1F#8) := by decide
theorem test_wit_idle : s0.input = [] := by decide
theorem test_wit_decode_of_encode : (Instr.edge 4#4).wf = true := by decide
theorem test_wit_decoded_word : decode (.evt 0x201F#16) = .ok (.bclk 0b11111#5) := by decide
theorem test_wit_malformed_command :
    badOpWord 0xC000#16 = true ∧ badOpWord 0x1001#16 = true ∧ badOpWord 0xA100#16 = true ∧ badOpWord 0x0100#16 = true ∧
    badOpWord 0xA0FF#16 = false ∧ (sInput [.cmd 0xC000#16]).input = .cmd 0xC000#16 :: [] := by decide
/-- One malformed word for each command the statements name, at the lowest bit that must be zero. -/
theorem test_wit_bad_op_where :
    (0x0001#16).toNat / 4096 = 0 ∧ (0x0001#16).toNat % 4096 ≠ 0 ∧ (0x1001#16).toNat / 4096 = 1 ∧
    (0x1001#16).toNat % 256 ≠ 0 ∧ (0x2001#16).toNat / 4096 = 2 ∧ (0x3001#16).toNat / 4096 = 3 ∧
    (0x4401#16).toNat / 4096 = 4 ∧ (0x4401#16).toNat % 256 ≠ 0 ∧ (0x6001#16).toNat / 4096 = 6 ∧
    (0x7001#16).toNat / 4096 = 7 ∧ (0x8001#16).toNat / 4096 = 8 ∧ (0x9001#16).toNat / 4096 = 9 ∧
    (0xA100#16).toNat / 4096 = 10 ∧ (0xA100#16).toNat / 256 % 16 ≠ 0 ∧ (0xB001#16).toNat / 4096 = 11 ∧
    (0xB001#16).toNat % 4096 ≠ 0 := by decide
theorem test_wit_event_words :
    namesEvent 0x2020#16 = false ∧ namesEvent 0x1500#16 = false ∧ namesEvent 0x201F#16 = true ∧
    namesEvent 0x1400#16 = true ∧ namesEvent 0x4000#16 = true ∧ 5 ≤ (5#4).toNat := by decide
theorem test_wit_assembled :
    assemble (.rdbuf .host 31) = some (.cmd 0x541F#16) ∧ assemble (.rdbuf .host 32) = none ∧
    assemble (.arm (.num 20)) = none ∧ ∃ t, step (sInput [.cmd 0x541F#16]) = .next t ∧ t.resp.isSome = true :=
  ⟨by decide, by decide, by decide, _, rfl, rfl⟩
theorem test_wit_refused :
    ∃ t, step (sInput [.cmd 0x1900#16]) = .next t ∧ t.resp = some ⟨.badCh, 0x0000#16⟩ ∧ Rsp.badCh ≠ .ok :=
  ⟨_, rfl, rfl, by decide⟩

/-- Channel 0 in `ALIGN` with one BCLK waiting, a state no reset gives, meets the invariant. -/
theorem test_wit_invariant_in_flight : StateInv { sAlign with input := [.evt 0x201F#16] } := by
  refine ⟨⟨fun c h => ?_, fun _ => ⟨fun c => ?_, .c0, rfl⟩, fun h => (by cases h), fun h => (by cases h)⟩,
    fun c => ?_, fun c => ?_, ?_, by unfold DecInv; decide⟩
  · cases c <;> cases h
  · cases c <;> decide
  · cases c <;> simp only [ChannelInv, Chan.role, SensorInv, HostInv] <;> decide
  · cases c <;> simp [FrameInv, Chan.role, State.ch, sAlign, s0, State.reset, Channel.reset]
  · exact Memory.wf_reset

/-- A complete host frame meets the invariant. -/
theorem test_wit_invariant_host : StateInv sHost := by
  refine ⟨⟨fun c h => ?_, fun h => (by cases h), fun _ c => ?_, fun h => (by cases h)⟩, fun c => ?_, fun c => ?_, ?_,
    by unfold DecInv; decide⟩
  · cases c <;> cases h
  · cases c <;> rfl
  · cases c <;> simp only [ChannelInv, Chan.role, SensorInv, HostInv] <;> decide
  · cases c <;> simp only [FrameInv, Chan.role] <;> decide
  · exact ⟨Memory.wf_reset.1, Memory.wf_reset.2.1, Memory.wf_reset.2.2.1, Memory.wf_reset.2.2.2.1, by decide⟩

/-- `NothingStopsTheMachine` and `EveryStepKeepsTheInvariant`. -/
theorem test_wit_nothing_stops :
    StateInv { sAlign with input := [.evt 0x201F#16] } ∧ namesEvent 0x201F#16 = true ∧
    ∃ t, step { sAlign with input := [.evt 0x201F#16] } = .next t ∧ t.ch0.phase = .recv :=
  ⟨test_wit_invariant_in_flight, by decide, _, rfl, rfl⟩
/-- `ResponseCodesFollowTheTable`: a word for each code, at the boundary of each range. -/
theorem test_wit_response_codes :
    expectedRsp sHost 0x1901#16 = .badOp ∧ expectedRsp sHost 0x5920#16 = .badCh ∧ expectedRsp sHost 0x4400#16 = .badRole ∧
    expectedRsp sAlign 0x1000#16 = .busy ∧ expectedRsp sHost 0x5420#16 = .badIdx ∧ expectedRsp sHost 0xA003#16 = .badIdx ∧
    expectedRsp sHost 0x4000#16 = .notReady ∧ expectedRsp sHost 0x2400#16 = .ok ∧ expectedRsp s0 0x2400#16 = .notReady ∧
    expectedRsp sHost 0x541F#16 = .ok := by decide

/-! #### Commands -/

theorem test_wit_arm : (s0.ch .c4).phase = .wait ∧ (sAlign.ch .c0).phase ≠ .wait ∧ 5 ≤ (5#4).toNat := by decide
theorem test_wit_ack :
    sHost.hlen ≤ sHost.ch4.count.toNat ∧ (8#8).toNat = (0#8).toNat + sHost.hlen ∧
    sFull.hlen ≤ sFull.ch4.count.toNat ∧ s0.ch4.count.toNat < s0.hlen ∧ (3#4).toNat < 4 ∧ 5 ≤ (15#4).toNat := by decide
theorem test_wit_decode :
    Chan.c3.role = .sensor ∧ (sDone.ch .c3).done = true ∧ (sDone.ch .c3).cur.toNat ≤ 16 ∧
    (List.range (sDone.ch .c3).cur.toNat).map (slotByte .c3 (sDone.ch .c3)) = frame705 ∧
    (s0.ch .c3).done = false := by decide
/-- The boundary of a sensor frame, and a cursor past it, which only an unreachable state has. -/
theorem test_wit_decode_past_the_end :
    ({ Channel.reset with done := true, cur := 16#5 } : Channel).cur.toNat ≤ 16 ∧
    16 < ({ Channel.reset with done := true, cur := 17#5 } : Channel).cur.toNat ∧
    exec (.decode 0#4) { s0 with ch0 := { Channel.reset with done := true, cur := 17#5 } } = .fault .noSuchSlot :=
  ⟨by decide, by decide, rfl⟩
theorem test_wit_rdbuf :
    (15#8).toNat < (if Chan.c0.role = .host then 32 else 16) ∧ (31#8).toNat < (if Chan.c4.role = .host then 32 else 16) ∧
    (if Chan.c0.role = .host then 32 else 16) ≤ (16#8).toNat ∧ (if Chan.c4.role = .host then 32 else 16) ≤ (32#8).toNat := by
  decide
theorem test_wit_badch : 5 ≤ (5#4).toNat ∧ 5 ≤ (15#4).toNat := by decide
theorem test_wit_rddec : 3 ≤ (3#8).toNat ∧ 3 ≤ (255#8).toNat := by decide
theorem test_wit_read_commands :
    (Instr.rdglb).isCommand = true ∧ (∀ c, Instr.rdglb ≠ .arm c ∧ Instr.rdglb ≠ .ack c ∧ Instr.rdglb ≠ .clrev c ∧
      Instr.rdglb ≠ .decode c) ∧ ∃ t, exec .rdglb sP1 = .next t ∧ t.resp.isSome = true :=
  ⟨rfl, by decide, _, rfl, rfl⟩

/-! #### Events -/

theorem test_wit_edge :
    (4#4).toNat < 5 ∧ (sArm.ch .c0).en = true ∧ (sArm.ch .c0).phase = .wait ∧
    ¬((sAlign.ch .c0).en = true ∧ (sAlign.ch .c0).phase = .wait) ∧
    ¬((s0.ch .c0).en = true ∧ (s0.ch .c0).phase = .wait) := by decide
theorem test_wit_bclk_stop : s0.bclk = .stop := by decide
theorem test_wit_half :
    sAlign.bclk = .half ∧ (sAlign.ch .c0).phase = .align ∧ (sAlign.ch .c1).phase ≠ .align := by decide
/-- One channel with bits left, one aligned behind it, the others waiting. -/
theorem test_wit_tick :
    sRecv.bclk = .run ∧ (sRecv.ch .c0).phase = .recv ∧ (sRecv.ch .c0).bits ≠ 0#4 ∧ (sRecv.ch .c1).phase = .align ∧
    (sRecv.ch .c2).phase = .wait ∧ after (.bclk 0#5) sRecv (fun t => t.bclk) = some .run ∧
    after (.bclk 0#5) sStop (fun t => (t.ch0.phase, t.bclk)) = some (.wait, .stop) := by decide
/-- A sensor channel at its stop bit: slot 15 the last that is stored, slot 16 dropped; the sentinel and another byte. -/
theorem test_wit_sensor_finalize :
    sStop.bclk = .run ∧ Chan.c0.role = .sensor ∧ (sStop.ch .c0).phase = .recv ∧ (sStop.ch .c0).bits = 0#4 ∧
    (sStop.ch .c0).cur.toNat < 16 ∧ (15#5).toNat < 16 ∧ 16 ≤ (16#5).toNat ∧
    (sStop.ch .c0).done = false ∧ (sStop.ch .c0).timeout = false ∧ (sStop.ch .c0).shift ≠ 0x0A#8 := by decide
theorem test_wit_sensor_finalize_last :
    after (.bclk 0#5) { sStop with ch0 := { sStop.ch0 with shift := 0x0A#8, cur := 16#5, count := 16#8 } }
      (fun t => (t.ch0.done, t.ch0.ovf, t.ch0.cur, t.ch0.en)) = some (true, true, 16#5, false) := by decide
/-- The host channel at its stop bit, with the ring exactly full before the byte. -/
theorem test_wit_host_finalize :
    after (.bclk 0#5)
      { s0 with ch4 := { Channel.reset with en := true, phase := .recv, count := 32#8, cur := 31#5 }, bclk := .run }
      (fun t => (t.ch4.ovf, t.ch4.cur, t.ch4.count)) = some (true, 0#5, 33#8) := by decide
theorem test_wit_roll :
    (s0.ch .c0).en = false ∧ (sArm.ch .c0).en = true ∧ (sArm.ch .c0).rc.toNat < 2 ∧
    ({ sArm.ch0 with rc := 1#2 } : Channel).rc.toNat < 2 ∧
    ({ sArm.ch0 with rc := 2#2 } : Channel).rc = 2#2 ∧ Chan.c0.role = .sensor := by decide
theorem test_wit_unwritten :
    (15#8).toNat < Chan.c0.cap ∧ (31#8).toNat < Chan.c4.cap ∧ bufGet (s0.ch .c0).buf 15 = none ∧
    ∃ t, exec .reset s0 = .next t ∧ t.bclk = .stop := ⟨by decide, by decide, by decide, _, rfl, rfl⟩

/-! #### The receive engine as a whole -/

theorem test_wit_eight_samples :
    [true, false, false, false, false, false, true, false].length = 8 ∧ sRecv.ch0.bits = 8#4 := by decide
theorem test_wit_rxbyte :
    ((sInput (rxByte .c0 0x41#8 ++ [])).ch .c0).en = true ∧ (sInput (rxByte .c0 0x41#8 ++ [])).bclk = .stop ∧
    (∀ d, ((sInput (rxByte .c0 0x41#8 ++ [])).ch d).phase = .wait) ∧
    (sInput (rxByte .c0 0x41#8 ++ [])).input = rxByte .c0 0x41#8 ++ [] :=
  ⟨rfl, rfl, fun d => by cases d <;> rfl, rfl⟩
/-- The frame "7 0 5" of 95 section 5.1 (the shortest), and the digit counts of the longest. -/
theorem test_wit_received_frame :
    let s := sInput (rxFrame .c0 frame705 ++ [encode (.decode Chan.c0.nibble)])
    Chan.c0.role = .sensor ∧ (s.ch .c0).en = true ∧ (s.ch .c0).cur = 0#5 ∧ (s.ch .c0).done = false ∧
    (s.ch .c0).timeout = false ∧ (s.ch .c0).ovf = false ∧ s.bclk = .stop ∧ (∀ x, (s.ch x).phase = .wait) ∧
    (∀ b ∈ [0x37#8] ++ [0x35#8], 0x30 ≤ (b : Byte).toNat ∧ b.toNat ≤ 0x39) ∧ (0x41#8 : Byte) ≠ 0x0A#8 ∧
    frame705 = [0x37#8] ++ [0x20#8, 0x30#8, 0x20#8] ++ [0x35#8] ++ [0x0D#8, 0x41#8, 0x4A#8, 0x0A#8] ∧
    (0x4A#8).toNat = ((frame705.take (frame705.length - 2)).map BitVec.toNat).sum % 64 + 32 :=
  ⟨rfl, rfl, rfl, rfl, rfl, rfl, rfl, fun x => by cases x <;> rfl, by decide, by decide, by decide, by decide⟩
theorem test_wit_visiting_order :
    [Chan.c4, Chan.c3, Chan.c2, Chan.c1, Chan.c0].Perm Chan.all ∧
    [Chan.c3, Chan.c2, Chan.c1, Chan.c0].Perm Chan.sensors ∧ sRecv.bclk = .run := by decide
/-- Two states that differ in channel 1 and agree on channel 0. -/
theorem test_wit_channels_apart :
    sRecv.ch .c0 = ({ sRecv with ch1 := Channel.reset } : State).ch .c0 ∧ sRecv.ch1 ≠ Channel.reset ∧
    ∃ t u, exec (.bclk 0#5) sRecv = .next t ∧ exec (.bclk 0#5) { sRecv with ch1 := Channel.reset } = .next u ∧
      t.ch0.bits = u.ch0.bits := ⟨rfl, by decide, _, _, rfl, rfl, rfl⟩
/-- The three ways to be disarmed. -/
theorem test_wit_disarms :
    after .reset sArm (fun t => (sArm.ch0.en, t.ch0.en)) = some (true, false) ∧
    after .roll { sArm with ch0 := { sArm.ch0 with rc := 2#2 } } (fun t => (t.ch0.en, t.ch0.timeout)) = some (false, true) ∧
    after (.bclk 0#5) { sStop with ch0 := { sStop.ch0 with shift := 0x0A#8 } }
      (fun t => (t.ch0.en, t.ch0.done, t.ch0.last)) = some (false, true, 0x0A#8) := by decide
theorem test_wit_byte_in_flight :
    StateInv { sAlign with input := [.evt 0x201F#16] } ∧ (sAlign.ch .c0).phase ≠ .wait ∧
    (∀ i ∈ List.replicate 10 (Instr.bclk 0b11111#5), i ≠ .reset) ∧
    ticksLeft (sAlign.ch .c0) ≤ ((List.replicate 10 (Instr.bclk 0b11111#5)).filter isTick).length ∧
    ∃ t, runInstrs (List.replicate 10 (Instr.bclk 0b11111#5)) { sAlign with input := [.evt 0x201F#16] } = .next t :=
  ⟨test_wit_invariant_in_flight, by decide, by decide, by decide, _, rfl⟩

/-! #### Frames and whole-machine rules -/

/-- Two rollovers, the third, and one more, between other commands. -/
theorem test_wit_timeout :
    Chan.c0.role = .sensor ∧ (s0.ch .c0).phase = .wait ∧
    (∃ t, exec (.arm Chan.c0.nibble) s0 = .next t ∧
      (∃ u, runInstrs [.roll, .nop, .roll] t = .next u) ∧ ∃ u, runInstrs [.roll, .edge 1#4, .roll, .roll] t = .next u) ∧
    (∀ i ∈ [Instr.roll, .edge 1#4, .roll, .roll], i ≠ .edge Chan.c0.nibble ∧ i ≠ .reset ∧ i ≠ .arm Chan.c0.nibble) ∧
    ([Instr.roll, .nop, .roll].filter (· == .roll)).length < 3 ∧
    3 ≤ ([Instr.roll, .edge 1#4, .roll, .roll].filter (· == .roll)).length :=
  ⟨rfl, rfl, ⟨_, rfl, ⟨_, rfl⟩, _, rfl⟩, by decide, by decide, by decide⟩
/-- The lone sentinel, a frame of exactly 16 bytes, and one of 17. -/
theorem test_wit_sensor_frame :
    Chan.c0.role = .sensor ∧ sArm.ch0.en = true ∧ sArm.ch0.cur = 0#5 ∧ sArm.ch0.done = false ∧
    sArm.ch0.timeout = false ∧ sArm.ch0.ovf = false ∧ (∀ b ∈ List.replicate 16 (0x41#8 : Byte), b ≠ 0x0A#8) ∧
    (([] : List Byte) ++ [0x0A#8]).length = 1 ∧ (List.replicate 15 (0x41#8 : Byte) ++ [0x0A#8]).length = 16 ∧
    16 < (List.replicate 16 (0x41#8 : Byte) ++ [0x0A#8]).length := by decide
theorem test_wit_host_ring :
    ({ Channel.reset with en := true } : Channel).en = true ∧ (List.replicate 32 (0x41#8 : Byte)).length ≤ 32 ∧
    (31#8).toNat < (List.replicate 32 (0x41#8 : Byte)).length ∧ s0.hlen ≤ (List.replicate 8 (0x41#8 : Byte)).length ∧
    ¬s0.hlen ≤ (List.replicate 7 (0x41#8 : Byte)).length := by decide
theorem test_wit_host_frame_stable :
    StateInv sHost ∧ sHost.hlen ≤ sHost.ch4.count.toNat ∧ sHost.ch4.ovf = false ∧
    (∃ t, exec (.clrev 4#4) sHost = .next t ∧ t.ch4.ovf = false) ∧ (7#8).toNat < sHost.hlen :=
  ⟨test_wit_invariant_host, by decide, by decide, ⟨_, rfl, rfl⟩, by decide⟩
theorem test_wit_frozen :
    Chan.c3.role = .sensor ∧ (sDone.ch .c3).en = false ∧ (sDone.ch .c3).phase = .wait ∧
    (∃ t, exec .roll sDone = .next t ∧ t.ch3.done = true) ∧ ∃ t, exec (.clrev Chan.c3.nibble) sDone = .next t ∧ t.ch3.evf = false :=
  ⟨rfl, rfl, rfl, ⟨_, rfl, rfl⟩, _, rfl, rfl⟩
theorem test_wit_commit_writes :
    ∃ t, exec (.bclk 0#5) { sStop with ch0 := { sStop.ch0 with buf := [(0, 0x31#8)] } } = .next t ∧
      bufRead .c0 (t.ch .c0) 0 ≠ bufRead .c0 ({ sStop.ch0 with buf := [(0, 0x31#8)] } : Channel) 0 := ⟨_, rfl, by decide⟩
theorem test_wit_results_written :
    (∃ t, exec (.decode Chan.c3.nibble) sDone = .next t ∧ t.dec ≠ sDone.dec) ∧
    ∃ t, exec .reset { s0 with dec := { Dec.reset with soil := 14#16 } } = .next t ∧ t.dec ≠ { Dec.reset with soil := 14#16 } :=
  ⟨⟨_, rfl, by decide⟩, _, rfl, by decide⟩
/-- A flag set by a commit and by a timeout, and cleared by CLREV, ARM and RESET. -/
theorem test_wit_wake :
    after (.bclk 0#5) sStop (fun t => (sStop.ch0.evf, t.ch0.evf)) = some (false, true) ∧
    after .roll { sArm with ch0 := { sArm.ch0 with rc := 2#2 } } (fun t => t.ch0.evf) = some true ∧
    after (.clrev 0#4) sP1 (fun t => (sP1.ch0.evf, t.ch0.evf)) = some (true, false) ∧
    after (.arm 0#4) sP1 (fun t => t.ch0.evf) = some false ∧ after .reset sP1 (fun t => t.ch0.evf) = some false := by decide
/-- The conditions under which a commit and a timeout set a flag and an ARM clears it. -/
theorem test_wit_wake_conditions :
    sStop.bclk = .run ∧ (sStop.ch .c0).phase = .recv ∧ (sStop.ch .c0).bits = 0#4 ∧ Chan.c0.role = .sensor ∧
    (({ sArm with ch0 := { sArm.ch0 with rc := 2#2 } } : State).ch .c0).en = true ∧
    (({ sArm with ch0 := { sArm.ch0 with rc := 2#2 } } : State).ch .c0).rc = 2#2 ∧ (sP1.ch .c0).phase = .wait := by decide
theorem test_wit_build :
    s0.variant = .short ∧ ({ s0 with variant := .long } : State).variant = .long ∧
    ∃ t, exec .reset s0 = .next t ∧ t.variant = .short := ⟨rfl, rfl, _, rfl, rfl⟩
/-- 254 bytes and one more: the count saturates at 255 with the cursor still at it. At 255 an ACK keeps it there. -/
theorem test_wit_host_cursor :
    let k : Channel := { Channel.reset with en := true, phase := .recv, count := 254#8, cur := 30#5 }
    let s : State := { s0 with ch4 := k, bclk := .run }
    HostCursorAtCount s.ch4 ∧ s.ch4.count.toNat < 255 ∧
    (∃ t, exec (.bclk 0#5) s = .next t ∧ HostCursorAtCount t.ch4 ∧ t.ch4.count = 255#8 ∧
      ∃ u, exec (.ack 4#4) t = .next u ∧ HostCursorAtCount u.ch4) ∧
    (∀ lv, Instr.ack 4#4 ≠ .bclk lv) ∧
    (∃ t, runInstrs [.bclk 0#5] s = .next t) ∧
    ∀ (n : Nat) (u : State), n < [Instr.bclk 0#5].length → runInstrs ([Instr.bclk 0#5].take n) s = .next u →
      u.ch4.count.toNat < 255 := by
  refine ⟨rfl, by decide, ⟨_, rfl, rfl, rfl, _, rfl, rfl⟩, by decide, ⟨_, rfl⟩, fun n u hn h => ?_⟩
  obtain rfl : n = 0 := by simpa using hn
  cases h
  decide
/-- At 255 the 256th byte moves the cursor off the count and item 7 says nothing; an ACK of a count of 254 keeps the item. -/
theorem test_wit_host_cursor_words :
    let k : Channel := { Channel.reset with en := true, phase := .recv, count := 255#8, cur := 31#5 }
    let s : State := { s0 with ch4 := k, bclk := .run }
    let r : State := { s0 with ch4 := { k with count := 254#8, cur := 30#5 } }
    HostCursorClaim s.ch4 ∧ (Instr.bclk 0#5 = .ack 4#4 → s.ch4.count.toNat < 255) ∧
    (∃ t, exec (.bclk 0#5) s = .next t ∧ t.ch4.cur = 0#5 ∧ t.ch4.count = 255#8) ∧
    HostCursorClaim r.ch4 ∧ r.ch4.count.toNat < 255 ∧ (∃ t, exec (.ack 4#4) r = .next t ∧ t.ch4.count.toNat < 255) ∧
    (∃ t, runInstrs [.ack 4#4] r = .next t) ∧
    ∀ (n : Nat) (u : State), [Instr.ack 4#4][n]? = some (.ack 4#4) → runInstrs ([Instr.ack 4#4].take n) r = .next u →
      u.ch4.count.toNat < 255 := by
  refine ⟨fun _ => rfl, by decide, ⟨_, rfl, rfl, rfl⟩, fun _ => rfl, by decide, ⟨_, rfl, by decide⟩, ⟨_, rfl⟩,
    fun n u hn h => ?_⟩
  obtain rfl : n = 0 := by
    have := (List.getElem?_eq_some_iff.1 hn).1
    simpa using this
  cases h
  decide
/-- Digits of different values in three places, and the empty string. -/
theorem test_wit_decimal :
    (∀ b ∈ [0x34#8, 0x30#8, 0x39#8], 0x30 ≤ (b : Byte).toNat ∧ b.toNat ≤ 0x39) ∧
    decimal [0x34#8, 0x30#8, 0x39#8] = 409 ∧ decimal [] = 0 := by decide
theorem test_wit_quiet :
    StateInv { sAlign with input := [.evt 0x201F#16] } ∧ sAlign.quiet = false ∧ StateInv sHost ∧ sHost.quiet = true :=
  ⟨test_wit_invariant_in_flight, by decide, test_wit_invariant_host, by decide⟩

/-! #### The sensor decoder -/

theorem test_wit_checksum : 3 ≤ frame705.length ∧ 3 ≤ [0x0D#8, 0x41#8, 0x0A#8].length := by decide
/-- A covered byte changed by 1 and by 64, the checksum byte, and the CR; the last covered byte is the tag. -/
theorem test_wit_checksum_changes :
    ckOk frame705 true = false ∧
    ckOk frame705 false = true ∧ frame705[0]? = some 0x37#8 ∧ 0 + 2 < frame705.length ∧
    (0x36#8).toNat % 64 ≠ (0x37#8).toNat % 64 ∧ (0x77#8).toNat % 64 = (0x37#8).toNat % 64 ∧ 0 + 4 ≠ frame705.length ∧
    frame705[6]? = some 0x41#8 ∧ 6 + 2 < frame705.length ∧ frame705[7]? = some 0x4A#8 ∧ 7 + 2 = frame705.length ∧
    frame705[5]? = some 0x0D#8 ∧ 5 + 4 = frame705.length := by decide
theorem test_wit_format : formatOk frame705 false = some ([0x37#8], [0x35#8]) ∧ formatOk frame705 true = none := by decide
theorem test_wit_sentinel_tag :
    sArm.ch0.en = true ∧ sArm.ch0.cur = 0#5 ∧ sArm.ch0.done = false ∧ sArm.ch0.timeout = false ∧ sArm.ch0.ovf = false ∧
    (∀ b ∈ [0x31#8, 0x32#8] ++ [0x34#8, 0x35#8, 0x36#8], 0x30 ≤ (b : Byte).toNat ∧ b.toNat ≤ 0x39) := by decide

end Sys2Proof.Tests
end

