-- ==== Sys2Proof/Proofs/Scope.lean ====
section
/-! The statements of 00_scope: the build parameter HOST_VARIANT (R13) and decimal values (R21). -/

namespace Sys2Proof.Proofs

open Sys2Proof Sys2Proof.Machine

/-! ### The build -/

theorem exec_variant {i : Instr} {s t : State} (h : exec i s = .next t) : t.variant = s.variant :=
  exec_keeps State.variant State.setCh_variant State.setBclk_variant State.setDec_variant State.respond_variant h

theorem exec_input {i : Instr} {s t : State} (h : exec i s = .next t) : t.input = s.input :=
  exec_keeps State.input State.setCh_input State.setBclk_input State.setDec_input State.respond_input h

theorem hlen_of_short {s : State} (h : s.variant = .short) : s.hlen = 8 := by rw [State.hlen, h, HostVariant.hlen]

theorem hlen_of_long {s : State} (h : s.variant = .long) : s.hlen = 16 := by rw [State.hlen, h, HostVariant.hlen]

/-- `HLEN` is a function of the variant alone, so an instruction that keeps the variant keeps it. -/
theorem exec_hlen {i : Instr} {s t : State} (h : exec i s = .next t) : t.hlen = s.hlen := by
  rw [State.hlen, exec_variant h, State.hlen]

/-- Settles O49: no operation of an instruction writes the variant or the list of waiting words. -/
theorem hostVariantIsFixed : Obligations.HostVariantIsFixed :=
  ⟨fun _ => hlen_of_short, fun _ => hlen_of_long, fun _ _ _ h => ⟨exec_variant h, exec_hlen h, exec_input h⟩⟩

/-! ### Decimal values -/

/-- The first digit weighs ten to the number of digits after it. -/
theorem decimal_cons (b : Byte) (l : List Byte) : decimal (b :: l) = digit b * 10 ^ l.length + decimal l := by
  induction l using List.reverseRecOn with
  | nil => simp [decimal]
  | append_singleton l c ih =>
    rw [← List.cons_append, decimal_concat, decimal_concat, ih, List.length_append, List.length_singleton, pow_succ]
    ring

/-- Any bytes, digits or not: `digit` subtracts without a range check. -/
theorem decimal_eq_sum (l : List Byte) :
    decimal l = (l.zipIdx.map fun x => digit x.1 * 10 ^ (l.length - 1 - x.2)).sum := by
  induction l with
  | nil => rfl
  | cons b l ih =>
    have weight : ∀ k, l.length - 1 - k = l.length - (k + 1) := by omega
    rw [decimal_cons, ih, List.zipIdx_cons, List.zipIdx_succ]
    simp [Function.comp_def, weight]

/-- Settles O60: the fold from the left is the big-endian sum, by induction on the digits. -/
theorem decimalIsTheBigEndianSum : Obligations.DecimalIsTheBigEndianSum :=
  fun s _ => decimal_eq_sum s

end Sys2Proof.Proofs
end

/-! The statements of 10_state: the shift register (R39), the host cursor (R52 item 7), the writers of the decoder
registers (R51), the invariant (R52) and the reset values (R55). -/

namespace Sys2Proof.Proofs

open Sys2Proof Sys2Proof.Machine

/-! ### The shift register -/

/-- A sample enters at bit 7 and moves the others down (R125). -/
theorem sampleBit_shift_getLsbD (b : Bool) (k : Channel) {i : Nat} (hi : i < 8) :
    (sampleBit b k).shift.getLsbD i = if i = 7 then b else k.shift.getLsbD (i + 1) := by
  simp only [sampleBit, Machine.bit, BitVec.getLsbD_append, BitVec.getLsbD_extractLsb']
  by_cases h7 : i = 7
  · simp [h7]
  · simp [show i < 7 by omega, h7, Nat.add_comm 1 i]

/-- After samples `l` the register holds the last eight bits of what it held before, followed by `l`. -/
theorem foldl_sampleBit_shift_getLsbD (l : List Bool) (k : Channel) {i : Nat} (hi : i < 8) :
    some ((l.foldl (fun k b => sampleBit b k) k).shift.getLsbD i) =
      if i + l.length < 8 then some (k.shift.getLsbD (i + l.length)) else l[i + l.length - 8]? := by
  induction l generalizing k with
  | nil => simp [hi]
  | cons b l ih =>
    rw [List.foldl_cons, ih (sampleBit b k), List.length_cons]
    rcases Nat.lt_trichotomy (i + l.length) 7 with hlt | heq | hgt
    · rw [if_pos (by omega), if_pos (by omega), sampleBit_shift_getLsbD b k (by omega), if_neg (by omega), Nat.add_assoc]
    · rw [if_pos (by omega), if_neg (by omega), sampleBit_shift_getLsbD b k (by omega), if_pos heq]
      simp [show i + (l.length + 1) - 8 = 0 by omega]
    · rw [if_neg (by omega), if_neg (by omega), show i + (l.length + 1) - 8 = (i + l.length - 8) + 1 by omega,
        List.getElem?_cons_succ]

/-- Each sample counts `bits` down by one. -/
theorem foldl_sampleBit_bits (l : List Bool) (k : Channel) :
    (l.foldl (fun k b => sampleBit b k) k).bits = k.bits - BitVec.ofNat 4 l.length := by
  induction l generalizing k with
  | nil => simp
  | cons b l ih =>
    rw [List.foldl_cons, ih, List.length_cons, BitVec.ofNat_add, sampleBit, sub_sub, add_comm]

/-- Settles O33: eight samples have pushed out all the register held before. -/
theorem eightSamplesAssembleTheByte : Obligations.EightSamplesAssembleTheByte := by
  intro k l hl hb
  refine ⟨fun i hi => ?_, ?_⟩
  · rw [foldl_sampleBit_shift_getLsbD l k hi, hl, if_neg (by omega), Nat.add_sub_cancel]
  · rw [foldl_sampleBit_bits, hl, hb]; rfl

/-! ### The clock invariant -/

/-- The clock invariant reads the BitClock, the phases and `bits` only. -/
theorem clockInv_congr {s t : State} (h : ClockInv s) (hb : t.bclk = s.bclk)
    (hc : ∀ c, (t.ch c).phase = (s.ch c).phase ∧ (t.ch c).bits = (s.ch c).bits) : ClockInv t := by
  simpa only [ClockInv, hb, hc] using h

theorem clockInv_of_stopped {s : State} (hb : s.bclk = .stop) (hp : ∀ c, (s.ch c).phase = .wait) : ClockInv s := by
  simp [ClockInv, hb, hp]

@[simp] theorem startByte_phase (k : Channel) : k.startByte.phase = .recv := rfl
@[simp] theorem startByte_bits (k : Channel) : k.startByte.bits = 8#4 := rfl

/-- R52 items 2 and 3: a byte starts only under a clock that is not stopped, and only a running one samples. -/
theorem clockInv_edgeOn {s : State} (h : ClockInv s) (c : Chan) : ClockInv (edgeOn s c) := by
  rcases edgeOn_cases s c with ⟨-, -, he⟩ | ⟨-, he⟩
  · obtain ⟨hrecv, -, -, -⟩ := h
    have hreceiving (d : Chan) (hd : ((edgeOn s c).ch d).phase = .recv) :
        s.bclk = .run ∧ ((edgeOn s c).ch d).bits.toNat ≤ 8 := by
      rw [he, State.setBclk_ch, State.modCh_ch] at hd ⊢
      split at hd
      · cases hd
      · rw [if_neg ‹_›]; exact hrecv d hd
    have halign : ((edgeOn s c).ch c).phase = .align := by rw [he]; simp
    have hbclk : (edgeOn s c).bclk = s.bclk.afterEdge := by rw [he]; rfl
    refine ⟨fun d hd => ?_, fun hb => ⟨fun d hd => ?_, c, halign⟩, fun hb => ?_, fun _ => ⟨c, by simp [halign]⟩⟩
    · obtain ⟨hrun, hle⟩ := hreceiving d hd
      exact ⟨by rw [hbclk, hrun]; rfl, hle⟩
    · obtain ⟨hrun, -⟩ := hreceiving d hd
      rw [hbclk, hrun] at hb
      cases hb
    · rw [hbclk] at hb
      cases hs : s.bclk <;> rw [hs] at hb <;> cases hb
  · rwa [he]

/-- Every byte the alignment starts is in `RECV` with eight bits to sample, under a running clock (R123). -/
theorem clockInv_align {s : State} (h : ClockInv s) (hb : s.bclk = .half) : ClockInv (align s) := by
  obtain ⟨-, hhalf, -, -⟩ := h
  obtain ⟨hno, c, hc⟩ := hhalf hb
  refine ⟨fun d hd => ⟨rfl, ?_⟩, nofun, nofun, fun _ => ⟨c, ?_⟩⟩
  · rw [align_ch] at hd ⊢
    split at hd
    · simp [*]
    · exact absurd hd (hno d)
  · simp [align_ch, hc]

/-- A channel a tick leaves in `RECV` has at most eight bits to sample (R125, R127). -/
theorem receiveTick_bits_le (c : Chan) (l : Bool) {k : Channel} (hk : k.bits.toNat ≤ 8)
    (hp : (receiveTick c l k).phase = .recv) : (receiveTick c l k).bits.toNat ≤ 8 := by
  by_cases hz : k.bits = 0#4
  · rw [receiveTick, if_pos hz] at hp
    cases hp
  · rw [receiveTick, if_neg hz, sampleBit]
    bv_omega

/-- After a tick the clock runs exactly while some channel is not in `WAIT` (R128). -/
theorem clockInv_tick (lv : BitVec 5) {s : State} (h : ClockInv s) (hb : s.bclk = .run) : ClockInv (tick lv s) := by
  obtain ⟨hrecv, -, -, -⟩ := h
  have hclk : (tick lv s).bclk = if (tick lv s).quiet then .stop else .run := by rw [tick, tickIn_bclk, hb]
  by_cases hq : (tick lv s).quiet = true
  · rw [if_pos hq] at hclk
    exact clockInv_of_stopped hclk ((State.quiet_iff _).1 hq)
  · rw [if_neg hq] at hclk
    refine ⟨fun c hc => ⟨hclk, ?_⟩, by simp [hclk], by simp [hclk], fun _ => ?_⟩
    · rw [tick_ch] at hc ⊢
      rcases hp : (s.ch c).phase with _ | _ | _ <;> simp only [hp] at hc ⊢
      · cases hc
      · simp
      · obtain ⟨-, hle⟩ := hrecv c hp
        exact receiveTick_bits_le c _ hle hc
    · simpa [State.quiet_iff] using hq

/-- Only the events EDGE, BCLK and RESET move a phase, `bits` or the BitClock. -/
theorem exec_keeps_phases {i : Instr} {s t : State} (h : exec i s = .next t) (he : ∀ x, i ≠ .edge x)
    (hb : ∀ lv, i ≠ .bclk lv) (hr : i ≠ .reset) :
    t.bclk = s.bclk ∧ ∀ c, (t.ch c).phase = (s.ch c).phase ∧ (t.ch c).bits = (s.ch c).bits := by
  refine ⟨?_, fun c => ?_⟩
  · rcases exec_bclk h with hk | ⟨⟨c, hi, -⟩, -⟩ | ⟨⟨lv, hi⟩, -⟩ | ⟨⟨lv, hi⟩, -⟩ | ⟨hi, -⟩
    · exact hk
    · exact absurd hi (he _)
    · exact absurd hi (hb _)
    · exact absurd hi (hb _)
    · exact absurd hi hr
  · have hs := exec_chanStep h c
    generalize t.ch c = k' at *
    cases hs with
    | edge hi => exact absurd hi (he _)
    | start lv hi => exact absurd hi (hb _)
    | sample lv hi => exact absurd hi (hb _)
    | finish lv hi => exact absurd hi (hb _)
    | roll => rw [rollChannel_eq]; exact ⟨rfl, rfl⟩
    | reset hi => exact absurd hi hr
    | _ => exact ⟨rfl, rfl⟩

theorem clockInv_exec {i : Instr} {s t : State} (h : exec i s = .next t) (hs : ClockInv s) : ClockInv t := by
  cases i with
  | edge x =>
    rcases execEdge_cases x s with ⟨c, -, hx⟩ | ⟨-, hx⟩ <;> (rw [exec, hx] at h; cases h)
    exact clockInv_edgeOn hs c
  | bclk lv =>
    rcases hb : s.bclk with _ | _ | _ <;> simp only [exec, execBclk, hb] at h <;> cases h
    · exact hs
    · exact clockInv_align hs hb
    · exact clockInv_tick lv hs hb
  | reset => cases h; exact clockInv_of_stopped rfl fun c => by simp [Channel.cleared, Channel.reset]
  | _ =>
    obtain ⟨hb, hc⟩ := exec_keeps_phases h (by simp) (by simp) (by simp)
    exact clockInv_congr hs hb hc

/-! ### What a commit and an ACK do to the pointers -/

/-- The cursor moves by one modulo 32 (R163). -/
theorem cursor_succ_toNat (v : BitVec 5) : (v + 1#5).toNat = (v.toNat + 1) % 32 := BitVec.toNat_add v 1#5

theorem consume_fstart_toNat (n : Nat) (k : Channel) : (k.consume n).fstart.toNat = (k.fstart.toNat + n) % 32 := by
  simp [Channel.consume]

theorem consume_count_toNat {n : Nat} {k : Channel} (h : n ≤ k.count.toNat) :
    (k.consume n).count.toNat = k.count.toNat - n := by
  have := k.count.isLt
  rw [Channel.consume, BitVec.toNat_sub_of_le (by simp [BitVec.le_def]; omega), BitVec.toNat_ofNat]
  omega

/-! ### The host cursor -/

/-- One more byte moves the cursor and the count together while the count is below saturation (R161, R163). -/
theorem hostCursorAtCount_finalize {c : Chan} {k : Channel} (hr : c.role = .host) (h : HostCursorAtCount k)
    (hlt : k.count.toNat < 255) : HostCursorAtCount (finalize c k) := by
  simp only [HostCursorAtCount, finalize, commit_host_eq hr, sat8Succ_toNat, cursor_succ_toNat] at *
  omega

/-- An ACK moves the start of the frame by as much as it takes from the count (R169). -/
theorem hostCursorAtCount_consume {n : Nat} {k : Channel} (h : HostCursorAtCount k) (hn : n ≤ k.count.toNat) :
    HostCursorAtCount (k.consume n) := by
  have hcur : (k.consume n).cur = k.cur := rfl
  simp only [HostCursorAtCount, consume_fstart_toNat, consume_count_toNat hn, hcur] at *
  omega

theorem hostCursorAtCount_step {i : Instr} {b : BitClock} {hlen : Nat} {c : Chan} {k k' : Channel}
    (hs : ChanStep i b hlen c k k') (hr : c.role = .host) (h : HostCursorAtCount k)
    (hlt : k.count.toNat < 255 ∨ ∀ lv, i ≠ .bclk lv) : HostCursorAtCount k' := by
  cases hs with
  | arm => rfl
  | reset => rfl
  | ack _ _ hn => exact hostCursorAtCount_consume h hn
  | finish lv hi => exact hostCursorAtCount_finalize hr h (hlt.resolve_right fun hne => hne lv hi)
  | roll _ hr' => rw [hr] at hr'; cases hr'
  | _ => exact h

/-- The item in its own words: with a count of 255 it says nothing, and only an ACK brings such a count below 255
without a new frame. -/
theorem hostCursorClaim_step {i : Instr} {b : BitClock} {hlen : Nat} {c : Chan} {k k' : Channel}
    (hs : ChanStep i b hlen c k k') (hr : c.role = .host) (h : HostCursorClaim k)
    (hack : i = .ack c.nibble → k.count.toNat < 255) : HostCursorClaim k' := by
  by_cases hlt : k.count.toNat < 255
  · exact fun _ => hostCursorAtCount_step hs hr (h hlt) (.inl hlt)
  · cases hs with
    | arm => exact fun _ => rfl
    | reset => exact fun _ => rfl
    | ack hi => exact absurd (hack hi) hlt
    | finish =>
      refine fun hlt' => absurd hlt' ?_
      simp only [finalize, commit_count, sat8Succ_toNat]
      omega
    | roll _ hr' => rw [hr] at hr'; cases hr'
    | _ => exact fun hlt' => absurd hlt' hlt

/-! ### Runs -/

/-- A property that a step keeps under a condition on the instruction and the state it meets holds after every run all of
whose steps meet the condition. -/
theorem runInstrs_induction {P : State → Prop} {ok : Instr → State → Prop}
    (hstep : ∀ i s t, P s → exec i s = .next t → ok i s → P t) :
    ∀ (is : List Instr) (s t : State), P s → runInstrs is s = .next t →
      (∀ n i u, is[n]? = some i → runInstrs (is.take n) s = .next u → ok i u) → P t := by
  intro is
  induction is with
  | nil => intro s t hs h _; cases h; exact hs
  | cons i is ih =>
    intro s t hs h hok
    rw [runInstrs] at h
    rcases hx : exec i s with u | r | r <;> simp only [hx, reduceCtorEq] at h
    refine ih u t (hstep i s u hs hx (hok 0 i s rfl rfl)) h fun n j v hn hv => ?_
    refine hok (n + 1) j v hn ?_
    rw [List.take_succ_cons, runInstrs, hx]
    exact hv

/-- Settles O59: each instruction moves cursor, frame start and count together until a commit meets a count of 255; the
runs follow by induction over their instructions. -/
theorem hostCursorFollowsTheCountUntilItSaturates : Obligations.HostCursorFollowsTheCountUntilItSaturates := by
  have keepsAt : ∀ (i : Instr) (s t : State), HostCursorAtCount s.ch4 → exec i s = .next t →
      (s.ch4.count.toNat < 255 ∨ ∀ lv, i ≠ .bclk lv) → HostCursorAtCount t.ch4 :=
    fun i s t hs h => hostCursorAtCount_step (exec_chanStep h .c4) rfl hs
  have keepsClaim : ∀ (i : Instr) (s t : State), HostCursorClaim s.ch4 → exec i s = .next t →
      (i = .ack 4#4 → s.ch4.count.toNat < 255) → HostCursorClaim t.ch4 :=
    fun i s t hs h => hostCursorClaim_step (exec_chanStep h .c4) rfl hs
  refine ⟨rfl, keepsAt, fun is s t hs h hlt => ?_, keepsClaim, fun is s t hs h hack => ?_⟩
  · refine runInstrs_induction (P := fun u => HostCursorAtCount u.ch4) (ok := fun _ u => u.ch4.count.toNat < 255)
      (fun i s t hs h hlt => keepsAt i s t hs h (.inl hlt)) is s t hs h fun n i u hn hu => ?_
    exact hlt n u (List.getElem?_eq_some_iff.1 hn).1 hu
  · exact runInstrs_induction (P := fun u => HostCursorClaim u.ch4)
      (ok := fun i u => i = .ack 4#4 → u.ch4.count.toNat < 255) keepsClaim is s t hs h
      fun n i u hn hu hi => hack n u (hi ▸ hn) hu

/-! ### The channel invariants -/

/-- No byte is in flight behind the sentinel, so a channel that receives has no complete frame. -/
theorem done_eq_false_of_receiving {k : Channel} (h : SensorInv k) (hp : k.phase ≠ .wait) : k.done = false := by
  obtain ⟨-, -, -, -, -, -, -, hdone⟩ := h
  exact Bool.eq_false_iff.2 fun hd => hp (hdone hd)

/-- A byte ends on a sensor channel: it is stored or dropped, and the sentinel completes the frame (R162, R164). -/
theorem sensorInv_finalize {c : Chan} {k : Channel} (hr : c.role = .sensor) (h : SensorInv k) (hp : k.phase ≠ .wait) :
    SensorInv (finalize c k) := by
  have hd := done_eq_false_of_receiving h hp
  obtain ⟨hfs, hcur, -, hen, hrc, hto, hovf, -⟩ := h
  simp only [SensorInv, finalize, commit_sensor_eq hr, sat8Succ_toNat, hd, Bool.false_or, Bool.not_false,
    Bool.true_and] at *
  refine ⟨hfs, ?_, ?_, ?_, ?_, hto, ?_, fun _ => trivial⟩
  · split
    · rw [cursor_succ_toNat]; omega
    · omega
  · rintro ⟨hs, ht⟩; simp [ht] at hs
  · rintro (hs | ht)
    · simp [hs]
    · simp [hen (.inr ht)]
  · exact fun he => hrc (Bool.and_eq_true_iff.1 he).1
  · split
    · rw [hovf]; omega
    · simp; omega

/-- A rollover counts on an armed channel and disarms it at the third (R168). -/
theorem sensorInv_rollChannel {k : Channel} (h : SensorInv k) : SensorInv (rollChannel k) := by
  obtain ⟨hfs, hcur, hex, hen, hrc, hto, hovf, hdone⟩ := h
  rw [rollChannel_eq]
  cases he : k.en
  · simpa [SensorInv, he] using ⟨hfs, hcur, by simpa using hex, hto, hovf, hdone⟩
  · have hd : k.done = false := by simpa [he] using mt (fun h => hen (.inl h))
    have ht : k.timeout = false := by simpa [he] using mt (fun h => hen (.inr h))
    by_cases h2 : k.rc = 2#2
    · simp [SensorInv, hd, ht, h2, hfs, hcur, hovf]
    · have h3 : k.rc + 1#2 ≠ 3#2 := by revert h2; generalize k.rc = r; revert r; decide
      simp [SensorInv, hd, ht, h2, h3, hfs, hcur, hovf]

theorem sensorInv_step {i : Instr} {b : BitClock} {hlen : Nat} {c : Chan} {k k' : Channel}
    (hs : ChanStep i b hlen c k k') (hr : c.role = .sensor) (h : SensorInv k) : SensorInv k' := by
  have ⟨hfs, hcur, hex, hen, hrc, hto, hovf, hdone⟩ := h
  cases hs with
  | same => exact h
  | arm => simp [SensorInv, Channel.armed]
  | reset => simp [SensorInv, Channel.cleared, Channel.reset]
  | ack _ hr' => rw [hr] at hr'; cases hr'
  | clrev => exact h
  | edge _ he => exact ⟨hfs, hcur, hex, hen, hrc, hto, hovf, fun hd => by simp [hen (.inl hd)] at he⟩
  | start lv _ _ hp =>
    exact ⟨hfs, hcur, hex, hen, hrc, hto, hovf, fun hd => absurd (hdone hd) (by simp [hp])⟩
  | sample lv _ _ hp =>
    exact ⟨hfs, hcur, hex, hen, hrc, hto, hovf, fun hd => absurd (hdone hd) (by simp [hp])⟩
  | finish lv _ _ hp => exact sensorInv_finalize hr h (by simp [hp])
  | roll => exact sensorInv_rollChannel h

/-- A byte ends on the host channel: while the ring has not overrun the count is exact (R163). -/
theorem hostInv_finalize {c : Chan} {k : Channel} (hr : c.role = .host) (h : HostInv k) : HostInv (finalize c k) := by
  obtain ⟨hto, hrc, hdone, hring⟩ := h
  have hcur : k.ovf = false → HostCursorAtCount (finalize c k) := fun ho =>
    have ⟨hle, hat⟩ := hring ho
    hostCursorAtCount_finalize hr hat (by omega)
  simp only [HostInv, HostCursorAtCount, finalize, commit_host_eq hr, Bool.or_eq_false_iff, decide_eq_false_iff_not,
    not_lt] at *
  exact ⟨hto, hrc, hdone, fun ⟨ho, hle⟩ => ⟨hle, hcur ho⟩⟩

theorem hostInv_step {i : Instr} {b : BitClock} {hlen : Nat} {c : Chan} {k k' : Channel}
    (hs : ChanStep i b hlen c k k') (hr : c.role = .host) (h : HostInv k) : HostInv k' := by
  cases hs with
  | arm => simp [HostInv, Channel.armed]
  | reset => simp [HostInv, Channel.cleared, Channel.reset]
  | ack _ _ hn =>
    obtain ⟨hto, hrc, hdone, hring⟩ := h
    refine ⟨hto, hrc, hdone, fun ho => ?_⟩
    obtain ⟨hle, hat⟩ := hring ho
    exact ⟨by rw [consume_count_toNat hn]; omega, hostCursorAtCount_consume hat hn⟩
  | finish => exact hostInv_finalize hr h
  | roll _ hr' => rw [hr] at hr'; cases hr'
  | _ => exact h

theorem channelInv_sensor {c : Chan} (hr : c.role = .sensor) (k : Channel) : ChannelInv c k ↔ SensorInv k := by
  simp [ChannelInv, hr]

theorem channelInv_host {c : Chan} (hr : c.role = .host) (k : Channel) : ChannelInv c k ↔ HostInv k := by
  simp [ChannelInv, hr]

theorem channelInv_step {i : Instr} {b : BitClock} {hlen : Nat} {c : Chan} {k k' : Channel}
    (hs : ChanStep i b hlen c k k') (h : ChannelInv c k) : ChannelInv c k' := by
  rcases hr : c.role with _ | _
  · rw [channelInv_sensor hr] at *
    exact sensorInv_step hs hr h
  · rw [channelInv_host hr] at *
    exact hostInv_step hs hr h

/-! ### The frame invariant -/

theorem frameInv_sensor {c : Chan} (hr : c.role = .sensor) (k : Channel) :
    FrameInv c k ↔ (∀ i, i < k.cur.toNat → bufGet k.buf i ≠ none) ∧
      (k.done = true → k.ovf = false → bufGet k.buf (k.cur.toNat - 1) = some Config.sentinel ∧ 0 < k.cur.toNat) := by
  simp [FrameInv, hr]

theorem frameInv_host {c : Chan} (hr : c.role = .host) (k : Channel) :
    FrameInv c k ↔
      (k.ovf = false → ∀ i, i < k.count.toNat → bufGet k.buf ((k.fstart.toNat + i) % 32) ≠ none) := by
  simp [FrameInv, hr]

/-- An empty frame has no slot. -/
theorem frameInv_of_empty {k : Channel} (hcur : k.cur = 0#5) (hcount : k.count = 0#8) (hd : k.done = false) (c : Chan) :
    FrameInv c k := by
  cases hr : c.role
  · simp [frameInv_sensor hr, hcur, hd]
  · simp [frameInv_host hr, hcount]

/-- The byte a sensor channel commits is the next of the frame, and the last if it is the sentinel (R162, R174). -/
theorem frameInv_finalize_sensor {c : Chan} {k : Channel} (hr : c.role = .sensor) (hd : k.done = false)
    (h : FrameInv c k) : FrameInv c (finalize c k) := by
  rw [frameInv_sensor hr] at *
  obtain ⟨hslots, -⟩ := h
  simp only [finalize, commit_sensor_eq hr, hd, Bool.false_or]
  by_cases hlt : k.cur.toNat < 16
  · simp only [hlt, if_true, cursor_succ_toNat, bufGet_bufSet]
    rw [Nat.mod_eq_of_lt (by omega)]
    refine ⟨fun i hi => ?_, fun hs _ => ?_⟩
    · split
      · simp
      · exact hslots i (by omega)
    · simp only [Bool.and_eq_true, beq_iff_eq] at hs
      simp [hs.2]
  · simpa [hlt] using hslots

/-- The byte the host channel commits stands behind the unconsumed ones (R163). -/
theorem frameInv_finalize_host {c : Chan} {k : Channel} (hr : c.role = .host) (hi : HostInv k)
    (h : FrameInv c k) : FrameInv c (finalize c k) := by
  rw [frameInv_host hr] at *
  obtain ⟨-, -, -, hring⟩ := hi
  simp only [finalize, commit_host_eq hr, Bool.or_eq_false_iff, sat8Succ_toNat, bufGet_bufSet]
  rintro ⟨ho, -⟩ i hlt
  obtain ⟨-, hat⟩ := hring ho
  split
  · simp
  · rename_i hne
    refine h ho i (Nat.lt_of_le_of_ne (by omega) ?_)
    rintro rfl
    exact hne hat.symm

/-- What is left after an ACK was in the frame before it (R169). -/
theorem frameInv_consume {n : Nat} {c : Chan} {k : Channel} (hr : c.role = .host) (hn : n ≤ k.count.toNat)
    (h : FrameInv c k) : FrameInv c (k.consume n) := by
  rw [frameInv_host hr] at *
  intro ho i hi
  rw [consume_count_toNat hn] at hi
  have hslot : ((k.consume n).fstart.toNat + i) % 32 = (k.fstart.toNat + (n + i)) % 32 := by
    rw [consume_fstart_toNat]; omega
  rw [hslot]
  exact h ho (n + i) (by omega)

theorem frameInv_step {i : Instr} {b : BitClock} {hlen : Nat} {c : Chan} {k k' : Channel}
    (hs : ChanStep i b hlen c k k') (hk : ChannelInv c k) (h : FrameInv c k) : FrameInv c k' := by
  cases hs with
  | arm => exact frameInv_of_empty rfl rfl rfl c
  | reset => exact frameInv_of_empty rfl rfl rfl c
  | ack _ hr hn => exact frameInv_consume hr hn h
  | finish lv _ _ hp =>
    rcases hr : c.role with _ | _
    · exact frameInv_finalize_sensor hr (done_eq_false_of_receiving ((channelInv_sensor hr k).1 hk) (by simp [hp])) h
    · exact frameInv_finalize_host hr ((channelInv_host hr k).1 hk) h
  | roll _ hr =>
    rw [rollChannel_eq]
    simpa only [frameInv_sensor hr] using h
  | _ => exact h

/-! ### The decoder registers -/

/-- The digits of an accepted frame: at most four of soil and three of temperature (42_sensor_decoder R203). -/
theorem formatOk_digits {f soil temp : List Byte} {ovf : Bool} (h : formatOk f ovf = some (soil, temp)) :
    (soil.all isDigit = true ∧ soil.length ≤ 4) ∧ temp.all isDigit = true ∧ temp.length ≤ 3 := by
  simp only [formatOk, Option.ite_none_left_eq_some] at h
  obtain ⟨-, -, -, h⟩ := h
  split at h
  · cases h
  · simp only [Option.ite_none_left_eq_some, Option.some.injEq, Prod.mk.injEq, not_not] at h
    obtain ⟨hsp, hsoil, -, hlen, htemp, rfl, rfl⟩ := h
    exact ⟨⟨hsoil, (List.length_take_le _ _).trans hsp.2⟩, htemp, (List.length_take_le _ _).trans hlen.2⟩

/-- A digit string of at most `n` digits has a value below `10 ^ n`. -/
theorem decimal_lt_of_length_le {l : List Byte} {n : Nat} (h : l.all isDigit = true) (hn : l.length ≤ n) :
    decimal l < 10 ^ n :=
  (decimal_lt l h).trans_le (Nat.pow_le_pow_right (by decide) hn)

theorem soilOf_toNat {ds : List Byte} (h : decimal ds < 10 ^ 4) : (soilOf ds).toNat = 2 * decimal ds := by
  rw [soilOf, BitVec.toNat_ofNat]
  omega

theorem tempOf_toNat {v : Nat} (h : v < 10 ^ 3) : (tempOf v).toNat = if v < 400 then 400 - v else v - 400 := by
  unfold tempOf
  split <;> rw [BitVec.toNat_ofNat] <;> omega

theorem tnegOf_eq_true {v : Nat} : tnegOf v = true ↔ v < 400 := by simp [tnegOf]

/-- Twice a four-digit value, and a three-digit value less 400, are in the ranges of R204, R205 and R211. -/
theorem decInv_decodeFrame {c : Chan} (hr : c.role = .sensor) (f : List Byte) (ovf : Bool) :
    DecInv (decodeFrame c f ovf) := by
  have hch : (BitVec.ofNat 3 c.num).toNat < 4 := by
    revert hr
    cases c <;> decide
  unfold decodeFrame
  rcases hf : formatOk f ovf with _ | ⟨soil, temp⟩
  · exact ⟨hch, by simp, by simp, by simp, nofun, fun _ => ⟨rfl, rfl, rfl⟩, nofun⟩
  · obtain ⟨⟨hs, hsl⟩, ht, htl⟩ := formatOk_digits hf
    have hsoil := decimal_lt_of_length_le hs hsl
    have htemp := decimal_lt_of_length_le ht htl
    simp only [DecInv, soilOf_toNat hsoil, tempOf_toNat htemp, tnegOf_eq_true]
    refine ⟨hch, by omega, by omega, by split <;> omega, fun hneg => ?_, nofun, nofun⟩
    rw [if_pos hneg]
    omega

@[simp] theorem armOn_dec (s : State) (c : Chan) : (armOn s c).dec = s.dec := by
  unfold armOn
  split <;> simp

@[simp] theorem ackOn_dec (s : State) (c : Chan) : (ackOn s c).dec = s.dec := by
  unfold ackOn
  split
  · rfl
  · split <;> simp

@[simp] theorem clrevOn_dec (s : State) (c : Chan) : (clrevOn s c).dec = s.dec := by simp [clrevOn]

@[simp] theorem edgeOn_dec (s : State) (c : Chan) : (edgeOn s c).dec = s.dec := by
  unfold edgeOn
  split <;> simp

/-- What an instruction does to the decoder registers: RESET clears them, an accepted DECODE writes the frame's values;
nothing else writes them (10_state R51). -/
theorem exec_dec {i : Instr} {s t : State} (h : exec i s = .next t) :
    t.dec = s.dec ∨ (i = .reset ∧ t.dec = Dec.reset) ∨
    ∃ c f, c.role = .sensor ∧ i = .decode c.nibble ∧ (s.ch c).done = true ∧
      t.dec = decodeFrame c f (s.ch c).ovf ∧ t.resp = some ⟨.ok, t.dec.flagsWord⟩ := by
  cases i with
  | arm x => cases h; exact .inl (onChan_keeps State.dec (armOn_dec s) rfl)
  | ack x => cases h; exact .inl (onChan_keeps State.dec (ackOn_dec s) rfl)
  | clrev x => cases h; exact .inl (onChan_keeps State.dec (clrevOn_dec s) rfl)
  | decode x =>
    rcases execDecode_cases x s with ⟨c, rfl, hx⟩ | ⟨-, hx⟩
    · rcases decodeOn_cases s c with ⟨-, hd⟩ | ⟨-, -, hd⟩ | ⟨-, -, -, hd⟩ | ⟨f, hr, hdone, -, hd⟩ <;>
        (rw [exec, hx, hd] at h; cases h)
      · exact .inl rfl
      · exact .inl rfl
      · exact .inr (.inr ⟨c, f, hr, rfl, hdone, rfl, rfl⟩)
    · rw [exec, hx] at h; cases h; exact .inl rfl
  | edge x =>
    rcases execEdge_cases x s with ⟨c, -, hx⟩ | ⟨-, hx⟩ <;> (rw [exec, hx] at h; cases h)
    exact .inl (edgeOn_dec s c)
  | bclk lv =>
    rcases hb : s.bclk with _ | _ | _ <;> simp only [exec, execBclk, hb] at h <;> cases h
    · exact .inl rfl
    · exact .inl (align_dec s)
    · exact .inl (tickIn_dec _ lv s)
  | roll => cases h; exact .inl (State.visit_dec _ _ s)
  | reset => cases h; exact .inr (.inl ⟨rfl, rfl⟩)
  | _ =>
    obtain ⟨r, d, rfl⟩ := exec_read_next h rfl fun c => by simp
    exact .inl rfl

/-- Settles O46: the two writers of the decoder registers, from `exec_dec`. -/
theorem onlyDecodeAndResetWriteTheResults : Obligations.OnlyDecodeAndResetWriteTheResults := by
  intro i s t h hne
  rcases exec_dec h with hk | ⟨hi, -⟩ | ⟨c, f, hr, hi, hdone, -, hresp⟩
  · exact absurd hk hne
  · exact .inl hi
  · exact .inr ⟨c, _, hr, hi, hdone, hresp⟩

theorem decInv_reset : DecInv Dec.reset := by unfold DecInv; decide

theorem decInv_exec {i : Instr} {s t : State} (h : exec i s = .next t) (hs : DecInv s.dec) : DecInv t.dec := by
  rcases exec_dec h with hk | ⟨-, hk⟩ | ⟨c, f, hr, -, -, hk, -⟩ <;> rw [hk]
  · exact hs
  · exact decInv_reset
  · exact decInv_decodeFrame hr f _

/-! ### The invariant of the state -/

/-- The invariant reads the channels, the BitClock and the decoder registers only. -/
theorem stateInv_congr {s t : State} (h : StateInv s) (hc : ∀ c, t.ch c = s.ch c) (hb : t.bclk = s.bclk)
    (hd : t.dec = s.dec) : StateInv t := by
  obtain ⟨hclock, hchan, hframe, hmem, hdec⟩ := h
  refine ⟨clockInv_congr hclock hb fun c => by simp [hc c], fun c => hc c ▸ hchan c, fun c => hc c ▸ hframe c, ?_,
    hd ▸ hdec⟩
  rw [Memory.wf_iff] at *
  exact fun c => hc c ▸ hmem c

theorem stateInv_exec {i : Instr} {s t : State} (h : exec i s = .next t) (hs : StateInv s) : StateInv t := by
  obtain ⟨hclock, hchan, hframe, hmem, hdec⟩ := hs
  exact ⟨clockInv_exec h hclock, fun c => channelInv_step (exec_chanStep h c) (hchan c),
    fun c => frameInv_step (exec_chanStep h c) (hchan c) (hframe c), Memory.wf_exec h hmem, decInv_exec h hdec⟩

/-- Settles O52: taking the word and answering a malformed one touch nothing the invariant reads, and each part of it is
kept by every instruction. -/
theorem everyStepKeepsTheInvariant : Obligations.EveryStepKeepsTheInvariant := by
  intro s t hs h
  rcases step_cases s with ⟨-, hstep⟩ | ⟨w, rest, -, hword⟩
  · rw [hstep] at h; cases h; exact hs
  · have htaken : StateInv { s with input := rest, resp := none } :=
      stateInv_congr hs (fun c => by cases c <;> rfl) rfl rfl
    rcases hword with ⟨i, -, hstep⟩ | ⟨e, -, hstep⟩ <;> rw [hstep] at h
    · exact stateInv_exec h htaken
    · rcases malformed_cases e { s with input := rest, resp := none } with hm | hm <;> (rw [hm] at h; cases h)
      exact stateInv_congr htaken (State.reject_ch _ _) rfl rfl

/-! ### The reset state -/

/-- At power-up the five channels are alike (R55). -/
@[simp] theorem reset_ch (c : Chan) : State.reset.ch c = Channel.reset := by cases c <;> rfl

/-- Settles O31: every channel is `Channel.reset`, and the fields are its text. -/
theorem powerUpStateHasTheResetValues : Obligations.PowerUpStateHasTheResetValues := by
  refine ⟨fun c => ?_, rfl, rfl, rfl, rfl, rfl, rfl, rfl, rfl⟩
  rw [reset_ch]
  decide

theorem channelInv_reset (c : Chan) : ChannelInv c Channel.reset := by
  cases hr : c.role
  · simp [channelInv_sensor hr, SensorInv, Channel.reset]
  · simp [channelInv_host hr, HostInv, Channel.reset]

/-- Settles O51: the clock stands still, every channel's frame is empty, and the registers are zero. -/
theorem resetStateMeetsTheInvariant : Obligations.ResetStateMeetsTheInvariant := by
  refine ⟨clockInv_of_stopped rfl fun c => ?_, fun c => ?_, fun c => ?_, Memory.wf_reset, decInv_reset⟩ <;>
    rw [reset_ch]
  · rfl
  · exact channelInv_reset c
  · exact frameInv_of_empty rfl rfl rfl c

end Sys2Proof.Proofs

/-! The statements of 20_memory: a step runs one word (R77), the read commands have no side effects (R79), and only a
commit writes a buffer (R71). -/

namespace Sys2Proof.Proofs

open Sys2Proof Sys2Proof.Machine

/-! ### One word is one step -/

/-- Settles O1: `step` takes the head of the waiting words and runs what it decodes to. -/
theorem stepRunsTheDecodedInstruction : Obligations.StepRunsTheDecodedInstruction := by
  intro s w rest i hs hw
  simp only [step, State.take_cons hs, hw]

/-! ### The writer of the buffers -/

/-- A commit writes the byte to slot `cur`, where the buffer has that slot; the host ring always has it (R162, R163). -/
theorem commit_buf (c : Chan) (b : Byte) (k : Channel) :
    (commit c b k).buf = if k.cur.toNat < c.cap then (k.bufWrite k.cur.toNat b).buf else k.buf := by
  cases hr : c.role with
  | sensor => rw [commit_sensor_eq hr, Chan.cap_sensor hr]; rfl
  | host => rw [commit_host_eq hr, Chan.cap_host hr, if_pos k.cur.isLt]; rfl

theorem bufRead_finalize (c : Chan) (k : Channel) (n : Nat) :
    bufRead c (finalize c k) n = if n = k.cur.toNat ∧ n < c.cap then some k.shift else bufRead c k n := by
  have hbuf : (finalize c k).buf = (commit c k.shift k).buf := rfl
  rw [commit_buf] at hbuf
  by_cases hcur : k.cur.toNat < c.cap
  · rw [if_pos hcur] at hbuf
    rw [bufRead_congr hbuf]
    simp only [bufRead, slotByte_bufWrite]
    by_cases hn : n = k.cur.toNat <;> simp [hn, hcur]
  · rw [if_neg hcur] at hbuf
    rw [bufRead_congr hbuf, if_neg (by omega)]

/-- The buffer of a channel is kept by all that an instruction can do to it, but for the end of a byte. -/
theorem chanStep_buf {i : Instr} {b : BitClock} {hlen : Nat} {c : Chan} {k k' : Channel}
    (hs : ChanStep i b hlen c k k') :
    k'.buf = k.buf ∨
    ((∃ lv, i = .bclk lv) ∧ b = .run ∧ k.phase = .recv ∧ k.bits = 0#4 ∧ k' = finalize c k) := by
  cases hs with
  | finish lv hi hb hp hz => exact .inr ⟨⟨lv, hi⟩, hb, hp, hz, rfl⟩
  | roll => rw [rollChannel_eq]; exact .inl rfl
  | _ => exact .inl rfl

/-- Settles O45: only the end of a byte writes a buffer, and it changes no slot but `cur`. -/
theorem onlyACommitWritesABuffer : Obligations.OnlyACommitWritesABuffer := by
  intro i c n s t h hne
  rcases chanStep_buf (exec_chanStep h c) with hbuf | ⟨hi, hb, hp, hz, hfin⟩
  · exact absurd (bufRead_congr hbuf n) hne
  · rw [hfin, bufRead_finalize] at hne ⊢
    by_cases hslot : n = (s.ch c).cur.toNat ∧ n < c.cap
    · rw [if_pos hslot]
      exact ⟨hi, hb, hp, hz, hslot.1, hslot.2, rfl⟩
    · exact absurd (if_neg hslot) hne

/-! ### The read commands -/

/-- What the response port shows is no input of a read command, and the answer replaces it. -/
theorem exec_read_respond {i : Instr} (hc : i.isCommand = true)
    (hi : ∀ c, i ≠ .arm c ∧ i ≠ .ack c ∧ i ≠ .clrev c ∧ i ≠ .decode c) (s : State) (r : Rsp) (d : Word) :
    exec i (s.respond r d) = exec i s := by
  cases i with
  | arm c => exact absurd rfl (hi c).1
  | ack c => exact absurd rfl (hi c).2.1
  | clrev c => exact absurd rfl (hi c).2.2.1
  | decode c => exact absurd rfl (hi c).2.2.2
  | edge _ | bclk _ | roll | reset => cases hc
  | _ => rfl

/-- Settles O47: a read command leads to its answer on the same state, and from there to that state again. -/
theorem readCommandsHaveNoSideEffects : Obligations.ReadCommandsHaveNoSideEffects := by
  intro i s t hc hi h
  obtain ⟨r, d, rfl⟩ := exec_read_next h hc hi
  have again : exec i (s.respond r d) = .next (s.respond r d) := (exec_read_respond hc hi s r d).trans h
  exact ⟨OnlyResponse.respond s r d, _, again, rfl, fun _ => rfl, rfl, rfl, rfl, rfl⟩

end Sys2Proof.Proofs

/-! The statements of 30_encoding: the round trips of the two decoders (R90 to R94, R99, R100), the malformed words of
either port (R95, R96, R104), and the words of the assembler (R106, R107). -/

namespace Sys2Proof.Proofs

open Sys2Proof Sys2Proof.Machine

/-! ### Encode, then decode -/

/-- The decoder reads every field of an encoded word back whole, and the encoder leaves every other field zero. -/
theorem decode_encode {i : Instr} (h : i.wf = true) : decode (encode i) = .ok i := by
  cases i with
  | edge c =>
    have hc : c.toNat < 5 := of_decide_eq_true h
    rw [encode, evt16, decode, decodeEvt, opField_evt, chField_evt, zeroField_evt, lvField_evt]
    exact if_pos hc
  | bclk lv => rw [encode, evt16, decode, decodeEvt, opField_evt, chField_evt, zeroField_evt, lvField_evt]; rfl
  | roll | reset => rfl
  | _ => rw [encode, cmd16, decode, decodeCmd, opField_cmd, chField_cmd, immField_cmd]; rfl

/-- Settles O3, constructor by constructor from the fields of the encoded word. -/
theorem decodeOfEncodeGivesTheInstruction : Obligations.DecodeOfEncodeGivesTheInstruction :=
  fun _ => decode_encode

/-! ### Decode, then encode -/

theorem ifZero_eq_ok {ok : Bool} {i j : Instr} : ifZero ok i = .ok j ↔ ok = true ∧ i = j := by
  cases ok <;> simp [ifZero]

theorem ifClean_eq_ok {ok : Bool} {i j : Instr} : ifClean ok i = .ok j ↔ ok = true ∧ i = j := by
  cases ok <;> simp [ifClean]

/-- A command word is its `OP` digit, `CH` and `IMM`. -/
theorem cmd16_eq_cmd {w : Word} {op c : BitVec 4} {imm : BitVec 8} (hop : (opField w).toNat = op.toNat)
    (hc : chField w = c) (himm : immField w = imm) : cmd16 op c imm = .cmd w := by
  rw [cmd16, ← BitVec.eq_of_toNat_eq hop, ← hc, ← himm, cmd_fields]

/-- An event word with bits 7:5 zero is its `KIND` digit, `CH` and `LV`. -/
theorem evt16_eq_evt {w : Word} {kind c : BitVec 4} {lv : BitVec 5} (hkind : (opField w).toNat = kind.toNat)
    (hc : chField w = c) (hzero : zeroField w = 0#3) (hlv : lvField w = lv) : evt16 kind c lv = .evt w := by
  rw [evt16, ← BitVec.eq_of_toNat_eq hkind, ← hc, ← hlv, evt_fields w hzero]

theorem encode_of_decodeCmd {w : Word} {i : Instr} (h : decodeCmd w = .ok i) : i.wf = true ∧ encode i = .cmd w := by
  simp only [decodeCmd] at h
  split at h <;> rename_i hop
  case h_1 | h_12 =>
    obtain ⟨hzero, rfl⟩ := ifZero_eq_ok.1 h
    obtain ⟨hc, himm⟩ := Bool.and_eq_true_iff.1 hzero
    exact ⟨rfl, cmd16_eq_cmd hop (eq_of_beq hc) (eq_of_beq himm)⟩
  case h_6 =>
    cases h
    exact ⟨rfl, cmd16_eq_cmd hop rfl rfl⟩
  case h_11 =>
    obtain ⟨hc, rfl⟩ := ifZero_eq_ok.1 h
    exact ⟨rfl, cmd16_eq_cmd hop (eq_of_beq hc) rfl⟩
  case h_13 => cases h
  all_goals
    obtain ⟨himm, rfl⟩ := ifZero_eq_ok.1 h
    exact ⟨rfl, cmd16_eq_cmd hop rfl (eq_of_beq himm)⟩

theorem encode_of_decodeEvt {w : Word} {i : Instr} (h : decodeEvt w = .ok i) : i.wf = true ∧ encode i = .evt w := by
  simp only [decodeEvt] at h
  split at h <;> rename_i hkind
  case h_1 =>
    split at h
    · simp only [ifClean_eq_ok, Bool.and_eq_true, beq_iff_eq] at h
      obtain ⟨⟨hzero, hlv⟩, rfl⟩ := h
      exact ⟨decide_eq_true ‹_›, evt16_eq_evt hkind rfl hzero hlv⟩
    · cases h
  case h_2 =>
    simp only [ifClean_eq_ok, Bool.and_eq_true, beq_iff_eq] at h
    obtain ⟨⟨hc, hzero⟩, rfl⟩ := h
    exact ⟨rfl, evt16_eq_evt hkind hc hzero rfl⟩
  case h_5 => cases h
  all_goals
    simp only [ifClean_eq_ok, Bool.and_eq_true, beq_iff_eq] at h
    obtain ⟨⟨⟨hc, hzero⟩, hlv⟩, rfl⟩ := h
    exact ⟨rfl, evt16_eq_evt hkind hc hzero hlv⟩

/-- Settles O4: each row of either table fixes every field of its word. -/
theorem decodedWordIsTheEncoding : Obligations.DecodedWordIsTheEncoding
  | .cmd _, _, h => encode_of_decodeCmd h
  | .evt _, _, h => encode_of_decodeEvt h

/-! ### Malformed words -/

theorem step_of_decode_error {s : State} {w : PortWord} {rest : List PortWord} {e : DecodeError}
    (hs : s.input = w :: rest) (hw : decode w = .error e) :
    step s = malformed e { s with input := rest, resp := none } := by
  simp only [step, State.take_cons hs, hw]

theorem ifZero_eq_error {ok : Bool} {i : Instr} {e : DecodeError} (h : ifZero ok i = .error e) : e = .mustBeZero := by
  cases ok <;> cases h
  rfl

theorem ifClean_eq_error {ok : Bool} {i : Instr} {e : DecodeError} (h : ifClean ok i = .error e) : e = .strayBits := by
  cases ok <;> cases h
  rfl

/-- The command port rejects a word only to answer it BADOP (R95, R96). -/
theorem malformed_cmd {w : Word} {e : DecodeError} (h : decode (.cmd w) = .error e) (s : State) :
    malformed e s = .next (s.reject .badOp) := by
  simp only [decode, decodeCmd] at h
  split at h
  case h_6 => cases h
  case h_13 => cases h; rfl
  all_goals rw [ifZero_eq_error h]; rfl

/-- The event port rejects a word only to refuse it (R104). -/
theorem malformed_evt {w : Word} {e : DecodeError} (h : decode (.evt w) = .error e) (s : State) :
    malformed e s = .refused .noSuchEvent := by
  simp only [decode, decodeEvt] at h
  split at h
  case h_1 =>
    split at h
    · rw [ifClean_eq_error h]; rfl
    · cases h; rfl
  case h_5 => cases h; rfl
  all_goals rw [ifClean_eq_error h]; rfl

/-- Which command words are malformed, read off the fields. -/
theorem badOpWord_append (op c : BitVec 4) (imm : BitVec 8) :
    badOpWord (op ++ c ++ imm) = decide (12 ≤ op.toNat ∨
      ((op.toNat = 0 ∨ op.toNat = 11) ∧ ¬(c.toNat = 0 ∧ imm.toNat = 0)) ∨ (op.toNat = 10 ∧ c.toNat ≠ 0) ∨
      (op.toNat ∈ [1, 2, 3, 4, 6, 7, 8, 9] ∧ imm.toNat ≠ 0)) := by
  have := c.isLt
  have := imm.isLt
  have hlow : (op ++ c ++ imm : Word).toNat % 4096 ≠ 0 ↔ ¬(c.toNat = 0 ∧ imm.toNat = 0) := by rw [cmd_toNat]; omega
  simp only [badOpWord, Laws.WordFields.cmd_digit, hlow, ← chField_toNat, ← immField_toNat, chField_cmd, immField_cmd]

/-- No command's word is malformed. -/
theorem badOpWord_of_encode {i : Instr} {w : Word} (h : encode i = .cmd w) : badOpWord w = false := by
  cases i with
  | edge _ | bclk _ | roll | reset => cases h
  | _ => cases h; rw [badOpWord_append]; simp

/-- Settles O6: a malformed word decodes to no instruction, since it would be that instruction's word. -/
theorem malformedCommandAnswersBadOp : Obligations.MalformedCommandAnswersBadOp := by
  intro s w rest hbad hs
  cases hw : decode (.cmd w) with
  | ok i => exact absurd hbad (by rw [badOpWord_of_encode (decodedWordIsTheEncoding _ _ hw).2]; decide)
  | error e =>
    refine ⟨_, (step_of_decode_error hs hw).trans (malformed_cmd hw _), rfl, fun c => ?_, rfl, rfl, rfl, rfl⟩
    cases c <;> rfl

/-! ### Event words -/

theorem isCmd_encode (i : Instr) : PortWord.isCmd (encode i) = i.isCommand := by cases i <;> rfl

/-- The word of an event names an event. -/
theorem namesEvent_of_encode {i : Instr} {w : Word} (hwf : i.wf = true) (h : encode i = .evt w) :
    namesEvent w = true := by
  cases i with
  | edge c => cases h; revert c; decide
  | bclk lv => cases h; revert lv; decide
  | roll | reset => cases h; decide
  | _ => cases h

/-- Every word that names an event is the word of one: the lines 0 to 4, ROLL and RESET by name, BCLK by its levels. -/
theorem exists_encode_of_namesEvent {w : Word} (h : namesEvent w = true) :
    ∃ i : Instr, i.wf = true ∧ encode i = .evt w := by
  have hw : ∀ {v : Word}, w.toNat = v.toNat → PortWord.evt v = .evt w := fun h =>
    congrArg PortWord.evt (BitVec.eq_of_toNat_eq h.symm)
  simp only [namesEvent, decide_eq_true_eq, List.mem_cons, List.not_mem_nil, or_false] at h
  rcases h with (h | h | h | h | h | h | h) | ⟨hlo, hhi⟩
  · exact ⟨.edge 0, rfl, hw h⟩
  · exact ⟨.edge 1, rfl, hw h⟩
  · exact ⟨.edge 2, rfl, hw h⟩
  · exact ⟨.edge 3, rfl, hw h⟩
  · exact ⟨.edge 4, rfl, hw h⟩
  · exact ⟨.roll, rfl, hw h⟩
  · exact ⟨.reset, rfl, hw h⟩
  · have hkind : (opField w).toNat = 2 := by rw [opField_toNat]; omega
    have hc : (chField w).toNat = 0 := by rw [chField_toNat]; omega
    have hzero : (zeroField w).toNat = 0 := by rw [zeroField_toNat]; omega
    exact ⟨.bclk (lvField w), rfl,
      evt16_eq_evt hkind (BitVec.eq_of_toNat_eq hc) (BitVec.eq_of_toNat_eq hzero) rfl⟩

theorem edgeOn_resp (s : State) (c : Chan) : (edgeOn s c).resp = s.resp := by
  rcases edgeOn_cases s c with ⟨-, -, h⟩ | ⟨-, h⟩ <;> rw [h]
  exact State.modCh_resp s c _

/-- An event is a step that leaves the response port alone (R97, 60_exceptions R274). -/
theorem exec_event {i : Instr} (hevent : i.isCommand = false) (hwf : i.wf = true) (s : State) :
    ∃ t, exec i s = .next t ∧ t.resp = s.resp := by
  cases i with
  | edge x =>
    rcases execEdge_cases x s with ⟨c, -, hx⟩ | ⟨hx5, -⟩
    · exact ⟨_, hx, edgeOn_resp s c⟩
    · exact absurd (of_decide_eq_true hwf) (Nat.not_lt.2 hx5)
  | bclk lv =>
    cases hb : s.bclk <;> simp only [exec, execBclk, hb]
    · exact ⟨_, rfl, rfl⟩
    · exact ⟨_, rfl, align_resp s⟩
    · exact ⟨_, rfl, tickIn_resp _ lv s⟩
  | roll => exact ⟨_, rfl, State.visit_resp _ _ s⟩
  | reset => exact ⟨_, rfl, State.visit_resp _ _ s⟩
  | _ => cases hevent

/-- Settles O7: the event words that decode are those that name an event, and each event is a step without a
response. -/
theorem onlyWordsThatNameNoEventAreRefused : Obligations.OnlyWordsThatNameNoEventAreRefused := by
  refine ⟨fun s w rest hs hnone => ?_, fun s w rest hs hnames => ?_, fun s c hc => ?_⟩
  · cases hw : decode (.evt w) with
    | ok i =>
      obtain ⟨hwf, henc⟩ := decodedWordIsTheEncoding _ _ hw
      exact absurd (namesEvent_of_encode hwf henc) (by rw [hnone]; decide)
    | error e => exact (step_of_decode_error hs hw).trans (malformed_evt hw _)
  · obtain ⟨i, hwf, henc⟩ := exists_encode_of_namesEvent hnames
    have hevent : i.isCommand = false := by rw [← isCmd_encode, henc]; rfl
    obtain ⟨t, ht, hresp⟩ := exec_event hevent hwf { s with input := rest, resp := none }
    exact ⟨t, (stepRunsTheDecodedInstruction s _ rest i hs (henc ▸ decode_encode hwf)).trans ht, hresp, exec_input ht⟩
  · rcases execEdge_cases c s with ⟨d, rfl, -⟩ | ⟨-, hx⟩
    · exact absurd d.toNat_nibble_lt (Nat.not_lt.2 hc)
    · exact hx

/-! ### The assembler -/

/-- The operands the assembler lets through: a channel that exists, an index below its capacity, a selector that names a
register (R106). -/
def OperandsInRange : Instr → Prop
  | .arm x | .ack x | .clrev x | .decode x | .rdstat x | .rdcnt x | .rdptr x | .rdlast x | .edge x =>
    ∃ c : Chan, x = c.nibble
  | .rdbuf x idx => ∃ c : Chan, x = c.nibble ∧ idx.toNat < c.cap
  | .rddec sel => sel.toNat < 3
  | .nop | .rdglb | .bclk _ | .roll | .reset => True

theorem asmChan_eq_some {a : AsmChan} {f : BitVec 4 → Instr} {i : Instr} (h : asmChan a f = some i) :
    ∃ c : Chan, i = f c.nibble := by
  obtain ⟨c, -, rfl⟩ := Option.map_eq_some_iff.1 h
  exact ⟨c, rfl⟩

theorem operandsInRange_of_line {a : AsmLine} {i : Instr} (h : a.instr = some i) : OperandsInRange i := by
  cases a with
  | nop | rdglb | bclk _ | roll | reset => cases h; trivial
  | rdbuf a idx =>
    obtain ⟨c, -, hc⟩ := Option.bind_eq_some_iff.1 h
    split at hc <;> cases hc
    exact ⟨c, rfl, lt_of_le_of_lt (Nat.mod_le _ _) ‹_›⟩
  | rddec sel =>
    simp only [AsmLine.instr] at h
    split at h <;> cases h
    exact lt_of_le_of_lt (Nat.mod_le _ _) ‹_›
  | _ =>
    obtain ⟨c, rfl⟩ := asmChan_eq_some h
    exact ⟨c, rfl⟩

theorem OperandsInRange.wf {i : Instr} (h : OperandsInRange i) : i.wf = true := by
  cases i with
  | edge x => obtain ⟨c, rfl⟩ := h; exact decide_eq_true c.toNat_nibble_lt
  | _ => rfl

/-- The response port does not blame the word: it shows no BADCH, BADIDX or BADOP. -/
def BlamesNoOperand (t : State) : Prop :=
  ∀ r d, t.resp = some ⟨r, d⟩ → r ≠ .badCh ∧ r ≠ .badIdx ∧ r ≠ .badOp

theorem blamesNoOperand_respond (s : State) (d : Word) {r : Rsp} (h : r ≠ .badCh ∧ r ≠ .badIdx ∧ r ≠ .badOp) :
    BlamesNoOperand (s.respond r d) := by
  rintro _ _ ⟨⟩
  exact h

theorem blamesNoOperand_armOn (s : State) (c : Chan) : BlamesNoOperand (armOn s c) := by
  unfold armOn
  split <;> exact blamesNoOperand_respond _ _ (by decide)

theorem blamesNoOperand_ackOn (s : State) (c : Chan) : BlamesNoOperand (ackOn s c) := by
  unfold ackOn
  split
  · exact blamesNoOperand_respond _ _ (by decide)
  · split <;> exact blamesNoOperand_respond _ _ (by decide)

theorem blamesNoOperand_decodeOn {s t : State} {c : Chan} (h : decodeOn s c = .next t) : BlamesNoOperand t := by
  rcases decodeOn_cases s c with ⟨-, hd⟩ | ⟨-, -, hd⟩ | ⟨-, -, -, hd⟩ | ⟨f, -, -, -, hd⟩ <;> (rw [hd] at h; cases h) <;>
    exact blamesNoOperand_respond _ _ (by decide)

theorem ofSelector_of_lt {sel : BitVec 8} (h : sel.toNat < 3) : ∃ r, DecReg.ofSelector sel = some r := by
  have hsel : sel.toNat = 0 ∨ sel.toNat = 1 ∨ sel.toNat = 2 := by omega
  rcases hsel with hsel | hsel | hsel <;> simp [DecReg.ofSelector, hsel]

/-- With its operands in range a command is refused for the state only, and an event is not answered at all. -/
theorem blamesNoOperand_exec {i : Instr} {s t : State} (hi : OperandsInRange i) (hs : s.resp = none)
    (h : exec i s = .next t) : BlamesNoOperand t := by
  have event : i.isCommand = false → BlamesNoOperand t := fun hevent r d hr => by
    obtain ⟨u, hu, hresp⟩ := exec_event hevent hi.wf s
    rw [hu] at h
    cases h
    rw [hresp, hs] at hr
    cases hr
  have on : ∀ {c : Chan} {f : Chan → State}, t = onChan c.nibble s f → BlamesNoOperand (f c) → BlamesNoOperand t :=
    fun ht hf => by rwa [ht, onChan_nibble]
  cases i with
  | nop | rdglb => cases h; exact blamesNoOperand_respond _ _ (by decide)
  | arm x =>
    obtain ⟨c, rfl⟩ := hi
    exact on (Host.Outcome.next.inj h).symm (blamesNoOperand_armOn s c)
  | ack x =>
    obtain ⟨c, rfl⟩ := hi
    exact on (Host.Outcome.next.inj h).symm (blamesNoOperand_ackOn s c)
  | decode x =>
    obtain ⟨c, rfl⟩ := hi
    rw [exec, execDecode, Chan.ofNibble_nibble] at h
    exact blamesNoOperand_decodeOn h
  | rdbuf x idx =>
    obtain ⟨c, rfl, hidx⟩ := hi
    rw [exec, execRdbuf, Chan.ofNibble_nibble] at h
    simp only [rdbufOn_eq, if_pos hidx] at h
    cases h
    exact blamesNoOperand_respond _ _ (by decide)
  | rddec sel =>
    obtain ⟨r, hr⟩ := ofSelector_of_lt hi
    rw [exec, execRddec, hr] at h
    cases h
    exact blamesNoOperand_respond _ _ (by decide)
  | edge _ | bclk _ | roll | reset => exact event rfl
  | _ =>
    obtain ⟨c, rfl⟩ := hi
    exact on (Host.Outcome.next.inj h).symm (blamesNoOperand_respond _ _ (by decide))

/-- Settles O8: the assembler's word decodes to the line's instruction, whose operands are in range. -/
theorem assembledWordsAreNeverMalformed : Obligations.AssembledWordsAreNeverMalformed := by
  intro a w s t rest ha hs h
  obtain ⟨i, hline, rfl⟩ := Option.map_eq_some_iff.1 ha
  have hi := operandsInRange_of_line hline
  rw [stepRunsTheDecodedInstruction s _ rest i hs (decode_encode hi.wf)] at h
  exact blamesNoOperand_exec hi rfl h

end Sys2Proof.Proofs

/-! The statements of 40_receive_engine: ARM (R120), EDGE (R121), the three cases of BCLK (R122 to R129), the byte that
RXBYTE delivers (R132), and what can disarm a channel (R131). -/

namespace Sys2Proof.Proofs

open Sys2Proof Sys2Proof.Machine

/-! ### ARM -/

/-- The BADOP clause of a command, from the words that R95 and R96 name. -/
theorem badOpWhere_of_badOpWord {p : Word → Prop} (h : ∀ w, p w → badOpWord w = true) : BadOpWhere p :=
  fun s w rest hw => malformedCommandAnswersBadOp s w rest (h w hw)

/-- Every slot keeps its byte where no tick of a running clock can commit one (20_memory R71). -/
theorem exec_sameBytes {i : Instr} {s t : State} (h : exec i s = .next t)
    (hno : (∀ lv, i ≠ .bclk lv) ∨ s.bclk ≠ .run) : SameBytes s t := by
  intro c
  rcases chanStep_buf (exec_chanStep h c) with hbuf | ⟨⟨lv, hi⟩, hb, -⟩
  · exact bufRead_congr hbuf
  · exact absurd hb (hno.resolve_left fun hne => hne lv hi)

theorem exec_arm_of_wait {s : State} {c : Chan} (h : (s.ch c).phase = .wait) :
    exec (.arm c.nibble) s = .next ((s.modCh c Channel.armed).respond .ok 0x0000#16) := by
  rw [exec, execArm, onChan_nibble, armOn, if_pos h]

theorem exec_arm_of_not_wait {s : State} {c : Chan} (h : (s.ch c).phase ≠ .wait) :
    exec (.arm c.nibble) s = .next (s.reject .busy) := by
  rw [exec, execArm, onChan_nibble, armOn, if_neg h]

/-- Settles O13: an accepted ARM puts `Channel.armed` in the channel's place; the refusals and the malformed words are
those of every command over a channel. -/
theorem armStartsANewFrame : Obligations.ArmStartsANewFrame := by
  refine ⟨fun c => decode_encode (i := .arm c) rfl, fun s c hp => ⟨_, exec_arm_of_wait hp, rfl, ?_⟩,
    fun s c hp => ⟨_, exec_arm_of_not_wait hp, rfl, OnlyResponse.reject s _⟩, fun s c hc => Refuses.badCh hc rfl,
    badOpWhere_of_badOpWord fun w hw => ?_⟩
  · have hbytes := exec_sameBytes (exec_arm_of_wait hp) (.inl nofun)
    rw [State.respond_ch, State.modCh_ch_self]
    refine ⟨rfl, rfl, rfl, rfl, rfl, rfl, rfl, rfl, rfl, hp, rfl, rfl, rfl, hbytes, fun d hd => ?_, ?_⟩
    · rw [State.respond_ch, State.modCh_ch, if_neg hd]
    · simp
  · obtain ⟨hop, himm⟩ := hw
    simp [badOpWord, hop, himm]

/-! ### EDGE -/

theorem exec_edge (s : State) (c : Chan) : exec (.edge c.nibble) s = .next (edgeOn s c) := by
  simp only [exec, execEdge, Chan.ofNibble_nibble]

theorem exec_edge_of_armed {s : State} {c : Chan} (he : (s.ch c).en = true) (hp : (s.ch c).phase = .wait) :
    exec (.edge c.nibble) s = .next ((s.modCh c fun k => { k with phase := .align }).setBclk s.bclk.afterEdge) := by
  rw [exec_edge, edgeOn, if_pos ((Channel.edgeEnabled_iff _).2 ⟨he, hp⟩)]

theorem exec_edge_of_not_armed {s : State} {c : Chan} (h : ¬((s.ch c).en = true ∧ (s.ch c).phase = .wait)) :
    exec (.edge c.nibble) s = .next s := by
  rw [exec_edge, edgeOn, if_neg (mt (Channel.edgeEnabled_iff _).1 h)]

theorem afterEdge_eq (b : BitClock) : b.afterEdge = if b = .stop then .half else b := by cases b <;> rfl

/-- An EDGE word has no level vector, so its digits are laid out as a CMD16 word's (R91, R99, R100). -/
theorem encode_edge (c : BitVec 4) : encode (.edge c) = .evt (0x1#4 ++ c ++ 0x00#8) := by
  refine congrArg PortWord.evt (BitVec.eq_of_toNat_eq ?_)
  rw [evt_toNat, cmd_toNat]
  rfl

/-- Settles O23: the two branches of an edge, by whether the channel is armed and waiting. -/
theorem edgeStartsAByteOnAnArmedChannel : Obligations.EdgeStartsAByteOnAnArmedChannel := by
  refine ⟨fun c hc => ?_, fun s c he hp => ?_, fun s c => exec_edge_of_not_armed⟩
  · rw [← encode_edge]
    exact decode_encode (decide_eq_true hc)
  · have hexec := exec_edge_of_armed he hp
    refine ⟨_, hexec, by simp, afterEdge_eq s.bclk, exec_sameBytes hexec (.inl nofun), fun d hd => ?_, ?_⟩
    · rw [State.setBclk_ch, State.modCh_ch, if_neg hd]
    · simp

/-! ### BCLK -/

theorem exec_bclk_stop {s : State} (h : s.bclk = .stop) (lv : BitVec 5) : exec (.bclk lv) s = .next s := by
  simp only [exec, execBclk, h]

theorem exec_bclk_half {s : State} (h : s.bclk = .half) (lv : BitVec 5) : exec (.bclk lv) s = .next (align s) := by
  simp only [exec, execBclk, h]

theorem exec_bclk_run {s : State} (h : s.bclk = .run) (lv : BitVec 5) : exec (.bclk lv) s = .next (tick lv s) := by
  simp only [exec, execBclk, h]

/-- Settles O24: R122 dispatches on the BitClock, and `STOP` is the branch that keeps the state. -/
theorem stoppedBitClockHasNoEffect : Obligations.StoppedBitClockHasNoEffect :=
  fun _ lv h => exec_bclk_stop h lv

/-- Settles O25: the alignment visits every channel and starts the byte of those in `ALIGN`. -/
theorem halfBitEventAlignsEveryWaitingChannel : Obligations.HalfBitEventAlignsEveryWaitingChannel := by
  intro s lv h
  have hbytes := exec_sameBytes (exec_bclk_half h lv) (.inr (by simp [h]))
  refine ⟨_, exec_bclk_half h lv, rfl, fun c hc => ?_, fun c hc => ?_, hbytes, align_dec s, align_variant s,
    align_input s, align_resp s⟩
  · rw [align_ch, if_pos hc]; rfl
  · rw [align_ch, if_neg hc]

theorem tick_ch_eq_tickChannel (lv : BitVec 5) (s : State) (c : Chan) :
    (tick lv s).ch c = tickChannel c (level lv c) (s.ch c) := tick_ch lv s c

theorem tickChannel_of_wait {k : Channel} (h : k.phase = .wait) (c : Chan) (l : Bool) : tickChannel c l k = k := by
  simp only [tickChannel, h]

theorem tickChannel_of_align {k : Channel} (h : k.phase = .align) (c : Chan) (l : Bool) :
    tickChannel c l k = k.startByte := by
  simp only [tickChannel, h]

theorem tickChannel_of_bits {k : Channel} (h : k.phase = .recv) (hz : k.bits ≠ 0#4) (c : Chan) (l : Bool) :
    tickChannel c l k = sampleBit l k := by
  simp only [tickChannel, h, receiveTick, if_neg hz]

theorem tickChannel_of_stop_bit {k : Channel} (h : k.phase = .recv) (hz : k.bits = 0#4) (c : Chan) (l : Bool) :
    tickChannel c l k = finalize c k := by
  simp only [tickChannel, h, receiveTick, if_pos hz]

/-- R128: the clock a tick meets running stops where the tick leaves every channel in `WAIT`. -/
theorem tick_bclk_of_wait {s : State} {lv : BitVec 5} (h : ∀ c, ((tick lv s).ch c).phase = .wait) :
    (tick lv s).bclk = .stop := by
  rw [tick, tickIn_bclk]
  exact if_pos ((State.quiet_iff _).2 h)

/-- R128: the clock is not touched while some channel needs it. -/
theorem tick_bclk_of_not_wait {s : State} {lv : BitVec 5} {c : Chan} (h : ((tick lv s).ch c).phase ≠ .wait) :
    (tick lv s).bclk = s.bclk := by
  rw [tick, tickIn_bclk]
  exact if_neg fun hq => h ((State.quiet_iff _).1 hq c)

theorem sampleBit_bits_toNat (l : Bool) {k : Channel} (h : k.bits ≠ 0#4) :
    (sampleBit l k).bits.toNat = k.bits.toNat - 1 := by
  rw [sampleBit]
  bv_omega

/-- Settles O26: what a tick does to a channel goes by its phase, and the clock by whether all are then in `WAIT`. -/
theorem tickSamplesAlignsAndStops : Obligations.TickSamplesAlignsAndStops := by
  intro s lv h
  have hch := tick_ch_eq_tickChannel lv s
  refine ⟨tick lv s, exec_bclk_run h lv, fun c hp hz => ?_, fun c hp => (hch c).trans (tickChannel_of_align hp c _),
    fun c hp => (hch c).trans (tickChannel_of_wait hp c _), tick_bclk_of_wait,
    fun ⟨c, hc⟩ => (tick_bclk_of_not_wait hc).trans h,
    tickIn_dec _ lv s, tickIn_variant _ lv s, tickIn_input _ lv s, tickIn_resp _ lv s⟩
  rw [hch c, tickChannel_of_bits hp hz]
  refine ⟨rfl, ?_, fun i hi => ?_, sampleBit_bits_toNat _ hz⟩
  · rw [sampleBit_shift_getLsbD _ _ (by decide), if_pos rfl, level]
  · rw [sampleBit_shift_getLsbD _ _ (by omega), if_neg (by omega)]

/-! ### What disarms a channel -/

/-- A commit disarms a channel only by the sentinel, which also completes the frame (R164, R166). -/
theorem commit_disarms {c : Chan} {b : Byte} {k : Channel} (hen : k.en = true) (h : (commit c b k).en = false) :
    c.role = .sensor ∧ (commit c b k).done = true ∧ b = Config.sentinel := by
  cases hr : c.role with
  | sensor =>
    simp only [commit_sensor_eq hr, hen, Bool.true_and, Bool.not_eq_false', Bool.and_eq_true] at h ⊢
    obtain ⟨⟨-, hto⟩, hb⟩ := h
    exact ⟨trivial, by simp [hto, hb], beq_iff_eq.1 hb⟩
  | host =>
    rw [commit_host_eq hr] at h
    exact absurd h (by simp [hen])

/-- A rollover disarms a channel only by its timeout (R166, R168). -/
theorem rollChannel_disarms {k : Channel} (hen : k.en = true) (h : (rollChannel k).en = false) :
    (rollChannel k).timeout = true := by
  have hrc : k.rc = 2#2 := by simpa [rollChannel_eq, hen] using h
  simp [rollChannel_eq, hen, hrc]

/-- Settles O38: of all that an instruction can do to a channel, only a commit, a rollover and RESET clear `en`. -/
theorem onlyTerminationOrResetDisarms : Obligations.OnlyTerminationOrResetDisarms := by
  intro i c s t h hen hdis
  have hs := exec_chanStep h c
  generalize t.ch c = k' at *
  cases hs with
  | reset hi => exact .inl hi
  | roll hi hr => exact .inr (.inl ⟨hi, hr, rollChannel_disarms hen hdis⟩)
  | finish lv hi hb hp hz =>
    obtain ⟨hr, hdone, hbyte⟩ := commit_disarms hen hdis
    exact .inr (.inr ⟨⟨lv, hi⟩, hr, hdone, (commit_last c _ _).trans hbyte⟩)
  | arm => cases hdis
  | _ => exact absurd hdis (by simp [hen, Channel.consume, Channel.startByte, sampleBit])

/-! ### Running over a list of words -/

theorem run_succ_of_step {M : Host.Core} {s t : M.State} (h : M.step s = .next t) (n : Nat) :
    M.run (n + 1) s = M.run n t := by
  rw [Host.Core.run, h]

/-- A run is cut where its first part ends. -/
theorem run_add {M : Host.Core} {m : Nat} {s t : M.State} (h : M.run m s = .next t) (n : Nat) :
    M.run (m + n) s = M.run n t := by
  induction m generalizing s with
  | zero => cases h; rw [Nat.zero_add]
  | succ m ih =>
    rw [Nat.succ_add]
    rw [Host.Core.run] at h ⊢
    split at h
    · exact ih h
    · cases h
    · cases h

/-- `s` while channel `c` receives a byte: the channel is `k`, the BitClock `b`, the words `rest` still wait, and the
last word was an event. -/
def receiving (s : State) (c : Chan) (k : Channel) (b : BitClock) (rest : List PortWord) : State :=
  { (s.setCh c k).setBclk b with input := rest, resp := none }

@[simp] theorem receiving_ch (s : State) (c d : Chan) (k : Channel) (b : BitClock) (rest : List PortWord) :
    (receiving s c k b rest).ch d = if d = c then k else s.ch d := by
  rw [← State.setCh_ch]
  cases d <;> rfl
@[simp] theorem receiving_bclk (s : State) (c : Chan) (k : Channel) (b : BitClock) (rest : List PortWord) :
    (receiving s c k b rest).bclk = b := rfl
@[simp] theorem receiving_dec (s : State) (c : Chan) (k : Channel) (b : BitClock) (rest : List PortWord) :
    (receiving s c k b rest).dec = s.dec := State.setCh_dec s c k
@[simp] theorem receiving_variant (s : State) (c : Chan) (k : Channel) (b : BitClock) (rest : List PortWord) :
    (receiving s c k b rest).variant = s.variant := State.setCh_variant s c k
@[simp] theorem receiving_input (s : State) (c : Chan) (k : Channel) (b : BitClock) (rest : List PortWord) :
    (receiving s c k b rest).input = rest := rfl
@[simp] theorem receiving_resp (s : State) (c : Chan) (k : Channel) (b : BitClock) (rest : List PortWord) :
    (receiving s c k b rest).resp = none := rfl

theorem eq_receiving {s t : State} {c : Chan} {k : Channel} {b : BitClock} {rest : List PortWord} (hk : t.ch c = k)
    (hothers : ∀ d, d ≠ c → t.ch d = s.ch d) (hb : t.bclk = b) (hd : t.dec = s.dec) (hv : t.variant = s.variant)
    (hi : t.input = rest) (hr : t.resp = none) : t = receiving s c k b rest := by
  refine State.ext_ch (fun d => ?_) hb (by simpa) (by simpa) hi hr
  by_cases hdc : d = c
  · simp [hdc, hk]
  · simp [hdc, hothers d hdc]

/-- A step whose word is waiting in `receiving` runs the instruction on `receiving` without the word. -/
theorem step_receiving (s : State) (c : Chan) (k : Channel) (b : BitClock) (rest : List PortWord) {i : Instr}
    (hi : i.wf = true) : step (receiving s c k b (encode i :: rest)) = exec i (receiving s c k b rest) :=
  stepRunsTheDecodedInstruction _ _ rest i rfl (decode_encode hi)

/-- The start edge on an armed channel, the BitClock stopped (R121). -/
theorem step_edge {s : State} {c : Chan} {rest : List PortWord} (he : (s.ch c).en = true) (hb : s.bclk = .stop)
    (hp : (s.ch c).phase = .wait) (hi : s.input = encode (.edge c.nibble) :: rest) :
    step s = .next (receiving s c { s.ch c with phase := .align } .half rest) := by
  have htake : ({ s with input := rest, resp := none } : State) = receiving s c (s.ch c) s.bclk rest :=
    eq_receiving (by cases c <;> rfl) (fun d _ => by cases d <;> rfl) rfl rfl rfl rfl rfl
  have hdec : decode (encode (.edge c.nibble)) = .ok (.edge c.nibble) :=
    decode_encode (decide_eq_true c.toNat_nibble_lt)
  rw [stepRunsTheDecodedInstruction s _ rest _ hi hdec, htake, exec_edge_of_armed (by simpa) (by simpa), hb]
  exact congrArg _ (eq_receiving (by simp) (fun d hd => by simp [State.modCh_ch, hd]) rfl (by simp) (by simp) (by simp)
    (by simp))

/-- The BCLK words that put the levels `l` on the line of channel `c`, every other line high (R108). -/
def sampleWords (c : Chan) (l : List Bool) : List PortWord := l.map fun x => encode (.bclk (lineLevel c x))

/-- The levels of the data bits of a byte, from bit 0 up (R108). -/
def bitsOf (b : Byte) : List Bool := (List.range 8).map b.getLsbD

/-- The words of a byte: its start edge, its alignment event, its data bits and its stop bit (R108). -/
theorem rxByte_append (c : Chan) (b : Byte) (rest : List PortWord) :
    rxByte c b ++ rest = encode (.edge c.nibble) :: encode (.bclk idleHigh) ::
      (sampleWords c (bitsOf b) ++ encode (.bclk idleHigh) :: rest) := by
  simp [rxByte, sampleWords, bitsOf, Function.comp_def]

theorem level_lineLevel (c : Chan) (l : Bool) : level (lineLevel c l) c = l := by cases c <;> cases l <;> rfl

section

variable {s : State} {c : Chan} {k : Channel} (hw : ∀ d, d ≠ c → (s.ch d).phase = .wait)

include hw

/-- The half-bit event while `c` alone is aligning (R123). -/
theorem step_align (hp : k.phase = .align) (lv : BitVec 5) (rest : List PortWord) :
    step (receiving s c k .half (encode (.bclk lv) :: rest)) = .next (receiving s c k.startByte .run rest) := by
  rw [step_receiving _ _ _ _ _ rfl, exec_bclk_half rfl]
  refine congrArg _ (eq_receiving ?_ (fun d hd => ?_) rfl (by simp) (by simp) (by simp) (by simp))
  · simp [align_ch, hp]
  · simp [align_ch, hd, hw d hd]

/-- A tick while no channel but `c` is out of `WAIT`: the clock goes by `c` alone (R124, R128). -/
theorem step_tick (lv : BitVec 5) (rest : List PortWord) :
    step (receiving s c k .run (encode (.bclk lv) :: rest)) =
      .next (receiving s c (tickChannel c (level lv c) k)
        (if (tickChannel c (level lv c) k).phase = .wait then .stop else .run) rest) := by
  rw [step_receiving _ _ _ _ _ rfl, exec_bclk_run rfl]
  have hself : (tick lv (receiving s c k .run rest)).ch c = tickChannel c (level lv c) k := by
    simp [tick_ch_eq_tickChannel]
  have hothers (d : Chan) (hd : d ≠ c) : (tick lv (receiving s c k .run rest)).ch d = s.ch d := by
    simp [tick_ch_eq_tickChannel, hd, tickChannel_of_wait (hw d hd)]
  refine congrArg _ (eq_receiving hself hothers ?_ (by simp [tick]) (by simp [tick]) (by simp [tick]) (by simp [tick]))
  split
  · refine tick_bclk_of_wait fun d => ?_
    by_cases hd : d = c
    · rwa [hd, hself]
    · rw [hothers d hd, hw d hd]
  · rename_i hrun
    exact tick_bclk_of_not_wait (c := c) (by rwa [hself])

/-- The data ticks: each takes the level of the line as its sample (R125). -/
theorem run_samples (l : List Bool) (hp : k.phase = .recv) (hl : l.length ≤ k.bits.toNat) (rest : List PortWord) :
    Host.Core.run Sys2Proof.core l.length (receiving s c k .run (sampleWords c l ++ rest)) =
      .next (receiving s c (l.foldl (fun k x => sampleBit x k) k) .run rest) := by
  induction l generalizing k with
  | nil => rfl
  | cons x l ih =>
    have hz : k.bits ≠ 0#4 := by rintro hz; simp [hz] at hl
    have hstep := step_tick hw (k := k) (lineLevel c x) (sampleWords c l ++ rest)
    rw [level_lineLevel, tickChannel_of_bits hp hz, if_neg (by simp [sampleBit, hp])] at hstep
    refine (run_succ_of_step hstep l.length).trans (ih hp ?_)
    rw [sampleBit_bits_toNat x hz]
    exact Nat.le_sub_one_of_lt hl

/-- The stop-bit tick: no channel needs the clock any more (R126, R128). -/
theorem step_finish (hp : k.phase = .recv) (hz : k.bits = 0#4) (lv : BitVec 5) (rest : List PortWord) :
    step (receiving s c k .run (encode (.bclk lv) :: rest)) = .next (receiving s c (finalize c k) .stop rest) := by
  rw [step_tick hw, tickChannel_of_stop_bit hp hz]
  rfl

end

/-! ### RXBYTE -/

/-- Samples write `shift` and `bits` only. -/
theorem foldl_sampleBit_eq (l : List Bool) (k : Channel) :
    l.foldl (fun k x => sampleBit x k) k =
      { k with shift := (l.foldl (fun k x => sampleBit x k) k).shift,
               bits := (l.foldl (fun k x => sampleBit x k) k).bits } := by
  induction l generalizing k with
  | nil => rfl
  | cons x l ih => exact ih (sampleBit x k)

/-- The eight bits of a byte, sampled from bit 0 up, are the byte (R39, R108). -/
theorem foldl_sampleBit_bitsOf (b : Byte) {k : Channel} (h : k.bits = 8#4) :
    (bitsOf b).foldl (fun k x => sampleBit x k) k = { k with shift := b, bits := 0#4 } := by
  obtain ⟨hshift, hbits⟩ := eightSamplesAssembleTheByte k (bitsOf b) rfl h
  rw [foldl_sampleBit_eq, hbits]
  congr 1
  refine BitVec.eq_of_getLsbD_eq fun i hi => Option.some.inj ((hshift i hi).trans ?_)
  simp [bitsOf, hi]

/-- A commit neither reads nor writes `phase` and `bits`, so the end of a byte is the same whatever they were. -/
theorem finalize_phase_bits (c : Chan) (k : Channel) (p : Phase) (n : BitVec 4) :
    finalize c { k with phase := p, bits := n } = finalize c k := by
  cases hr : c.role
  · simp [finalize, commit_sensor_eq hr]
  · simp [finalize, commit_host_eq hr]

/-- The run of `RXBYTE c, b` as one change of state (R108, R132). -/
theorem run_rxByte {s : State} {c : Chan} {b : Byte} {rest : List PortWord} (he : (s.ch c).en = true)
    (hb : s.bclk = .stop) (hw : ∀ d, (s.ch d).phase = .wait) (hi : s.input = rxByte c b ++ rest) :
    Host.Core.run Sys2Proof.core 11 s =
      .next (receiving s c (finalize c { s.ch c with shift := b }) .stop rest) := by
  have hw' (d : Chan) (_ : d ≠ c) : (s.ch d).phase = .wait := hw d
  rw [rxByte_append] at hi
  have hsamples := run_samples hw' (k := { s.ch c with phase := .recv, bits := 8#4 }) (bitsOf b) rfl (Nat.le_refl 8)
    (encode (.bclk idleHigh) :: rest)
  rw [foldl_sampleBit_bitsOf b rfl] at hsamples
  calc Host.Core.run Sys2Proof.core 11 s
      = Host.Core.run Sys2Proof.core 10 _ := run_succ_of_step (step_edge he hb (hw c) hi) 10
    _ = Host.Core.run Sys2Proof.core 9 _ := run_succ_of_step (step_align hw' rfl idleHigh _) 9
    _ = Host.Core.run Sys2Proof.core 1 _ := run_add hsamples 1
    _ = .next _ := run_succ_of_step (step_finish hw' rfl rfl idleHigh rest) 0
    _ = _ := by rw [← finalize_phase_bits c { s.ch c with shift := b } .recv 0#4]

/-- Settles O34: the end state of `run_rxByte`, field by field. -/
theorem rxByteCommitsExactlyTheByte : Obligations.RxByteCommitsExactlyTheByte := by
  intro s c b rest he hb hw hi
  exact ⟨_, run_rxByte he hb hw hi, by simp [finalize], fun d hd => by simp [hd], rfl, by simp, by simp, rfl, rfl⟩

end Sys2Proof.Proofs

/-! The statements of 41_frame_assembler: the commit of a byte (R160 to R164), ROLL (R168) and the timeout (R172), ACK
(R169), CLREV (R170), and the frames that commits build (R165, R174). -/

namespace Sys2Proof.Proofs

open Sys2Proof Sys2Proof.Machine

/-! ### ACK -/

/-- A command that uses no `IMM` is answered BADOP where `IMM` is not zero (R92, R95). -/
theorem badOpWhere_imm {op : Nat} (h : op ∈ [1, 2, 3, 4, 6, 7, 8, 9]) :
    BadOpWhere fun w => w.toNat / 4096 = op ∧ w.toNat % 256 ≠ 0 :=
  badOpWhere_of_badOpWord fun _ ⟨hop, himm⟩ => decide_eq_true (.inr (.inr (.inr ⟨hop ▸ h, himm⟩)))

theorem exec_ack_of_le {s : State} (h : s.hlen ≤ s.ch4.count.toNat) :
    exec (.ack 4#4) s = .next ((s.modCh .c4 (Channel.consume s.hlen)).respond .ok 0x0000#16) := by
  have hack : ackOn s .c4 = (s.modCh .c4 (Channel.consume s.hlen)).respond .ok 0x0000#16 := if_neg (Nat.not_lt.2 h)
  exact congrArg Host.Outcome.next ((onChan_nibble .c4 s _).trans hack)

theorem exec_ack_of_lt {s : State} (h : s.ch4.count.toNat < s.hlen) :
    exec (.ack 4#4) s = .next (s.reject .notReady) := by
  have hack : ackOn s .c4 = s.reject .notReady := if_pos h
  exact congrArg Host.Outcome.next ((onChan_nibble .c4 s _).trans hack)

theorem exec_ack_sensor {c : Chan} (hr : c.role = .sensor) (s : State) :
    exec (.ack c.nibble) s = .next (s.reject .badRole) := by
  simp only [exec, execAck, onChan_nibble, ackOn, hr]

/-- The numbers 0 to 3 name the sensor channels (00_scope R13, R15). -/
theorem exists_sensor_of_lt {x : BitVec 4} (h : x.toNat < 4) : ∃ c : Chan, c.role = .sensor ∧ x = c.nibble := by
  have hx : x = 0#4 ∨ x = 1#4 ∨ x = 2#4 ∨ x = 3#4 := by bv_omega
  rcases hx with rfl | rfl | rfl | rfl
  exacts [⟨.c0, rfl, rfl⟩, ⟨.c1, rfl, rfl⟩, ⟨.c2, rfl, rfl⟩, ⟨.c3, rfl, rfl⟩]

/-- On the host channel the index counts from `fstart` around the ring (20_memory R72). -/
theorem frameSlot_host {c : Chan} (hr : c.role = .host) (k : Channel) (i : BitVec 8) :
    frameSlot c k i = (k.fstart.toNat + i.toNat) % 32 := by
  rw [frameSlot, Chan.cap_host hr]

/-- After an ACK the frame begins `n` slots further on, so every byte is found at an index less by `n` (R169). -/
theorem frameSlot_consume {c : Chan} (hr : c.role = .host) {n : Nat} (k : Channel) {i j : BitVec 8}
    (h : j.toNat = i.toNat + n) : frameSlot c (k.consume n) i = frameSlot c k j := by
  rw [frameSlot_host hr, frameSlot_host hr, consume_fstart_toNat, h]
  omega

/-- Settles O14: an accepted ACK is `Channel.consume` on the host channel, which moves the start of the frame and leaves
the slots alone. -/
theorem ackConsumesOneHostFrame : Obligations.AckConsumesOneHostFrame := by
  refine ⟨fun c => decode_encode (i := .ack c) rfl, fun s h => ?_,
    fun s h => ⟨_, exec_ack_of_lt h, rfl, OnlyResponse.reject s _⟩, fun s x hx => ?_,
    fun s x hx => Refuses.badCh hx rfl, badOpWhere_imm (by decide)⟩
  · have hexec := exec_ack_of_le h
    refine ⟨_, hexec, rfl, consume_fstart_toNat _ _, consume_count_toNat h, rfl, fun i j hij => ?_,
      exec_sameBytes hexec (.inl nofun), fun d hd => ?_, rfl, rfl, rfl, rfl⟩
    · exact congrArg (bufRead .c4 s.ch4) (frameSlot_consume rfl s.ch4 hij)
    · rw [State.respond_ch, State.modCh_ch, if_neg hd]
  · obtain ⟨c, hr, rfl⟩ := exists_sensor_of_lt hx
    exact ⟨_, exec_ack_sensor hr s, rfl, OnlyResponse.reject s _⟩

/-! ### CLREV -/

theorem exec_clrev (s : State) (c : Chan) : exec (.clrev c.nibble) s = .next (clrevOn s c) := by
  rw [exec, execClrev, onChan_nibble]

/-- R170: `wake` is left to the other channels. -/
theorem clrevOn_wake (s : State) (c : Chan) :
    (clrevOn s c).wake = true ↔ ∃ d, d ≠ c ∧ (s.ch d).evf = true := by
  rw [State.wake_iff]
  refine exists_congr fun d => ?_
  rw [clrevOn_ch]
  by_cases hd : d = c <;> simp [hd]

/-- Settles O15: CLREV writes one field of one channel, in every state. -/
theorem clrevClearsTheEventFlag : Obligations.ClrevClearsTheEventFlag := by
  refine ⟨fun c => decode_encode (i := .clrev c) rfl, fun s c => ?_, fun s x hx => Refuses.badCh hx rfl,
    badOpWhere_imm (by decide)⟩
  have hbytes := exec_sameBytes (exec_clrev s c) (.inl nofun)
  refine ⟨_, exec_clrev s c, rfl, ?_, clrevOn_wake s c, hbytes, fun d hd => ?_, ?_⟩
  · rw [clrevOn_ch, if_pos rfl]
  · rw [clrevOn_ch, if_neg hd]
  · simp [clrevOn]

/-! ### The byte at the stop bit -/

/-- The stop-bit tick of a running clock is `finalize`, whatever the other channels and the lines do (R124, R126). -/
theorem exec_bclk_stop_bit {s : State} {c : Chan} (hb : s.bclk = .run) (hp : (s.ch c).phase = .recv)
    (hz : (s.ch c).bits = 0#4) (lv : BitVec 5) :
    ∃ t, exec (.bclk lv) s = .next t ∧ t.ch c = finalize c (s.ch c) :=
  ⟨_, exec_bclk_run hb lv, (tick_ch_eq_tickChannel lv s c).trans (tickChannel_of_stop_bit hp hz c _)⟩

/-- Every slot but `cur` reads as before the byte (20_memory R71). -/
theorem bufRead_finalize_of_ne (c : Chan) (k : Channel) {n : Nat} (h : n ≠ k.cur.toNat) :
    bufRead c (finalize c k) n = bufRead c k n := by
  rw [bufRead_finalize, if_neg fun hn => h hn.1]

/-- The byte is found in slot `cur`, where the buffer has that slot (R162, R163). -/
theorem bufRead_finalize_cur {c : Chan} {k : Channel} (h : k.cur.toNat < c.cap) :
    bufRead c (finalize c k) k.cur.toNat = some k.shift := by
  rw [bufRead_finalize, if_pos ⟨rfl, h⟩]

/-- A byte beyond the buffer's end leaves every slot alone (R162). -/
theorem bufRead_finalize_of_full {c : Chan} {k : Channel} (h : c.cap ≤ k.cur.toNat) (n : Nat) :
    bufRead c (finalize c k) n = bufRead c k n := by
  rw [bufRead_finalize, if_neg (by omega)]

theorem finalize_count_toNat (c : Chan) (k : Channel) :
    (finalize c k).count.toNat = min (k.count.toNat + 1) 255 :=
  (congrArg BitVec.toNat (commit_count c k.shift k)).trans (sat8Succ_toNat _)

section Sensor

variable {c : Chan} (hr : c.role = .sensor)

include hr

/-- R162: a byte below capacity is stored, and one beyond it is dropped. -/
theorem commit_sensor_of_lt (b : Byte) {k : Channel} (h : k.cur.toNat < 16) :
    (commit c b k).cur.toNat = k.cur.toNat + 1 ∧ (commit c b k).ovf = k.ovf := by
  simp only [commit_sensor_eq hr, if_pos h, cursor_succ_toNat, and_true]
  omega

theorem commit_sensor_of_ge (b : Byte) {k : Channel} (h : 16 ≤ k.cur.toNat) :
    (commit c b k).cur = k.cur ∧ (commit c b k).ovf = true := by
  simp only [commit_sensor_eq hr, if_neg (Nat.not_lt.2 h), and_true]

/-- R164: the sentinel ends the frame of a channel that has neither completed nor timed out. -/
theorem commit_sentinel {k : Channel} (hd : k.done = false) (ht : k.timeout = false) :
    (commit c 0x0A#8 k).done = true ∧ (commit c 0x0A#8 k).en = false := by
  simp [commit_sensor_eq hr, hd, ht, Config.sentinel]

/-- R164: any other byte, and any byte after the frame has ended, leaves `done` and `en` alone. -/
theorem commit_of_no_sentinel {b : Byte} {k : Channel}
    (h : ¬(k.done = false ∧ k.timeout = false ∧ b = 0x0A#8)) :
    (commit c b k).done = k.done ∧ (commit c b k).en = k.en := by
  have hb : (b == Config.sentinel) = decide (b = 0x0A#8) := rfl
  simp only [commit_sensor_eq hr, hb]
  cases hd : k.done
  · cases ht : k.timeout
    · simp [show b ≠ 0x0A#8 from fun hb => h ⟨hd, ht, hb⟩]
    · simp
  · simp

end Sensor

/-- Settles O27: the tick is `finalize`, which is the commit of the shift register and the return to `WAIT`. -/
theorem sensorFinalizeCommitsTheByte : Obligations.SensorFinalizeCommitsTheByte := by
  intro s lv c hb hr hp hz
  obtain ⟨t, ht, hch⟩ := exec_bclk_stop_bit hb hp hz lv
  refine ⟨t, ht, ?_⟩
  rw [hch]
  generalize s.ch c = k
  have hcap := Chan.cap_sensor hr
  refine ⟨rfl, rfl, commit_shift .., commit_last .., commit_evf .., finalize_count_toNat c k,
    fun hlt => ?_, fun hge => ?_, fun hd hto hs => ?_, commit_of_no_sentinel hr,
    commit_fstart .., commit_timeout .., commit_rc ..⟩
  · obtain ⟨hcur, hovf⟩ := commit_sensor_of_lt hr k.shift hlt
    exact ⟨hcur, hovf, bufRead_finalize_cur (hcap ▸ hlt), fun i => bufRead_finalize_of_ne c k⟩
  · obtain ⟨hcur, hovf⟩ := commit_sensor_of_ge hr k.shift hge
    exact ⟨hcur, hovf, bufRead_finalize_of_full (hcap ▸ hge)⟩
  · have hfin := commit_sentinel hr hd hto
    rwa [← hs] at hfin

/-- R163: the cursor goes round the ring, and a count past 32 is an overrun; nothing ends a host frame. -/
theorem commit_host_ring {c : Chan} (hr : c.role = .host) (b : Byte) (k : Channel) :
    (commit c b k).cur.toNat = (k.cur.toNat + 1) % 32 ∧
      ((commit c b k).ovf = true ↔ k.ovf = true ∨ 32 < min (k.count.toNat + 1) 255) ∧
      (commit c b k).en = k.en ∧ (commit c b k).done = k.done := by
  rw [commit_host_eq hr]
  refine ⟨cursor_succ_toNat k.cur, ?_, rfl, rfl⟩
  rw [Bool.or_eq_true, decide_eq_true_iff, sat8Succ_toNat]

/-- Settles O28: the tick is `finalize`, whose commit on the host channel always has a slot to write. -/
theorem hostFinalizeCommitsTheByte : Obligations.HostFinalizeCommitsTheByte := by
  intro s lv hb hp hz
  obtain ⟨t, ht, hch⟩ := exec_bclk_stop_bit (c := .c4) hb hp hz lv
  refine ⟨t, ht, ?_⟩
  change t.ch4 = finalize .c4 s.ch4 at hch
  rw [hch]
  generalize s.ch4 = k
  obtain ⟨hcur, hovf, hen, hdone⟩ := commit_host_ring (c := .c4) rfl k.shift k
  exact ⟨rfl, rfl, commit_shift .., commit_last .., commit_evf .., finalize_count_toNat .c4 k, hcur,
    bufRead_finalize_cur k.cur.isLt, fun i => bufRead_finalize_of_ne .c4 k, hovf, hen, hdone, commit_fstart ..,
    commit_timeout .., commit_rc ..⟩

/-! ### ROLL -/

/-- R166, R168: the third count of an armed channel is its timeout. -/
theorem rollChannel_third {k : Channel} (he : k.en = true) (hrc : k.rc = 2#2) :
    rollChannel k = { k with rc := 3#2, timeout := true, evf := true, en := false } := by
  simp [rollChannel_eq, he, hrc]

/-- R168: the first two counts only count. -/
theorem rollChannel_of_lt {k : Channel} (he : k.en = true) (hrc : k.rc.toNat < 2) :
    rollChannel k = { k with rc := k.rc + 1#2 } := by
  have hne : k.rc ≠ 2#2 := by bv_omega
  simp [rollChannel_eq, he, hne]

theorem rollChannel_of_unarmed {k : Channel} (he : k.en = false) : rollChannel k = k := by
  simp [rollChannel, he]

/-- A ROLL is `rollChannel` on each sensor channel (R168). -/
theorem roll_ch_sensor {c : Chan} (hr : c.role = .sensor) (s : State) :
    (rollIn Chan.sensors s).ch c = rollChannel (s.ch c) := by
  rw [rollIn_sensors_ch, if_pos hr]

/-- Settles O29: ROLL visits each sensor channel once, and a visit goes by `en` and `rc`. -/
theorem rollCountsOnArmedSensorChannels : Obligations.RollCountsOnArmedSensorChannels := by
  refine ⟨decode_encode (i := .roll) rfl, fun s => ?_⟩
  have hexec : exec .roll s = .next (rollIn Chan.sensors s) := rfl
  refine ⟨_, hexec, fun c hr he hrc => ?_, fun c hr he hrc => ?_, fun c he => ?_, rollIn_sensors_ch s .c4,
    exec_sameBytes hexec (.inl nofun), State.visit_bclk .., State.visit_dec .., State.visit_variant ..,
    State.visit_input .., State.visit_resp ..⟩
  · rw [roll_ch_sensor hr, rollChannel_third he hrc]
  · rw [roll_ch_sensor hr, rollChannel_of_lt he hrc]
    exact ⟨by bv_omega, rfl⟩
  · rw [rollIn_sensors_ch, rollChannel_of_unarmed he, ite_self]

/-! ### The timeout -/

/-- A sensor channel that an ARM has armed, `n` rollovers ago, and that has not seen an edge (R172). -/
def AwaitsAfterRolls (n : Nat) (k : Channel) : Prop :=
  k.phase = .wait ∧ k.rc.toNat = min n 3 ∧ k.timeout = decide (3 ≤ n) ∧ k.en = decide (n < 3)

theorem awaitsAfterRolls_armed {k : Channel} (h : k.phase = .wait) : AwaitsAfterRolls 0 k.armed := ⟨h, rfl, rfl, rfl⟩

theorem awaitsAfterRolls_rollChannel {n : Nat} {k : Channel} (h : AwaitsAfterRolls n k) :
    AwaitsAfterRolls (n + 1) (rollChannel k) := by
  obtain ⟨hp, hrc, hto, hen⟩ := h
  rcases Nat.lt_trichotomy n 2 with hlt | rfl | hgt
  · have he : k.en = true := by rw [hen]; exact decide_eq_true (by omega)
    rw [rollChannel_of_lt he (by omega)]
    refine ⟨hp, by bv_omega, ?_, ?_⟩
    · rw [hto]; exact decide_eq_decide.2 (by omega)
    · rw [hen]; exact decide_eq_decide.2 (by omega)
  · rw [rollChannel_third hen (BitVec.eq_of_toNat_eq hrc)]
    exact ⟨hp, rfl, rfl, rfl⟩
  · have he : k.en = false := by rw [hen]; exact decide_eq_false (by omega)
    rw [rollChannel_of_unarmed he]
    refine ⟨hp, by omega, ?_, ?_⟩
    · rw [hto]; exact decide_eq_decide.2 (by omega)
    · rw [hen]; exact decide_eq_decide.2 (by omega)

/-- Without an edge the channel stays in `WAIT`, so ROLL apart only ARM and RESET could move its count of rollovers. -/
theorem awaitsAfterRolls_step {i : Instr} {b : BitClock} {hlen : Nat} {c : Chan} {k k' : Channel} {n : Nat}
    (hs : ChanStep i b hlen c k k') (hr : c.role = .sensor)
    (hi : i ≠ .edge c.nibble ∧ i ≠ .reset ∧ i ≠ .arm c.nibble) (hroll : i ≠ .roll) (h : AwaitsAfterRolls n k) :
    AwaitsAfterRolls n k' := by
  obtain ⟨hedge, hreset, harm⟩ := hi
  have ⟨hp, _⟩ := h
  cases hs with
  | same | clrev => exact h
  | arm hi => exact absurd hi harm
  | ack _ hr' => rw [hr] at hr'; cases hr'
  | edge hi => exact absurd hi hedge
  | start _ _ _ hp' | sample _ _ _ hp' | finish _ _ _ hp' => rw [hp] at hp'; cases hp'
  | roll hi => exact absurd hi hroll
  | reset hi => exact absurd hi hreset

theorem runInstrs_cons {i : Instr} {is : List Instr} {s t : State} (h : runInstrs (i :: is) s = .next t) :
    ∃ u, exec i s = .next u ∧ runInstrs is u = .next t := by
  rw [runInstrs] at h
  rcases hx : exec i s with u | r | r <;> simp only [hx, reduceCtorEq] at h
  exact ⟨u, rfl, h⟩

/-- Over a run the rollovers add up. -/
theorem awaitsAfterRolls_run {c : Chan} (hr : c.role = .sensor) {is : List Instr} {s t : State} {n : Nat}
    (hi : ∀ i ∈ is, i ≠ .edge c.nibble ∧ i ≠ .reset ∧ i ≠ .arm c.nibble) (hs : AwaitsAfterRolls n (s.ch c))
    (h : runInstrs is s = .next t) : AwaitsAfterRolls (n + (is.filter (· == .roll)).length) (t.ch c) := by
  induction is generalizing s n with
  | nil => cases h; exact hs
  | cons i is ih =>
    obtain ⟨u, hu, hrun⟩ := runInstrs_cons h
    obtain ⟨hhead, htail⟩ := List.forall_mem_cons.1 hi
    by_cases hroll : i = .roll
    · subst hroll
      cases hu
      have hstep : AwaitsAfterRolls (n + 1) ((rollIn Chan.sensors s).ch c) := by
        rw [roll_ch_sensor hr]
        exact awaitsAfterRolls_rollChannel hs
      have hrest := ih htail hstep hrun
      rw [List.filter_cons_of_pos rfl, List.length_cons]
      rwa [Nat.add_right_comm, Nat.add_assoc] at hrest
    · rw [List.filter_cons_of_neg (by simpa using hroll)]
      exact ih htail (awaitsAfterRolls_step (exec_chanStep hu c) hr hhead hroll hs) hrun

/-- Settles O40: the rollovers since the ARM are the channel's `rc` up to the third, which disarms it. -/
theorem timeoutComesAtTheThirdRoll : Obligations.TimeoutComesAtTheThirdRoll := by
  intro s t u c is hr hp harm hi hrun
  rw [exec_arm_of_wait hp] at harm
  cases harm
  have hstart : AwaitsAfterRolls 0 (((s.modCh c Channel.armed).respond .ok 0x0000#16).ch c) := by
    rw [State.respond_ch, State.modCh_ch_self]
    exact awaitsAfterRolls_armed hp
  obtain ⟨-, -, hto, hen⟩ := awaitsAfterRolls_run hr hi hstart hrun
  rw [Nat.zero_add] at hto hen
  refine ⟨fun hlt => ?_, fun hge => ?_⟩
  · exact ⟨by rw [hto]; exact decide_eq_false (by omega), by rw [hen]; exact decide_eq_true hlt⟩
  · have hdisarmed : (u.ch c).en = false := by rw [hen]; exact decide_eq_false (by omega)
    refine ⟨by rw [hto]; exact decide_eq_true hge, hdisarmed, _, rfl, ?_⟩
    rw [roll_ch_sensor hr, rollChannel_of_unarmed hdisarmed]

/-! ### The slots a commit writes -/

/-- A commit writes its byte to slot `cur`, where the buffer has it, and leaves the others alone (R162, R163). -/
theorem slotByte_commit (c : Chan) (b : Byte) (k : Channel) (n : Nat) :
    slotByte c (commit c b k) n = if n = k.cur.toNat ∧ k.cur.toNat < c.cap then b else slotByte c k n := by
  have hbuf := commit_buf c b k
  by_cases hcur : k.cur.toNat < c.cap
  · rw [if_pos hcur] at hbuf
    calc slotByte c (commit c b k) n
        = slotByte c (k.bufWrite k.cur.toNat b) n := by rw [slotByte, hbuf, slotByte]
      _ = _ := by rw [slotByte_bufWrite]; simp only [hcur, and_true]
  · rw [if_neg hcur] at hbuf
    rw [if_neg fun h => hcur h.2, slotByte, hbuf, slotByte]

/-- The slots below `cur` are no slot a commit writes. -/
theorem map_slotByte_commit_of_le (c : Chan) (b : Byte) {k : Channel} {n : Nat} (h : n ≤ k.cur.toNat) :
    (List.range n).map (slotByte c (commit c b k)) = (List.range n).map (slotByte c k) := by
  refine List.map_congr_left fun i hi => ?_
  have hlt := List.mem_range.1 hi
  rw [slotByte_commit, if_neg (by omega)]

/-- A byte that has a slot is the next behind the slots below `cur` (R162, R163). -/
theorem map_slotByte_commit_succ {c : Chan} (b : Byte) {k : Channel} (h : k.cur.toNat < c.cap) :
    (List.range (k.cur.toNat + 1)).map (slotByte c (commit c b k)) =
      (List.range k.cur.toNat).map (slotByte c k) ++ [b] := by
  rw [List.range_succ, List.map_append, map_slotByte_commit_of_le c b (Nat.le_refl _), List.map_singleton,
    slotByte_commit, if_pos ⟨rfl, h⟩]

/-! ### The frame of a sensor channel -/

theorem take_take_append {α : Type} (n : Nat) (l m : List α) : (l.take n ++ m).take n = (l ++ m).take n := by
  have hrest : n - min n l.length = n - l.length := by omega
  rw [List.take_append, List.take_append, List.take_take, List.length_take, Nat.min_self, hrest]

section Sensor

variable {c : Chan} (hr : c.role = .sensor)

include hr

theorem length_le_of_frameBytes {k : Channel} {f : List Byte} (h : frameBytes c k = some f) : f.length ≤ 16 := by
  obtain ⟨hle, rfl⟩ := frameBytes_eq_some.1 h
  rw [Chan.cap_sensor hr] at hle
  simpa using hle

/-- A commit appends its byte to the frame while the frame is shorter than the buffer (R162). -/
theorem frameBytes_commit (b : Byte) {k : Channel} {f : List Byte} (h : frameBytes c k = some f) :
    frameBytes c (commit c b k) = some ((f ++ [b]).take 16) := by
  have hcap := Chan.cap_sensor hr
  obtain ⟨hle, rfl⟩ := frameBytes_eq_some.1 h
  rw [hcap] at hle
  rw [frameBytes_eq_some, hcap]
  by_cases hlt : k.cur.toNat < 16
  · obtain ⟨hcur, -⟩ := commit_sensor_of_lt hr b hlt
    rw [hcur, map_slotByte_commit_succ b (hcap ▸ hlt), List.take_of_length_le (by simp; omega)]
    exact ⟨hlt, rfl⟩
  · obtain ⟨hcur, -⟩ := commit_sensor_of_ge hr b (Nat.not_lt.1 hlt)
    rw [hcur, map_slotByte_commit_of_le c b (Nat.le_refl _), List.take_left' (by simp; omega)]
    exact ⟨hle, rfl⟩

/-- The frame is the first 16 of the bytes committed, whatever they are (R162, 20_memory R75). -/
theorem frameBytes_foldl_commit (l : List Byte) {k : Channel} {f : List Byte} (h : frameBytes c k = some f) :
    frameBytes c (l.foldl (fun k b => commit c b k) k) = some ((f ++ l).take 16) := by
  induction l generalizing k f with
  | nil => rw [List.append_nil, List.take_of_length_le (length_le_of_frameBytes hr h)]; exact h
  | cons b l ih =>
    rw [List.foldl_cons, ih (frameBytes_commit hr b h), take_take_append, List.append_assoc, List.singleton_append]

/-- `ovf` is set by the bytes past the 16th and by no other (R162). -/
theorem foldl_commit_ovf (l : List Byte) {k : Channel} (h : k.cur.toNat ≤ 16) :
    (l.foldl (fun k b => commit c b k) k).ovf = true ↔ k.ovf = true ∨ 16 < k.cur.toNat + l.length := by
  induction l generalizing k with
  | nil => simp [h]
  | cons b l ih =>
    rw [List.foldl_cons, List.length_cons]
    by_cases hlt : k.cur.toNat < 16
    · obtain ⟨hcur, hovf⟩ := commit_sensor_of_lt hr b hlt
      rw [ih (by omega), hovf, hcur, Nat.add_right_comm, Nat.add_assoc]
    · obtain ⟨hcur, hovf⟩ := commit_sensor_of_ge hr b (Nat.not_lt.1 hlt)
      rw [ih (by rw [hcur]; omega)]
      exact iff_of_true (.inl hovf) (.inr (by omega))

/-- Bytes other than the sentinel leave the frame open (R164). -/
theorem foldl_commit_of_no_sentinel {l : List Byte} (h : ∀ b ∈ l, b ≠ 0x0A#8) (k : Channel) :
    (l.foldl (fun k b => commit c b k) k).done = k.done ∧
      (l.foldl (fun k b => commit c b k) k).timeout = k.timeout := by
  induction l generalizing k with
  | nil => exact ⟨rfl, rfl⟩
  | cons b l ih =>
    obtain ⟨hb, hl⟩ := List.forall_mem_cons.1 h
    obtain ⟨hdone, hto⟩ := ih hl (commit c b k)
    rw [List.foldl_cons, hdone, hto, (commit_of_no_sentinel hr fun ⟨_, _, hs⟩ => hb hs).1, commit_timeout]
    exact ⟨rfl, rfl⟩

end Sensor

/-- An empty frame: nothing has been committed since the ARM. -/
theorem frameBytes_of_empty (c : Chan) {k : Channel} (h : k.cur = 0#5) : frameBytes c k = some [] := by
  rw [frameBytes_eq_some, h]
  exact ⟨Nat.zero_le _, rfl⟩

/-- Settles O41: the frame and `ovf` follow the bytes one by one; the frame stays open up to the last, which ends it. -/
theorem committedBytesAreTheSensorFrame : Obligations.CommittedBytesAreTheSensorFrame := by
  rintro c k k' body f hr - hcur hdone hto hovf hbody rfl rfl
  obtain ⟨hopen, htime⟩ := foldl_commit_of_no_sentinel hr hbody k
  refine ⟨?_, ?_, ?_⟩
  · exact frameBytes_foldl_commit hr _ (frameBytes_of_empty c hcur)
  · rw [foldl_commit_ovf hr _ (by simp [hcur])]
    simp [hovf, hcur]
  · rw [List.foldl_concat]
    obtain ⟨hcomplete, hdisarmed⟩ := commit_sentinel hr (hopen.trans hdone) (htime.trans hto)
    exact ⟨hcomplete, hdisarmed, commit_last ..⟩

/-! ### The ring of the host channel -/

/-- The host channel since the ARM, `l` being all the bytes committed to it: the ring holds them in order from slot 0,
and has not overrun (R163, R165). -/
def RingHolds (l : List Byte) (k : Channel) : Prop :=
  k.fstart = 0#5 ∧ k.count.toNat = l.length ∧ k.cur.toNat = l.length % 32 ∧ k.ovf = false ∧ k.en = true ∧
  (List.range l.length).map (slotByte .c4 k) = l

/-- While the ring has room, the next byte goes behind the others (R161, R163). -/
theorem ringHolds_commit {l : List Byte} {k : Channel} (b : Byte) (h : RingHolds l k) (hroom : l.length < 32) :
    RingHolds (l ++ [b]) (commit .c4 b k) := by
  obtain ⟨hfs, hcount, hcur, hovf, hen, hslots⟩ := h
  obtain ⟨hcur', hovf', hen', -⟩ := commit_host_ring (c := .c4) rfl b k
  have hslot : k.cur.toNat = l.length := by omega
  rw [RingHolds, List.length_append, List.length_singleton]
  refine ⟨by rw [commit_fstart, hfs], ?_, by rw [hcur', hslot], ?_, by rw [hen', hen], ?_⟩
  · rw [commit_count, sat8Succ_toNat]
    omega
  · rw [← Bool.not_eq_true, hovf']
    simp only [hovf, Bool.false_eq_true, false_or]
    omega
  · have hnext := map_slotByte_commit_succ (c := .c4) b k.cur.isLt
    rwa [hslot, hslots] at hnext

theorem ringHolds_foldl_commit {k : Channel} (h : RingHolds [] k) {f : List Byte} (hf : f.length ≤ 32) :
    RingHolds f (f.foldl (fun k b => commit .c4 b k) k) := by
  induction f using List.reverseRecOn with
  | nil => exact h
  | append_singleton l b ih =>
    rw [List.length_append, List.length_singleton] at hf
    rw [List.foldl_concat]
    exact ringHolds_commit b (ih (by omega)) (by omega)

/-- With the frame at slot 0 a frame-relative index is a slot number (20_memory R72). -/
theorem bufRead_frameSlot_of_ringHolds {l : List Byte} {k : Channel} (h : RingHolds l k) {i : BitVec 8}
    (hi : i.toNat < l.length) (hl : l.length ≤ 32) : bufRead .c4 k (frameSlot .c4 k i) = l[i.toNat]? := by
  obtain ⟨hfs, -, -, -, -, hslots⟩ := h
  have hslot : frameSlot .c4 k i = i.toNat := by
    rw [frameSlot_host rfl, hfs, BitVec.toNat_ofNat]
    omega
  have hread : bufRead .c4 k i.toNat = some (slotByte .c4 k i.toNat) := if_pos (Nat.lt_of_lt_of_le hi hl)
  rw [hslot, hread, ← hslots]
  simp [hi]

/-- R165: a host frame is complete once `HLEN` bytes of it have come. -/
theorem doneStatus_host (s : State) : s.doneStatus .c4 = decide (s.hlen ≤ (s.ch .c4).count.toNat) := rfl

/-- Settles O42: the ring holds the bytes after each commit, and a frame-relative index is then an index of the list. -/
theorem committedBytesFillTheHostRing : Obligations.CommittedBytesFillTheHostRing := by
  rintro s k k' f hen hcur hfs hcount hovf hlen rfl
  have hempty : RingHolds [] k := ⟨hfs, by rw [hcount]; rfl, by rw [hcur]; rfl, hovf, hen, rfl⟩
  have hring := ringHolds_foldl_commit hempty hlen
  have ⟨_, hcount', _, hovf', hen', _⟩ := hring
  refine ⟨hcount', hovf', hen', fun i hi => bufRead_frameSlot_of_ringHolds hring hi hlen, ?_⟩
  rw [doneStatus_host, State.setCh_ch_self, hcount', decide_eq_true_iff]
  exact Iff.rfl

end Sys2Proof.Proofs

/-! The statements of 42_sensor_decoder: the checksum (R201, R202, R209), the grammar (R203), the temperature pair (R205,
R211), RDDEC (R207), DECODE (R206), and a sensor frame from its first edge to its values (R210). -/

namespace Sys2Proof.Proofs

open Sys2Proof Sys2Proof.Machine

/-! ### The checksum -/

/-- Only the low 6 bits of the sum matter (R201). -/
theorem foldl_truncate_toNat (l : List Byte) (a : BitVec 6) :
    (l.foldl (fun (a : BitVec 6) b => a + b.truncate 6) a).toNat = (a.toNat + (l.map BitVec.toNat).sum) % 64 := by
  induction l generalizing a with
  | nil => exact (Nat.mod_eq_of_lt a.isLt).symm
  | cons b l ih =>
    have hb : (b.truncate 6).toNat = b.toNat % 64 := BitVec.toNat_setWidth 6 b
    rw [List.foldl_cons, ih, BitVec.toNat_add, hb, List.map_cons, List.sum_cons]
    omega

/-- Settles O54: a 6-bit accumulator is the sum modulo 64. -/
theorem checksumIsASixBitSum : Obligations.ChecksumIsASixBitSum := by
  intro f _
  have hacc := foldl_truncate_toNat (f.take (f.length - 2)) 0#6
  rw [BitVec.toNat_ofNat, Nat.zero_mod, Nat.zero_add] at hacc
  rw [hacc, ckSum]
  exact ⟨rfl, rfl, by omega, by omega⟩

/-- A change of one entry changes the sum by the difference. -/
theorem sum_set_add {l : List Nat} {p a x : Nat} (hx : l[p]? = some x) : (l.set p a).sum + x = l.sum + a := by
  obtain ⟨hp, rfl⟩ := List.getElem?_eq_some_iff.1 hx
  have hself := List.sum_set l p l[p]
  rw [List.set_getElem_self, if_pos hp] at hself
  rw [List.sum_set, if_pos hp, hself]
  omega

/-- The checksum sees a change of a covered byte modulo 64 (R209). -/
theorem ckSum_set_eq_iff {f : List Byte} {p : Nat} {b x : Byte} (hx : f[p]? = some x) (hp : p + 2 < f.length) :
    ckSum (f.set p b) = ckSum f ↔ b.toNat % 64 = x.toNat % 64 := by
  have hx' : ((f.take (f.length - 2)).map BitVec.toNat)[p]? = some x.toNat := by
    rw [List.getElem?_map, List.getElem?_take_of_lt (by omega), hx, Option.map_some]
  have hsum := sum_set_add (a := b.toNat) hx'
  rw [ckSum, ckSum, List.length_set, List.take_set, List.map_set]
  omega

/-- The checksum does not cover itself and the LF (R201). -/
theorem ckSum_set_of_le {f : List Byte} {p : Nat} (b : Byte) (hp : f.length ≤ p + 2) : ckSum (f.set p b) = ckSum f := by
  rw [ckSum, ckSum, List.length_set, List.take_set_of_le (by omega)]

/-- The checksum byte is judged by its number (R202). -/
theorem ckOk_eq_true {f : List Byte} {ovf : Bool} :
    ckOk f ovf = true ↔ ovf = false ∧ 4 ≤ f.length ∧ f[f.length - 1]? = some 0x0A#8 ∧ f[f.length - 4]? = some 0x0D#8 ∧
      ∃ ck, f[f.length - 2]? = some ck ∧ ck.toNat = ckSum f := by
  rw [ckOk_iff, Option.map_eq_some_iff]
  rfl

section Changes

variable {f : List Byte} {p : Nat} {b x : Byte} (hok : ckOk f false = true) (hx : f[p]? = some x)

include hok

/-- After a change of a covered byte the tail is read as before, but for a changed CR (R202). -/
theorem ckOk_set_of_lt (hp : p + 2 < f.length) :
    ckOk (f.set p b) false = true ↔ (p + 4 = f.length → b = 0x0D#8) ∧ ckSum (f.set p b) = ckSum f := by
  obtain ⟨-, hlen, hlf, hcr, ck, hck, hsum⟩ := ckOk_eq_true.1 hok
  have hcr' : (f.set p b)[f.length - 4]? = some 0x0D#8 ↔ (p + 4 = f.length → b = 0x0D#8) := by
    by_cases hpos : p + 4 = f.length
    · rw [show f.length - 4 = p by omega, List.getElem?_set_self (by omega)]
      simp [hpos]
    · rw [List.getElem?_set_ne (by omega), hcr]
      simp [hpos]
  rw [ckOk_eq_true, List.length_set, hcr', List.getElem?_set_ne (by omega), List.getElem?_set_ne (by omega), hck, hlf]
  simp [hlen, hsum, eq_comm]

include hx

/-- Only its old value is right for the checksum byte (R202). -/
theorem eq_of_ckOk_set (hp : p + 2 = f.length) (h : ckOk (f.set p b) false = true) : b = x := by
  obtain ⟨-, -, -, -, ck, hck, hsum⟩ := ckOk_eq_true.1 hok
  obtain ⟨-, -, -, -, ck', hck', hsum'⟩ := ckOk_eq_true.1 h
  have hpos : f.length - 2 = p := by omega
  rw [hpos, hx] at hck
  rw [List.length_set, hpos, List.getElem?_set_self (by omega)] at hck'
  cases hck
  cases hck'
  rw [ckSum_set_of_le b hp.ge] at hsum'
  exact BitVec.eq_of_toNat_eq (hsum'.trans hsum.symm)

/-- The CR is the byte at `L - 4` (R202). -/
theorem eq_cr_of_ckOk (hp : p + 4 = f.length) : x = 0x0D#8 := by
  obtain ⟨-, -, -, hcr, -⟩ := ckOk_eq_true.1 hok
  rw [show f.length - 4 = p by omega, hx] at hcr
  exact Option.some.inj hcr

end Changes

/-- Settles O55: a change of a covered byte moves the sum, or the tail at the CR; one of the checksum byte moves the
comparison. -/
theorem checksumDetectsSingleByteChanges : Obligations.ChecksumDetectsSingleByteChanges := by
  refine ⟨fun f ovf => ckOk_eq_true, fun f p b x hok hx hne => ⟨fun hp hmod => ?_, fun hp hcr hmod => ?_, fun hp => ?_,
    fun hp => ?_⟩⟩
  · exact Bool.eq_false_iff.2 fun h => hmod ((ckSum_set_eq_iff hx hp).1 ((ckOk_set_of_lt hok hp).1 h).2)
  · exact (ckOk_set_of_lt hok hp).2 ⟨fun hpos => absurd hpos hcr, (ckSum_set_eq_iff hx hp).2 hmod⟩
  · exact Bool.eq_false_iff.2 fun h => hne (eq_of_ckOk_set hok hx hp h)
  · exact Bool.eq_false_iff.2 fun h =>
      hne ((((ckOk_set_of_lt hok (by omega)).1 h).1 hp).trans (eq_cr_of_ckOk hok hx hp).symm)

/-! ### The grammar -/

/-- The digits of a frame of the grammar: 1 to 4 of soil, 1 to 3 of temperature (R203). -/
def FrameDigits (d e : List Byte) : Prop :=
  1 ≤ d.length ∧ d.length ≤ 4 ∧ 1 ≤ e.length ∧ e.length ≤ 3 ∧ ∀ b ∈ d ++ e, 0x30 ≤ b.toNat ∧ b.toNat ≤ 0x39

/-- A frame up to its temperature digits (R203). -/
def frameText (d e : List Byte) : List Byte := d ++ [0x20#8, 0x30#8, 0x20#8] ++ e

theorem frameText_length (d e : List Byte) : (frameText d e).length = d.length + 3 + e.length := by
  simp only [frameText, List.length_append, List.length_cons, List.length_nil]

/-- The verdict, clause by clause (R203). -/
theorem formatOk_eq_some {f d e : List Byte} {ovf : Bool} :
    formatOk f ovf = some (d, e) ↔
      ovf = false ∧ (9 ≤ f.length ∧ f.length ≤ 14) ∧ (f[f.length - 1]? = some chLF ∧ f[f.length - 4]? = some chCR) ∧
      ∃ sp, f.findIdx? (· == chSpace) = some sp ∧ (1 ≤ sp ∧ sp ≤ 4) ∧ (f.take sp).all isDigit = true ∧
        (f[sp + 1]? = some chZero ∧ f[sp + 2]? = some chSpace) ∧
        (1 ≤ f.length - 4 - (sp + 3) ∧ f.length - 4 - (sp + 3) ≤ 3) ∧
        ((f.drop (sp + 3)).take (f.length - 4 - (sp + 3))).all isDigit = true ∧
        f.take sp = d ∧ (f.drop (sp + 3)).take (f.length - 4 - (sp + 3)) = e := by
  simp only [formatOk, Option.ite_none_left_eq_some, not_or, not_not]
  rcases f.findIdx? (· == chSpace) with _ | sp
  · simp
  · simp only [Option.ite_none_left_eq_some, Option.some.injEq, Prod.mk.injEq, not_or, not_not, exists_eq_left',
      Bool.not_eq_true, Bool.not_eq_false]

theorem drop_eq_cons_of_getElem? {l : List Byte} {i : Nat} {b : Byte} (h : l[i]? = some b) :
    l.drop i = b :: l.drop (i + 1) := by
  obtain ⟨hi, rfl⟩ := List.getElem?_eq_some_iff.1 h
  exact List.drop_eq_getElem_cons hi

theorem drop_of_length_eq_add_four {f : List Byte} {n : Nat} {w z : Byte} (hlen : f.length = n + 4)
    (hw : f[n]? = some w) (hz : f[n + 3]? = some z) : ∃ x y, f.drop n = [w, x, y, z] := by
  refine ⟨f[n + 1], f[n + 2], ?_⟩
  rw [drop_eq_cons_of_getElem? hw, List.drop_eq_getElem_cons (by omega), List.drop_eq_getElem_cons (by omega),
    drop_eq_cons_of_getElem? hz, List.drop_eq_nil_of_le hlen.le]

/-- An accepted frame is its digits, the literal " 0 " between them, and four bytes of tail. -/
theorem eq_frameText_of_formatOk {f d e : List Byte} {ovf : Bool} (h : formatOk f ovf = some (d, e)) :
    ∃ tag ck, f = frameText d e ++ [0x0D#8, tag, ck, 0x0A#8] := by
  obtain ⟨-, ⟨hmin, -⟩, ⟨hlf, hcr⟩, sp, hsp, -, -, ⟨hzero, hspace⟩, ⟨hdigits, -⟩, -, hd, he⟩ := formatOk_eq_some.1 h
  obtain ⟨m, hm⟩ : ∃ m, f.length = sp + 3 + m + 4 := ⟨f.length - (sp + 7), by omega⟩
  have hm' : f.length - 4 - (sp + 3) = m := by omega
  rw [hm'] at he
  rw [hm] at hlf hcr
  obtain ⟨tag, ck, htail⟩ := drop_of_length_eq_add_four hm hcr hlf
  obtain ⟨hlt, heq, -⟩ := List.findIdx?_eq_some_iff_getElem.1 hsp
  have hfirst : f[sp]? = some 0x20#8 := List.getElem?_eq_some_iff.2 ⟨hlt, beq_iff_eq.1 heq⟩
  refine ⟨tag, ck, ?_⟩
  calc f = f.take sp ++ f.drop sp := (List.take_append_drop sp f).symm
    _ = d ++ 0x20#8 :: 0x30#8 :: 0x20#8 :: f.drop (sp + 3) := by
      rw [hd, drop_eq_cons_of_getElem? hfirst, drop_eq_cons_of_getElem? hzero, drop_eq_cons_of_getElem? hspace]
      rfl
    _ = d ++ 0x20#8 :: 0x30#8 :: 0x20#8 :: (e ++ f.drop (sp + 3 + m)) := by
      rw [← he, ← List.drop_drop (i := m), List.take_append_drop]
    _ = _ := by
      rw [htail]
      simp [frameText, chCR, chLF]

theorem frameDigits_of_formatOk {f d e : List Byte} {ovf : Bool} (h : formatOk f ovf = some (d, e)) :
    FrameDigits d e := by
  obtain ⟨-, ⟨hmin, -⟩, -, sp, hsp, ⟨hsp1, hsp4⟩, hsoil, -, ⟨ht1, ht3⟩, htemp, rfl, rfl⟩ := formatOk_eq_some.1 h
  have hlt := (List.findIdx?_eq_some_iff_getElem.1 hsp).1
  rw [FrameDigits, List.length_take, List.length_take, List.length_drop]
  refine ⟨by omega, by omega, by omega, by omega, fun b hb => (isDigit_iff b).1 ?_⟩
  exact (List.mem_append.1 hb).elim (List.all_eq_true.1 hsoil b) (List.all_eq_true.1 htemp b)

/-- The first space of a frame follows the soil digits, since a digit is no space. -/
theorem findIdx?_space_append {d : List Byte} (hd : d.all isDigit = true) (l : List Byte) :
    (d ++ 0x20#8 :: l).findIdx? (· == chSpace) = some d.length := by
  have hnone : d.findIdx? (· == chSpace) = none := by
    refine List.findIdx?_eq_none_iff.2 fun b hb => beq_eq_false_iff_ne.2 ?_
    rintro rfl
    exact absurd (List.all_eq_true.1 hd _ hb) (by decide)
  rw [List.findIdx?_append, hnone]
  simp [chSpace, List.findIdx?_cons]

theorem getElem?_append_four (l : List Byte) (w x y z : Byte) :
    (l ++ [w, x, y, z])[(l ++ [w, x, y, z]).length - 1]? = some z ∧
      (l ++ [w, x, y, z])[(l ++ [w, x, y, z]).length - 4]? = some w ∧
      (l ++ [w, x, y, z])[(l ++ [w, x, y, z]).length - 2]? = some y := by
  simp

theorem formatOk_frameText {d e : List Byte} (h : FrameDigits d e) (tag ck : Byte) :
    formatOk (frameText d e ++ [0x0D#8, tag, ck, 0x0A#8]) false = some (d, e) := by
  obtain ⟨hd1, hd4, he1, he3, hdig⟩ := h
  have hall : (d ++ e).all isDigit = true := List.all_eq_true.2 fun b hb => (isDigit_iff b).2 (hdig b hb)
  rw [List.all_append, Bool.and_eq_true] at hall
  obtain ⟨hlf, hcr, -⟩ := getElem?_append_four (frameText d e) 0x0D#8 tag ck 0x0A#8
  generalize hf : frameText d e ++ [0x0D#8, tag, ck, 0x0A#8] = f at hlf hcr ⊢
  have hlen : f.length = d.length + 3 + e.length + 4 := by
    rw [← hf, List.length_append, frameText_length]
    rfl
  have hsoil : f = d ++ 0x20#8 :: 0x30#8 :: 0x20#8 :: (e ++ [0x0D#8, tag, ck, 0x0A#8]) := by simp [← hf, frameText]
  have htemp : (f.drop (d.length + 3)).take (f.length - 4 - (d.length + 3)) = e := by
    rw [show f.length - 4 - (d.length + 3) = e.length by omega, hsoil, List.drop_length_add_append]
    exact List.take_left
  refine formatOk_eq_some.2 ⟨rfl, ⟨by omega, by omega⟩, ⟨hlf, hcr⟩, d.length, ?_, ⟨hd1, hd4⟩, ?_, ⟨?_, ?_⟩,
    ⟨by omega, by omega⟩, ?_, ?_, htemp⟩
  · rw [hsoil, findIdx?_space_append hall.1]
  · rw [hsoil, List.take_left, hall.1]
  · simp [hsoil, chZero]
  · simp [hsoil, chSpace]
  · rw [htemp, hall.2]
  · rw [hsoil, List.take_left]

/-- Settles O56: what the algorithm takes apart is the layout, and the layout passes each of its tests. -/
theorem formatAlgorithmAcceptsExactlyTheGrammar : Obligations.FormatAlgorithmAcceptsExactlyTheGrammar := by
  intro f d e ovf
  constructor
  · intro h
    obtain ⟨hd1, hd4, he1, he3, hdig⟩ := frameDigits_of_formatOk h
    exact ⟨(formatOk_eq_some.1 h).1, hd1, hd4, he1, he3, hdig, eq_frameText_of_formatOk h⟩
  · rintro ⟨rfl, hd1, hd4, he1, he3, hdig, tag, ck, rfl⟩
    exact formatOk_frameText ⟨hd1, hd4, he1, he3, hdig⟩ tag ck

/-! ### The values -/

@[simp] theorem decodeFrame_ckok (c : Chan) (f : List Byte) (ovf : Bool) : (decodeFrame c f ovf).ckok = ckOk f ovf := by
  unfold decodeFrame
  split <;> rfl
@[simp] theorem decodeFrame_dvalid (c : Chan) (f : List Byte) (ovf : Bool) : (decodeFrame c f ovf).dvalid = true := by
  unfold decodeFrame
  split <;> rfl
@[simp] theorem decodeFrame_dch_toNat (c : Chan) (f : List Byte) (ovf : Bool) :
    (decodeFrame c f ovf).dch.toNat = c.num := by
  unfold decodeFrame
  split <;> cases c <;> rfl

/-- The values of a frame whose format verdict is 1, as numbers (R204, R205). -/
theorem decodeFrame_of_formatOk (c : Chan) {f d e : List Byte} {ovf : Bool} (h : formatOk f ovf = some (d, e)) :
    (decodeFrame c f ovf).fmtok = true ∧ (decodeFrame c f ovf).soil.toNat = 2 * decimal d ∧
      (decodeFrame c f ovf).temp.toNat = (if decimal e < 400 then 400 - decimal e else decimal e - 400) ∧
      (decodeFrame c f ovf).tneg = decide (decimal e < 400) := by
  obtain ⟨⟨hd, hdl⟩, he, hel⟩ := formatOk_digits h
  rw [decodeFrame, h]
  exact ⟨rfl, soilOf_toNat (decimal_lt_of_length_le hd hdl), tempOf_toNat (decimal_lt_of_length_le he hel), rfl⟩

theorem decodeFrame_of_formatOk_none (c : Chan) {f : List Byte} {ovf : Bool} (h : formatOk f ovf = none) :
    (decodeFrame c f ovf).fmtok = false ∧ (decodeFrame c f ovf).soil = 0#16 ∧ (decodeFrame c f ovf).temp = 0#16 ∧
      (decodeFrame c f ovf).tneg = false := by
  rw [decodeFrame, h]
  exact ⟨rfl, rfl, rfl, rfl⟩

/-- Sign and magnitude together are the digits' value less 400 (R211). -/
theorem decodeFrame_signed (c : Chan) {f d e : List Byte} {ovf : Bool} (h : formatOk f ovf = some (d, e)) :
    (if (decodeFrame c f ovf).tneg then -((decodeFrame c f ovf).temp.toNat : Int)
      else ((decodeFrame c f ovf).temp.toNat : Int)) = (decimal e : Int) - 400 := by
  obtain ⟨-, -, htemp, htneg⟩ := decodeFrame_of_formatOk c h
  rw [htemp, htneg]
  by_cases hv : decimal e < 400
  · rw [decide_eq_true hv, if_pos rfl, if_pos hv]
    omega
  · rw [decide_eq_false hv, if_neg Bool.false_ne_true, if_neg hv]
    omega

/-- Settles O57: three digits are worth at most 999, and the two branches of R205 meet at 400, which is no negative. -/
theorem temperatureIsSignAndMagnitude : Obligations.TemperatureIsSignAndMagnitude := by
  intro c f d e ovf h
  obtain ⟨-, he, hel⟩ := formatOk_digits h
  have hv := decimal_lt_of_length_le he hel
  obtain ⟨-, -, htemp, htneg⟩ := decodeFrame_of_formatOk c h
  refine ⟨by omega, decodeFrame_signed c h, fun ⟨hneg, hzero⟩ => ?_, ?_⟩
  · rw [htneg, decide_eq_true_iff] at hneg
    rw [hzero, if_pos hneg, BitVec.toNat_ofNat] at htemp
    omega
  · rw [htemp]
    split <;> omega

/-! ### RDDEC -/

/-- The flag word, field by field (10_state R60). -/
theorem flagsWord_fields (d : Dec) :
    d.flagsWord.getLsbD 0 = d.dvalid ∧ d.flagsWord.getLsbD 1 = d.fmtok ∧ d.flagsWord.getLsbD 2 = d.ckok ∧
      d.flagsWord.getLsbD 3 = d.tneg ∧ d.flagsWord.extractLsb' 4 3 = d.dch ∧ d.flagsWord.extractLsb' 7 9 = 0#9 := by
  have hdch := d.dch.isLt
  have hflag (i : Nat) (b : Bool) (h : d.flagsWord.toNat / 2 ^ i % 2 = b.toNat) : d.flagsWord.getLsbD i = b := by
    rw [getLsbD_eq_digit, h]
    cases b <;> rfl
  have hv := d.dvalid.toNat_le
  have hf := d.fmtok.toNat_le
  have hc := d.ckok.toNat_le
  have ht := d.tneg.toNat_le
  have hw := d.flagsWord_toNat
  refine ⟨hflag 0 _ (by omega), hflag 1 _ (by omega), hflag 2 _ (by omega), hflag 3 _ (by omega),
    BitVec.eq_of_toNat_eq ?_, BitVec.eq_of_toNat_eq ?_⟩
  · rw [extract_toNat]
    omega
  · rw [extract_toNat, BitVec.toNat_ofNat]
    omega

theorem exec_rddec_of_selector {sel : BitVec 8} {r : DecReg} (h : DecReg.ofSelector sel = some r) (s : State) :
    exec (.rddec sel) s = .next (s.respond .ok (s.dec.read r)) := by
  rw [exec, execRddec, h]

theorem exec_rddec_of_ge {sel : BitVec 8} (h : 3 ≤ sel.toNat) (s : State) :
    exec (.rddec sel) s = .next (s.reject .badIdx) := by
  have hnone : DecReg.ofSelector sel = none := by
    unfold DecReg.ofSelector
    split
    iterate 3 omega
    rfl
  rw [exec, execRddec, hnone]

/-- Settles O21: three selectors name the registers, and every answer is `respond` alone. -/
theorem rddecReadsOneResultRegister : Obligations.RddecReadsOneResultRegister := by
  have hread (s : State) (w : Word) : OnlyResponse s (s.respond .ok w) ∧ SameBytes s (s.respond .ok w) :=
    ⟨OnlyResponse.respond s .ok w, (OnlyResponse.respond s .ok w).sameBytes⟩
  refine ⟨fun i => decode_encode (i := .rddec i) rfl, fun s => ⟨_, exec_rddec_of_selector rfl s, rfl, hread s _⟩,
    fun s => ⟨_, exec_rddec_of_selector rfl s, rfl, hread s _⟩, fun s => ?_,
    fun s i hi => ⟨_, exec_rddec_of_ge hi s, rfl, OnlyResponse.reject s _⟩, badOpWhere_of_badOpWord fun w hw => ?_⟩
  · obtain ⟨hdvalid, hfmtok, hckok, htneg, hdch, hzero⟩ := flagsWord_fields s.dec
    exact ⟨_, s.dec.flagsWord, exec_rddec_of_selector (r := .flags) rfl s, rfl, hdvalid, hfmtok, hckok,
      htneg, hdch, hzero, hread s _⟩
  · exact decide_eq_true (.inr (.inr (.inl hw)))

/-! ### DECODE -/

section Decode

variable {s : State} {c : Chan} (hr : c.role = .sensor)

include hr

theorem exec_decode_of_done {f : List Byte} (hd : (s.ch c).done = true) (hf : frameBytes c (s.ch c) = some f) :
    exec (.decode c.nibble) s = .next ((s.setDec (decodeFrame c f (s.ch c).ovf)).respond .ok
      (decodeFrame c f (s.ch c).ovf).flagsWord) := by
  simp only [exec, execDecode, Chan.ofNibble_nibble, decodeOn, hr, hd, hf, if_true]

theorem exec_decode_of_not_done (hd : (s.ch c).done = false) :
    exec (.decode c.nibble) s = .next (s.reject .notReady) := by
  simp only [exec, execDecode, Chan.ofNibble_nibble, decodeOn, hr, hd, Bool.false_eq_true, if_false]

end Decode

/-- Settles O16: an accepted DECODE is `decodeFrame` on the slots below `cur`, and writes no channel. -/
theorem decodeReadsTheFrame : Obligations.DecodeReadsTheFrame := by
  refine ⟨fun c => decode_encode (i := .decode c) rfl, fun s c f hr hd hcur hf => ?_,
    fun s c hr hd => ⟨_, exec_decode_of_not_done hr hd, rfl, OnlyResponse.reject s _⟩,
    fun s => ⟨_, rfl, rfl, OnlyResponse.reject s _⟩, fun s x hx => ?_, badOpWhere_imm (by decide)⟩
  · have hexec := exec_decode_of_done hr hd (frameBytes_eq_some.2 ⟨by rwa [Chan.cap_sensor hr], hf⟩)
    obtain ⟨hdvalid, hfmtok, hckok, htneg, hdch, hzero⟩ := flagsWord_fields (decodeFrame c f (s.ch c).ovf)
    refine ⟨_, _, hexec, rfl, decodeFrame_ckok .., decodeFrame_dvalid .., decodeFrame_dch_toNat .., fun d e hfmt => ?_,
      decodeFrame_of_formatOk_none c, hdvalid, hfmtok, hckok, htneg, hdch, hzero, exec_sameBytes hexec (.inl nofun),
      fun d => by simp, rfl, rfl, rfl⟩
    obtain ⟨hok, hsoil, htemp, hneg⟩ := decodeFrame_of_formatOk c hfmt
    exact ⟨hok, hsoil, fun hlt => ⟨htemp.trans (if_pos hlt), hneg.trans (decide_eq_true hlt)⟩,
      fun hge => ⟨htemp.trans (if_neg (by omega)), hneg.trans (decide_eq_false (by omega))⟩⟩
  · refine ⟨_, ?_, rfl, OnlyResponse.reject s .badCh⟩
    rw [exec, execDecode, Chan.ofNibble_eq_none.2 hx]

/-! ### From the wire to the values -/

/-- What the eleven events of a byte do to its channel: they commit it and bring the channel back to `WAIT` (R132). -/
def receiveByte (c : Chan) (k : Channel) (b : Byte) : Channel := finalize c { k with shift := b }

/-- A commit reads nothing of the reception, and `finalize` writes over its `phase` and `bits`. -/
theorem receiveByte_eq (c : Chan) (k : Channel) (b : Byte) (p : Phase) (n : BitVec 4) (x : Byte) :
    receiveByte c { k with phase := p, bits := n, shift := x } b =
      { commit c b k with phase := .wait, bits := 15#4, shift := b } := by
  cases hr : c.role
  · simp [receiveByte, finalize, commit_sensor_eq hr]
  · simp [receiveByte, finalize, commit_host_eq hr]

/-- Bytes received one after the other are committed one after the other. -/
theorem foldl_receiveByte (c : Chan) (l : List Byte) {k : Channel} (h : k.phase = .wait) :
    ∃ n x, l.foldl (receiveByte c) k =
      { l.foldl (fun k b => commit c b k) k with phase := .wait, bits := n, shift := x } := by
  induction l using List.reverseRecOn with
  | nil => exact ⟨k.bits, k.shift, by rw [List.foldl_nil, List.foldl_nil, ← h]⟩
  | append_singleton l b ih =>
    obtain ⟨n, x, hl⟩ := ih
    exact ⟨15#4, b, by rw [List.foldl_concat, List.foldl_concat, hl, receiveByte_eq]⟩

theorem foldl_commit_en_of_no_sentinel {c : Chan} (hr : c.role = .sensor) {l : List Byte} (h : ∀ b ∈ l, b ≠ 0x0A#8)
    (k : Channel) : (l.foldl (fun k b => commit c b k) k).en = k.en := by
  induction l generalizing k with
  | nil => rfl
  | cons b l ih =>
    obtain ⟨hb, hl⟩ := List.forall_mem_cons.1 h
    rw [List.foldl_cons, ih hl, (commit_of_no_sentinel hr fun ⟨_, _, hs⟩ => hb hs).2]

theorem receiving_receiving (s : State) (c : Chan) (k k' : Channel) (b b' : BitClock) (rest rest' : List PortWord) :
    receiving (receiving s c k b rest) c k' b' rest' = receiving s c k' b' rest' :=
  eq_receiving (by simp) (fun d hd => by simp [hd]) rfl (by simp) (by simp) rfl rfl

theorem rxFrame_concat (c : Chan) (l : List Byte) (b : Byte) : rxFrame c (l ++ [b]) = rxFrame c l ++ rxByte c b := by
  simp [rxFrame]

/-- The run of RXFRAME: up to a last byte the channel stays armed, so every byte is received (R109, R131, R132). -/
theorem run_rxFrame {s : State} {c : Chan} (hr : c.role = .sensor) (he : (s.ch c).en = true) (hb : s.bclk = .stop)
    (hw : ∀ d, (s.ch d).phase = .wait) {l : List Byte} (hl : ∀ b ∈ l, b ≠ 0x0A#8) {b : Byte} {rest : List PortWord}
    (hi : s.input = rxFrame c (l ++ [b]) ++ rest) :
    Host.Core.run Sys2Proof.core (11 * (l.length + 1)) s =
      .next (receiving s c ((l ++ [b]).foldl (receiveByte c) (s.ch c)) .stop rest) := by
  rw [rxFrame_concat, List.append_assoc] at hi
  induction l using List.reverseRecOn generalizing b rest with
  | nil => exact run_rxByte he hb hw hi
  | append_singleton l a ih =>
    rw [rxFrame_concat, List.append_assoc] at hi
    have hfirst := ih (fun x hx => hl x (List.mem_append_left _ hx)) hi
    obtain ⟨n, x, hfold⟩ := foldl_receiveByte c (l ++ [a]) (hw c)
    have hen : ((l ++ [a]).foldl (receiveByte c) (s.ch c)).en = true := by
      rw [hfold]
      exact (foldl_commit_en_of_no_sentinel hr hl _).trans he
    have hwait (d : Chan) :
        ((receiving s c ((l ++ [a]).foldl (receiveByte c) (s.ch c)) .stop (rxByte c b ++ rest)).ch d).phase = .wait := by
      rw [receiving_ch]
      split
      · rw [hfold]
      · exact hw d
    rw [List.length_append, List.length_singleton, Nat.mul_succ, run_add hfirst,
      run_rxByte (by rwa [receiving_ch, if_pos rfl]) rfl hwait rfl, receiving_receiving, receiving_ch, if_pos rfl,
      List.foldl_concat _ _ b]
    rfl

/-- What stands on a freshly armed channel once a frame of at most 16 bytes has come, the sentinel last (R174). -/
theorem foldl_receiveByte_frame {c : Chan} (hr : c.role = .sensor) {k : Channel} (hen : k.en = true) (hcur : k.cur = 0#5)
    (hd : k.done = false) (hto : k.timeout = false) (hovf : k.ovf = false) (hp : k.phase = .wait) {l : List Byte}
    (hl : ∀ b ∈ l, b ≠ 0x0A#8) (hlen : l.length < 16) :
    frameBytes c ((l ++ [0x0A#8]).foldl (receiveByte c) k) = some (l ++ [0x0A#8]) ∧
      ((l ++ [0x0A#8]).foldl (receiveByte c) k).ovf = false ∧ ((l ++ [0x0A#8]).foldl (receiveByte c) k).done = true := by
  obtain ⟨hbytes, hfull, hdone, -⟩ := committedBytesAreTheSensorFrame c k _ l _ hr hen hcur hd hto hovf hl rfl rfl
  obtain ⟨n, x, hfold⟩ := foldl_receiveByte c (l ++ [0x0A#8]) hp
  have hshort : (l ++ [0x0A#8]).length ≤ 16 := by simpa using hlen
  rw [hfold]
  refine ⟨?_, Bool.eq_false_iff.2 fun h => absurd (hfull.1 h) (by omega), hdone⟩
  rwa [List.take_of_length_le hshort] at hbytes

/-- A frame of the grammar holds no sentinel before its end, if its tag is none: the checksum is 32 or more (R201). -/
theorem no_sentinel_in_frameText {d e : List Byte} (h : FrameDigits d e) {tag ck : Byte} (ht : tag ≠ 0x0A#8)
    (hck : 32 ≤ ck.toNat) : ∀ b ∈ frameText d e ++ [0x0D#8, tag, ck], b ≠ 0x0A#8 := by
  obtain ⟨-, -, -, -, hdig⟩ := h
  have hck' : ck ≠ 0x0A#8 := by
    rintro rfl
    exact absurd hck (by decide)
  have hdig' (b : Byte) (hb : b ∈ d ++ e) : b ≠ 0x0A#8 := by
    rintro rfl
    exact absurd (hdig _ hb).1 (by decide)
  simp only [frameText, List.forall_mem_append, List.forall_mem_cons] at hdig' ⊢
  exact ⟨⟨⟨hdig'.1, by decide, by decide, by decide, nofun⟩, hdig'.2⟩, by decide, ht, hck', nofun⟩

/-- RXFRAME on a freshly armed channel and then DECODE: the registers hold what the decoder reads off the frame (R206). -/
theorem run_rxFrame_decode {s : State} {c : Chan} (hr : c.role = .sensor) (hen : (s.ch c).en = true)
    (hcur : (s.ch c).cur = 0#5) (hd : (s.ch c).done = false) (hto : (s.ch c).timeout = false)
    (hovf : (s.ch c).ovf = false) (hb : s.bclk = .stop) (hw : ∀ d, (s.ch d).phase = .wait) {l : List Byte}
    (hl : ∀ b ∈ l, b ≠ 0x0A#8) (hlen : l.length < 16)
    (hi : s.input = rxFrame c (l ++ [0x0A#8]) ++ [encode (.decode c.nibble)]) :
    ∃ t, Host.Core.run Sys2Proof.core (11 * (l.length + 1) + 1) s = .next t ∧ (t.ch c).done = true ∧
      t.dec = decodeFrame c (l ++ [0x0A#8]) false ∧ t.resp = some ⟨.ok, t.dec.flagsWord⟩ := by
  obtain ⟨hbytes, hfull, hcomplete⟩ := foldl_receiveByte_frame hr hen hcur hd hto hovf (hw c) hl hlen
  have hrun := run_rxFrame hr hen hb hw hl hi
  generalize (l ++ [0x0A#8]).foldl (receiveByte c) (s.ch c) = k at *
  have hself : (receiving s c k .stop []).ch c = k := (receiving_ch ..).trans (if_pos rfl)
  have hdecode := exec_decode_of_done (s := receiving s c k .stop []) hr (hself.symm ▸ hcomplete) (hself.symm ▸ hbytes)
  rw [hself, hfull] at hdecode
  have hstep := (step_receiving s c k .stop [] (i := .decode c.nibble) rfl).trans hdecode
  refine ⟨_, (run_add hrun 1).trans (run_succ_of_step hstep 0), ?_, rfl, rfl⟩
  rw [State.respond_ch, State.setDec_ch, hself, hcomplete]

theorem ckOk_frameText {d e : List Byte} {tag ck : Byte} {f : List Byte}
    (hf : f = frameText d e ++ [0x0D#8, tag, ck, 0x0A#8]) (hck : ck.toNat = ckSum f) : ckOk f false = true := by
  obtain ⟨hlf, hcr, hsum⟩ := getElem?_append_four (frameText d e) 0x0D#8 tag ck 0x0A#8
  rw [← hf] at hlf hcr hsum
  refine ckOk_eq_true.2 ⟨rfl, ?_, hlf, hcr, ck, hsum, hck⟩
  rw [hf, List.length_append]
  exact Nat.le_add_left 4 _

/-- Settles O35: the frame is received whole, and it is of the grammar and has its checksum where R202 looks for it. -/
theorem receivedSensorFrameIsDecoded : Obligations.ReceivedSensorFrameIsDecoded := by
  intro s c d e tag ck f hr hen hcur hdone hto hovf hb hw hd1 hd4 he1 he3 hdig htag hf hck hi
  have hdigits : FrameDigits d e := ⟨hd1, hd4, he1, he3, hdig⟩
  have hsplit : f = frameText d e ++ [0x0D#8, tag, ck] ++ [0x0A#8] := by
    rw [hf, List.append_assoc _ _ [0x0A#8]]
    rfl
  have hfmt : formatOk f false = some (d, e) := hf.symm ▸ formatOk_frameText hdigits tag ck
  have hbody : (frameText d e ++ [0x0D#8, tag, ck]).length = d.length + 3 + e.length + 3 := by
    rw [List.length_append, frameText_length]
    rfl
  have hlen : f.length = (frameText d e ++ [0x0D#8, tag, ck]).length + 1 :=
    (congrArg List.length hsplit).trans List.length_append
  rw [hsplit] at hi
  obtain ⟨t, hrun, hcomplete, hdec, hresp⟩ := run_rxFrame_decode hr hen hcur hdone hto hovf hb hw
    (no_sentinel_in_frameText hdigits htag (by omega)) (by omega) hi
  rw [← hsplit] at hdec
  obtain ⟨hfmtok, hsoil, -⟩ := decodeFrame_of_formatOk c hfmt
  refine ⟨t, _, hlen ▸ hrun, hresp, hcomplete, ?_⟩
  rw [hdec, decodeFrame_ckok]
  exact ⟨decodeFrame_dvalid .., ckOk_frameText hf hck, hfmtok, decodeFrame_dch_toNat .., hsoil,
    decodeFrame_signed c hfmt⟩

end Sys2Proof.Proofs

/-! The statements of 43_readback: NOP (R240), RDBUF (R241), RDSTAT (R242), RDCNT, RDPTR and RDLAST (R243 to R245) and
RDGLB (R246). -/

namespace Sys2Proof.Proofs

open Sys2Proof Sys2Proof.Machine

/-! ### What the commands answer -/

/-- A word of an opcode without operands is malformed where any other digit is not zero (R92, R95). -/
theorem badOpWhere_of_no_operands {op : Nat} (h : op = 0 ∨ op = 11) :
    BadOpWhere fun w => w.toNat / 4096 = op ∧ w.toNat % 4096 ≠ 0 :=
  badOpWhere_of_badOpWord fun _ ⟨hop, hlow⟩ => decide_eq_true (.inr (.inl ⟨hop ▸ h, hlow⟩))

/-- A response is all that a read command leaves behind. -/
theorem onlyResponse_sameBytes_respond (s : State) (r : Rsp) (w : Word) :
    OnlyResponse s (s.respond r w) ∧ SameBytes s (s.respond r w) :=
  ⟨OnlyResponse.respond s r w, (OnlyResponse.respond s r w).sameBytes⟩

/-- `cap(c)` with the two roles in one expression (20_memory R70). -/
theorem cap_eq_ite (c : Chan) : c.cap = if c.role = .host then 32 else 16 := by cases c <;> rfl

theorem exec_rdbuf (s : State) (c : Chan) (i : BitVec 8) : exec (.rdbuf c.nibble i) s = rdbufOn s c i := by
  simp only [exec, execRdbuf, Chan.ofNibble_nibble]

theorem exec_rdbuf_of_lt {c : Chan} {i : BitVec 8} (h : i.toNat < c.cap) (s : State) :
    exec (.rdbuf c.nibble i) s =
      .next (s.respond .ok ((slotByte c (s.ch c) (frameSlot c (s.ch c) i)).zeroExtend 16)) := by
  rw [exec_rdbuf, rdbufOn_eq, if_pos h]

theorem exec_rdbuf_of_ge {c : Chan} {i : BitVec 8} (h : c.cap ≤ i.toNat) (s : State) :
    exec (.rdbuf c.nibble i) s = .next (s.reject .badIdx) := by
  rw [exec_rdbuf, rdbufOn_eq, if_neg (Nat.not_lt.2 h)]

theorem exec_rdbuf_of_no_channel {x : BitVec 4} (h : 5 ≤ x.toNat) (i : BitVec 8) (s : State) :
    exec (.rdbuf x i) s = .next (s.reject .badCh) := by
  rw [exec, execRdbuf, Chan.ofNibble_eq_none.2 h]

theorem exec_rdstat (s : State) (c : Chan) :
    exec (.rdstat c.nibble) s = .next (s.respond .ok (s.statWord c)) := by
  rw [exec, execRdstat, onChan_nibble]

theorem exec_rdcnt (s : State) (c : Chan) :
    exec (.rdcnt c.nibble) s = .next (s.respond .ok (s.ch c).cntWord) := by
  rw [exec, execRdcnt, onChan_nibble]

theorem exec_rdptr (s : State) (c : Chan) :
    exec (.rdptr c.nibble) s = .next (s.respond .ok (s.ch c).ptrWord) := by
  rw [exec, execRdptr, onChan_nibble]

theorem exec_rdlast (s : State) (c : Chan) :
    exec (.rdlast c.nibble) s = .next (s.respond .ok (s.ch c).lastWord) := by
  rw [exec, execRdlast, onChan_nibble]

/-! ### The fields of the status and global words -/

theorem getLsbD_eq_of_digit {n i : Nat} {w : BitVec n} {b : Bool} (h : w.toNat / 2 ^ i % 2 = b.toNat) :
    w.getLsbD i = b := by
  rw [getLsbD_eq_digit, h]
  cases b <;> rfl

theorem extract_eq_of_digits {n lo len : Nat} {w : BitVec n} {x : BitVec len}
    (h : w.toNat / 2 ^ lo % 2 ^ len = x.toNat) : w.extractLsb' lo len = x :=
  BitVec.eq_of_toNat_eq ((extract_toNat w lo len).trans h)

theorem extract_eq_zero_of_digits {n lo len : Nat} {w : BitVec n} (h : w.toNat / 2 ^ lo % 2 ^ len = 0) :
    w.extractLsb' lo len = 0#len :=
  extract_eq_of_digits (h.trans (BitVec.toNat_zero).symm)

theorem role_bit_toNat (r : Role) : r.bit.toNat = (decide (r = .host)).toNat := by cases r <;> rfl

/-- `DONE(c)` with the two roles in one expression (10_state R46). -/
theorem doneStatus_eq_ite (s : State) (c : Chan) :
    s.doneStatus c = if c.role = .host then decide (s.hlen ≤ (s.ch c).count.toNat) else (s.ch c).done := by
  cases hr : c.role <;> simp [State.doneStatus, hr]

/-- The status word, field by field (10_state R56). -/
theorem statWord_fields (s : State) (c : Chan) :
    (s.statWord c).getLsbD 0 = (s.ch c).en ∧ (s.statWord c).extractLsb' 1 2 = (s.ch c).phase.code ∧
      (s.statWord c).getLsbD 3 = (s.ch c).evf ∧ (s.statWord c).getLsbD 4 = s.doneStatus c ∧
      (s.statWord c).getLsbD 5 = (s.ch c).timeout ∧ (s.statWord c).getLsbD 6 = (s.ch c).ovf ∧
      (s.statWord c).getLsbD 7 = decide (c.role = .host) ∧ (s.statWord c).extractLsb' 8 2 = (s.ch c).rc ∧
      (s.statWord c).extractLsb' 10 2 = 0#2 ∧ (s.statWord c).extractLsb' 12 4 = (s.ch c).bits := by
  have hw := s.statWord_toNat c
  rw [role_bit_toNat] at hw
  have hen := (s.ch c).en.toNat_le
  have hphase := (s.ch c).phase.code.isLt
  have hevf := (s.ch c).evf.toNat_le
  have hdone := (s.doneStatus c).toNat_le
  have hto := (s.ch c).timeout.toNat_le
  have hovf := (s.ch c).ovf.toNat_le
  have hrole := (decide (c.role = .host)).toNat_le
  have hrc := (s.ch c).rc.isLt
  have hbits := (s.ch c).bits.isLt
  refine ⟨getLsbD_eq_of_digit ?_, extract_eq_of_digits ?_, getLsbD_eq_of_digit ?_, getLsbD_eq_of_digit ?_,
    getLsbD_eq_of_digit ?_, getLsbD_eq_of_digit ?_, getLsbD_eq_of_digit ?_, extract_eq_of_digits ?_,
    extract_eq_zero_of_digits ?_, extract_eq_of_digits ?_⟩ <;> omega

/-- The global word, field by field (10_state R61). -/
theorem glbWord_fields (s : State) :
    s.glbWord.extractLsb' 0 2 = s.bclk.code ∧ s.glbWord.getLsbD 2 = s.quiet ∧ s.glbWord.getLsbD 3 = s.wake ∧
      s.glbWord.extractLsb' 4 4 = 0#4 ∧ (∀ c : Chan, s.glbWord.getLsbD (8 + c.num) = (s.ch c).evf) ∧
      s.glbWord.extractLsb' 13 3 = 0#3 := by
  have hw := s.glbWord_toNat
  have hbclk := s.bclk.code.isLt
  have hquiet := s.quiet.toNat_le
  have hwake := s.wake.toNat_le
  have h0 := s.ch0.evf.toNat_le
  have h1 := s.ch1.evf.toNat_le
  have h2 := s.ch2.evf.toNat_le
  have h3 := s.ch3.evf.toNat_le
  have h4 := s.ch4.evf.toNat_le
  refine ⟨extract_eq_of_digits ?_, getLsbD_eq_of_digit ?_, getLsbD_eq_of_digit ?_, extract_eq_zero_of_digits ?_,
    fun c => getLsbD_eq_of_digit ?_, extract_eq_zero_of_digits ?_⟩
  case refine_5 => cases c <;> simp only [Chan.num, State.ch] <;> omega
  all_goals omega

/-! ### The statements -/

/-- Settles O12: NOP is `respond` alone. -/
theorem nopDoesNothing : Obligations.NopDoesNothing :=
  ⟨decode_encode (i := .nop) rfl, fun s => ⟨_, rfl, rfl, onlyResponse_sameBytes_respond s _ _⟩,
    badOpWhere_of_no_operands (.inl rfl)⟩

/-- Settles O18: a legal index answers the byte of its slot, which exists in every state (R72). -/
theorem rdbufReadsTheFrameRelativeSlot : Obligations.RdbufReadsTheFrameRelativeSlot := by
  refine ⟨fun c i => decode_encode (i := .rdbuf c i) rfl, fun s c i hi => ?_, fun s c i hi => ?_,
    fun s x i hx => ⟨_, exec_rdbuf_of_no_channel hx i s, rfl, OnlyResponse.reject s _⟩⟩
  · rw [← cap_eq_ite] at hi ⊢
    exact ⟨_, _, exec_rdbuf_of_lt hi s, rfl, bufRead_eq_some.2 ⟨frameSlot_lt c _ i, rfl⟩,
      onlyResponse_sameBytes_respond s _ _⟩
  · rw [← cap_eq_ite] at hi
    exact ⟨_, exec_rdbuf_of_ge hi s, rfl, OnlyResponse.reject s _⟩

/-- Settles O19: the answer is the status word, whose fields are read off it. -/
theorem rdstatReturnsTheStatusWord : Obligations.RdstatReturnsTheStatusWord := by
  refine ⟨fun c => decode_encode (i := .rdstat c) rfl, fun s c => ?_, fun s x hx => Refuses.badCh hx rfl,
    badOpWhere_imm (by decide)⟩
  obtain ⟨hen, hphase, hevf, hdone, hto, hovf, hrole, hrc, hzero, hbits⟩ := statWord_fields s c
  exact ⟨_, _, exec_rdstat s c, rfl, hen, hphase, hevf, hdone.trans (doneStatus_eq_ite s c), hto, hovf, hrole, hrc,
    hzero, hbits, onlyResponse_sameBytes_respond s _ _⟩

/-- Settles O20: each answer is one word of the channel, in every phase. -/
theorem countPointerAndLastByteWords : Obligations.CountPointerAndLastByteWords := by
  refine ⟨fun c => ⟨decode_encode (i := .rdcnt c) rfl, decode_encode (i := .rdptr c) rfl,
      decode_encode (i := .rdlast c) rfl⟩,
    fun s c => ⟨_, _, exec_rdcnt s c, rfl, (s.ch c).cntWord_toNat, onlyResponse_sameBytes_respond s _ _⟩,
    fun s c => ⟨_, _, exec_rdptr s c, rfl, (s.ch c).ptrWord_toNat, onlyResponse_sameBytes_respond s _ _⟩,
    fun s c => ⟨_, _, exec_rdlast s c, rfl, (s.ch c).lastWord_toNat, onlyResponse_sameBytes_respond s _ _⟩,
    fun s x hx => ⟨Refuses.badCh hx rfl, Refuses.badCh hx rfl, Refuses.badCh hx rfl⟩, ?_⟩
  rintro s w rest ⟨hop | hop | hop, himm⟩
  · exact badOpWhere_imm (op := 7) (by decide) s w rest ⟨hop, himm⟩
  · exact badOpWhere_imm (op := 8) (by decide) s w rest ⟨hop, himm⟩
  · exact badOpWhere_imm (op := 9) (by decide) s w rest ⟨hop, himm⟩

/-- Settles O22: the answer is the global word, with `quiet` and `wake` the output levels of the same state. -/
theorem rdglbReturnsTheGlobalWord : Obligations.RdglbReturnsTheGlobalWord := by
  refine ⟨decode_encode (i := .rdglb) rfl, fun s => ?_, badOpWhere_of_no_operands (.inr rfl)⟩
  obtain ⟨hbclk, hquiet, hwake, hzero, hevf, hhigh⟩ := glbWord_fields s
  exact ⟨_, _, rfl, rfl, hbclk, hquiet ▸ s.quiet_iff, hwake ▸ s.wake_iff, hzero, hevf, hhigh,
    onlyResponse_sameBytes_respond s _ _⟩

end Sys2Proof.Proofs

/-! The statements of 60_exceptions: the response codes (R270 to R273), the outputs `quiet` (R282) and `wake` (R283), and
the order within one step (R279). -/

namespace Sys2Proof.Proofs

open Sys2Proof Sys2Proof.Machine

/-! ### Refusals -/

/-- A command word is answered by `exec` of a command, or rejected as malformed with BADOP (R95, R96). -/
theorem step_cmd_cases {s : State} {w : Word} {rest : List PortWord} (hs : s.input = .cmd w :: rest) :
    (∃ i : Instr, i.isCommand = true ∧ encode i = .cmd w ∧ step s = exec i { s with input := rest, resp := none }) ∨
    ∃ e, decode (.cmd w) = .error e ∧ step s = .next (State.reject { s with input := rest, resp := none } .badOp) := by
  cases hw : decode (.cmd w) with
  | ok i =>
    obtain ⟨-, henc⟩ := decodedWordIsTheEncoding _ _ hw
    have hcmd : i.isCommand = true := by rw [← isCmd_encode, henc]; rfl
    exact .inl ⟨i, hcmd, henc, stepRunsTheDecodedInstruction s _ rest i hs hw⟩
  | error e => exact .inr ⟨e, rfl, (step_of_decode_error hs hw).trans (malformed_cmd hw _)⟩

/-- A command word is answered OK, or the step is a refusal and nothing else (R273). -/
theorem step_cmd_ok_or_reject {s t : State} {w : Word} {rest : List PortWord} (hs : s.input = .cmd w :: rest)
    (h : step s = .next t) :
    (∃ d, t.resp = some ⟨.ok, d⟩) ∨ ∃ r, t = State.reject { s with input := rest, resp := none } r := by
  rcases step_cmd_cases hs with ⟨i, hcmd, -, hstep⟩ | ⟨e, -, hstep⟩
  · exact exec_command_cases hcmd (hstep.symm.trans h)
  · exact .inr ⟨.badOp, Host.Outcome.next.inj (h.symm.trans hstep)⟩

/-- Settles O9: a refused word leads to `reject` on the state without the word, and NOP to `respond` on it. -/
theorem refusedCommandChangesNothing : Obligations.RefusedCommandChangesNothing := by
  intro s t w rest r d hs h hresp hr
  rcases step_cmd_ok_or_reject hs h with ⟨d', hok⟩ | ⟨r', rfl⟩
  · rw [hok] at hresp
    cases hresp
    exact absurd rfl hr
  · cases hresp
    exact ⟨rfl, ⟨fun _ => rfl, rfl, rfl, rfl, rfl⟩, _, rfl, fun _ => rfl, rfl, rfl, rfl, rfl⟩

/-! ### The response codes -/

theorem ifZero_rejects {ok : Bool} {i : Instr} {e : DecodeError} (h : ifZero ok i = .error e) : ok = false := by
  cases ok with
  | false => rfl
  | true => cases h

/-- Every word the command port rejects breaks a rule of R95 or R96. -/
theorem badOpWord_of_decode_error {w : Word} {e : DecodeError} (h : decode (.cmd w) = .error e) :
    badOpWord w = true := by
  have nonzero {n : Nat} {x : BitVec n} (hx : (x == 0#n) = false) : x.toNat ≠ 0 := fun h0 =>
    beq_eq_false_iff_ne.1 hx (BitVec.eq_of_toNat_eq (h0.trans BitVec.toNat_zero.symm))
  rw [← cmd_fields w, badOpWord_append, decide_eq_true_iff]
  simp only [decode, decodeCmd] at h
  split at h <;> rename_i hop
  case h_1 | h_12 =>
    refine .inr (.inl ⟨by simp [hop], fun ⟨hc, himm⟩ => ?_⟩)
    rcases Bool.and_eq_false_iff.1 (ifZero_rejects h) with hz | hz
    · exact nonzero hz hc
    · exact nonzero hz himm
  case h_6 => cases h
  case h_11 => exact .inr (.inr (.inl ⟨hop, nonzero (ifZero_rejects h)⟩))
  case h_13 =>
    simp only [imp_false] at *
    exact .inl (by omega)
  all_goals exact .inr (.inr (.inr ⟨by simp [hop], nonzero (ifZero_rejects h)⟩))

@[simp] theorem cmd_channel_digit (op c : BitVec 4) (imm : BitVec 8) :
    (op ++ c ++ imm : Word).toNat / 256 % 16 = c.toNat := by
  rw [← chField_toNat, chField_cmd]

@[simp] theorem cmd_imm_digit (op c : BitVec 4) (imm : BitVec 8) : (op ++ c ++ imm : Word).toNat % 256 = imm.toNat := by
  rw [← immField_toNat, immField_cmd]

@[simp] theorem ofNum_toNat_nibble (c : Chan) : Chan.ofNum c.nibble.toNat = c := by cases c <;> rfl

@[simp] theorem toNat_nibble_lt_four (c : Chan) : c.nibble.toNat < 4 ↔ c.role = .sensor := by cases c <;> decide

@[simp] theorem toNat_nibble_eq_four (c : Chan) : c.nibble.toNat = 4 ↔ c.role = .host := by cases c <;> decide

/-- A channel number names a channel, or is 5 or more (30_encoding R93). -/
theorem nibble_cases (x : BitVec 4) : (∃ c : Chan, x = c.nibble) ∨ 5 ≤ x.toNat := by
  rcases h : Chan.ofNibble x with _ | c
  · exact .inr (Chan.ofNibble_eq_none.1 h)
  · exact .inl ⟨c, Chan.ofNibble_eq_some.1 h⟩

/-- The code of a command on channel number `x`: BADCH, or the code on the channel it names. -/
def rspOn (x : BitVec 4) (f : Chan → Rsp) : Rsp :=
  match Chan.ofNibble x with
  | some c => f c
  | none => .badCh

@[simp] theorem rspOn_nibble (c : Chan) (f : Chan → Rsp) : rspOn c.nibble f = f c := by
  rw [rspOn, Chan.ofNibble_nibble]

theorem rspOn_of_ge {x : BitVec 4} (h : 5 ≤ x.toNat) (f : Chan → Rsp) : rspOn x f = .badCh := by
  rw [rspOn, Chan.ofNibble_eq_none.2 h]

/-- The table of R271 by command: the code each is answered with, from its operands. An event is not answered (R274), so
its row says nothing. -/
def commandRsp (s : State) : Instr → Rsp
  | .arm x => rspOn x fun c => if (s.ch c).phase = .wait then .ok else .busy
  | .ack x => rspOn x fun c =>
    if c.role = .sensor then .badRole else if (s.ch c).count.toNat < s.hlen then .notReady else .ok
  | .decode x => rspOn x fun c =>
    if c.role = .host then .badRole else if (s.ch c).done = false then .notReady else .ok
  | .rdbuf x idx => rspOn x fun c => if c.cap ≤ idx.toNat then .badIdx else .ok
  | .clrev x | .rdstat x | .rdcnt x | .rdptr x | .rdlast x => rspOn x fun _ => .ok
  | .rddec sel => if 3 ≤ sel.toNat then .badIdx else .ok
  | .nop | .rdglb | .edge _ | .bclk _ | .roll | .reset => .ok

/-- The operations 1 to 9 are those over a channel, so a channel number of 5 or more is BADCH (R271, R272). -/
theorem expectedRsp_eq_rspOn {s : State} {op x : BitVec 4} {imm : BitVec 8} {f : Chan → Rsp}
    (hbad : badOpWord (op ++ x ++ imm) = false) (hop : 1 ≤ op.toNat ∧ op.toNat ≤ 9)
    (h : ∀ c : Chan, x = c.nibble → expectedRsp s (op ++ x ++ imm) = f c) :
    expectedRsp s (op ++ x ++ imm) = rspOn x f := by
  rcases nibble_cases x with ⟨c, rfl⟩ | hx
  · rw [rspOn_nibble, h c rfl]
  · simp [expectedRsp, hbad, Laws.WordFields.cmd_digit, hop, hx, rspOn_of_ge hx]

/-- The digits of a command's word give the code its operands give. -/
theorem expectedRsp_of_encode {i : Instr} {w : Word} (h : encode i = .cmd w) (s : State) :
    expectedRsp s w = commandRsp s i := by
  have hbad := badOpWord_of_encode h
  have hlt (c : Chan) : ¬5 ≤ c.nibble.toNat := Nat.not_le.2 c.toNat_nibble_lt
  cases i with
  | edge _ | bclk _ | roll | reset => cases h
  | nop | rdglb => cases h; rfl
  | rddec sel =>
    cases h
    simp only [expectedRsp, hbad, Laws.WordFields.cmd_digit, cmd_imm_digit]
    simp [commandRsp]
  | _ =>
    cases h
    refine expectedRsp_eq_rspOn hbad (by decide) ?_
    rintro c rfl
    simp only [expectedRsp, hbad, Laws.WordFields.cmd_digit, cmd_channel_digit, cmd_imm_digit, hlt]
    simp [cap_eq_ite]

/-- Instruction `i` gives a next state, with code `r` on the response port. -/
def Answers (i : Instr) (s : State) (r : Rsp) : Prop := ∃ t d, exec i s = .next t ∧ t.resp = some ⟨r, d⟩

/-- A command over a channel answers BADCH, or the code of the channel it names. -/
theorem answers_rspOn {i : Instr} {s : State} {x : BitVec 4} {f : Chan → State} {g : Chan → Rsp}
    (h : exec i s = .next (onChan x s f)) (hf : ∀ c, ∃ d, (f c).resp = some ⟨g c, d⟩) : Answers i s (rspOn x g) := by
  rcases nibble_cases x with ⟨c, rfl⟩ | hx
  · obtain ⟨d, hd⟩ := hf c
    rw [onChan_nibble] at h
    exact ⟨_, d, h, by rw [hd, rspOn_nibble]⟩
  · rw [onChan_of_ge hx] at h
    exact ⟨_, _, h, by rw [rspOn_of_ge hx]; rfl⟩

theorem armOn_resp (s : State) (c : Chan) :
    ∃ d, (armOn s c).resp = some ⟨if (s.ch c).phase = .wait then .ok else .busy, d⟩ := by
  unfold armOn
  split <;> exact ⟨_, rfl⟩

theorem ackOn_resp (s : State) (c : Chan) :
    ∃ d, (ackOn s c).resp = some ⟨if c.role = .sensor then .badRole
      else if (s.ch c).count.toNat < s.hlen then .notReady else .ok, d⟩ := by
  unfold ackOn
  cases hr : c.role with
  | sensor => exact ⟨_, rfl⟩
  | host => by_cases hlt : (s.ch c).count.toNat < s.hlen <;> simp [hlt]

/-- The cursor of a sensor channel never stands past the end of its buffer (10_state R52 item 6). -/
theorem frameBytes_of_stateInv {s : State} (hs : StateInv s) {c : Chan} (hr : c.role = .sensor) :
    ∃ f, frameBytes c (s.ch c) = some f := by
  obtain ⟨-, hchan, -⟩ := hs
  obtain ⟨-, hcur, -⟩ := (channelInv_sensor hr _).1 (hchan c)
  exact ⟨_, frameBytes_eq_some.2 ⟨by rw [Chan.cap_sensor hr]; omega, rfl⟩⟩

theorem answers_decode {s : State} (hs : StateInv s) (x : BitVec 4) :
    Answers (.decode x) s (commandRsp s (.decode x)) := by
  rcases execDecode_cases x s with ⟨c, rfl, hx⟩ | ⟨hge, hx⟩
  · rw [commandRsp, rspOn_nibble]
    rcases decodeOn_cases s c with ⟨hr, hd⟩ | ⟨hr, hdone, hd⟩ | ⟨hr, -, hnone, -⟩ | ⟨f, hr, hdone, -, hd⟩
    · exact ⟨_, _, hx.trans hd, by simp only [hr, if_true]; rfl⟩
    · exact ⟨_, _, hx.trans hd, by simp only [hr, hdone]; rfl⟩
    · obtain ⟨f, hf⟩ := frameBytes_of_stateInv hs hr
      rw [hnone] at hf
      cases hf
    · exact ⟨_, _, hx.trans hd, by simp only [hr, hdone]; rfl⟩
  · rw [commandRsp, rspOn_of_ge hge]
    exact ⟨_, _, hx, rfl⟩

theorem answers_rdbuf (s : State) (x : BitVec 4) (idx : BitVec 8) :
    Answers (.rdbuf x idx) s (commandRsp s (.rdbuf x idx)) := by
  rw [commandRsp]
  rcases nibble_cases x with ⟨c, rfl⟩ | hx
  · rw [rspOn_nibble]
    split
    · exact ⟨_, _, exec_rdbuf_of_ge ‹_› s, rfl⟩
    · exact ⟨_, _, exec_rdbuf_of_lt (Nat.not_le.1 ‹_›) s, rfl⟩
  · rw [rspOn_of_ge hx]
    exact ⟨_, _, exec_rdbuf_of_no_channel hx idx s, rfl⟩

theorem answers_rddec (s : State) (sel : BitVec 8) : Answers (.rddec sel) s (commandRsp s (.rddec sel)) := by
  rw [commandRsp]
  split
  · exact ⟨_, _, exec_rddec_of_ge ‹_› s, rfl⟩
  · obtain ⟨r, hr⟩ := ofSelector_of_lt (Nat.not_le.1 ‹_›)
    exact ⟨_, _, exec_rddec_of_selector hr s, rfl⟩

/-- Every command is answered, with the code of the table. -/
theorem answers_commandRsp {s : State} (hs : StateInv s) {i : Instr} (hc : i.isCommand = true) :
    Answers i s (commandRsp s i) := by
  cases i with
  | nop | rdglb => exact ⟨_, _, rfl, rfl⟩
  | arm x => exact answers_rspOn rfl (armOn_resp s)
  | ack x => exact answers_rspOn rfl (ackOn_resp s)
  | decode x => exact answers_decode hs x
  | rdbuf x idx => exact answers_rdbuf s x idx
  | rddec sel => exact answers_rddec s sel
  | edge _ | bclk _ | roll | reset => cases hc
  | _ => exact answers_rspOn rfl fun c => ⟨_, rfl⟩

/-- Settles O11: a malformed word is BADOP, and any other is the word of a command, answered by the table. -/
theorem responseCodesFollowTheTable : Obligations.ResponseCodesFollowTheTable := by
  intro s w rest hs hin
  rcases step_cmd_cases hin with ⟨i, hcmd, henc, hstep⟩ | ⟨e, hw, hstep⟩
  · have htaken : StateInv { s with input := rest, resp := none } :=
      stateInv_congr hs (fun _ => rfl) rfl rfl
    obtain ⟨t, d, ht, hresp⟩ := answers_commandRsp htaken hcmd
    rw [← expectedRsp_of_encode henc] at hresp
    exact ⟨t, d, hstep.trans ht, hresp⟩
  · have hbad : expectedRsp s w = .badOp := if_pos (badOpWord_of_decode_error hw)
    exact ⟨_, _, hstep, by rw [hbad]; rfl⟩

/-- Settles O10: every command word is answered, and every word that names an event is taken. -/
theorem nothingStopsTheMachine : Obligations.NothingStopsTheMachine := by
  intro s hs hnames
  rcases hin : s.input with _ | ⟨w | w, rest⟩
  · exact ⟨s, by rw [step, State.take_nil hin]⟩
  · obtain ⟨t, -, hstep, -⟩ := responseCodesFollowTheTable s w rest hs hin
    exact ⟨t, hstep⟩
  · obtain ⟨-, htaken, -⟩ := onlyWordsThatNameNoEventAreRefused
    obtain ⟨t, hstep, -⟩ := htaken s w rest hin (hnames w rest hin)
    exact ⟨t, hstep⟩

/-! ### The outputs -/

/-- Settles O50: a clock that is not stopped serves some channel, and a stopped one serves none. -/
theorem quietIsTheStoppedBitClock : Obligations.QuietIsTheStoppedBitClock := by
  refine ⟨State.quiet_iff, fun s hs => ?_⟩
  obtain ⟨⟨-, hhalf, hstop, hrun⟩, -⟩ := hs
  rw [State.quiet_iff]
  refine ⟨fun hwait => ?_, hstop⟩
  cases hb : s.bclk with
  | stop => rfl
  | half =>
    obtain ⟨-, c, hc⟩ := hhalf hb
    rw [hwait c] at hc
    cases hc
  | run =>
    obtain ⟨c, hc⟩ := hrun hb
    exact absurd (hwait c) hc

/-- Only the end of a byte and a timeout set a channel's event flag. -/
theorem chanStep_sets_evf {i : Instr} {b : BitClock} {hlen : Nat} {c : Chan} {k k' : Channel}
    (hs : ChanStep i b hlen c k k') (h : k.evf = false) (h' : k'.evf = true) :
    ((∃ lv, i = .bclk lv) ∧ b = .run ∧ k.phase = .recv ∧ k.bits = 0#4) ∨
    (i = .roll ∧ c.role = .sensor ∧ k.en = true ∧ k'.timeout = true) := by
  cases hs with
  | finish lv hi hb hp hz => exact .inl ⟨⟨lv, hi⟩, hb, hp, hz⟩
  | roll hi hr =>
    rw [rollChannel_eq] at h' ⊢
    obtain ⟨hen, hrc⟩ : k.en = true ∧ k.rc = 2#2 := by simpa [h] using h'
    exact .inr ⟨hi, hr, hen, by simp [hen, hrc]⟩
  | arm | clrev | reset => cases h'
  | _ => exact absurd (h.symm.trans h') (by decide)

/-- Only an accepted ARM, CLREV and RESET clear a channel's event flag. -/
theorem chanStep_clears_evf {i : Instr} {b : BitClock} {hlen : Nat} {c : Chan} {k k' : Channel}
    (hs : ChanStep i b hlen c k k') (h : k.evf = true) (h' : k'.evf = false) :
    (i = .arm c.nibble ∧ k.phase = .wait) ∨ i = .clrev c.nibble ∨ i = .reset := by
  cases hs with
  | arm hi hp => exact .inl ⟨hi, hp⟩
  | clrev hi => exact .inr (.inl hi)
  | reset hi => exact .inr (.inr hi)
  | finish => exact absurd ((commit_evf c k.shift k).symm.trans h') (by decide)
  | roll => rw [rollChannel_eq] at h'; simp [h] at h'
  | _ => exact absurd (h.symm.trans h') (by decide)

/-- After RESET no channel has an event pending (R300). -/
theorem exec_reset_evf {s t : State} (h : exec .reset s = .next t) (c : Chan) : (t.ch c).evf = false := by
  rw [exec_ch h c]; rfl

theorem wake_of_evf {t : State} {c : Chan} (h : (t.ch c).evf = true) : t.wake = true := t.wake_iff.2 ⟨c, h⟩

/-- Settles O48: what a step does to one channel says which instructions write its `evf`. -/
theorem wakeIsTheOrOfThePendingFlags : Obligations.WakeIsTheOrOfThePendingFlags := by
  refine ⟨State.wake_iff, fun s c lv hb hp hz => ?_, fun s c hr hen hrc => ?_,
    fun i c s t h => chanStep_sets_evf (exec_chanStep h c), fun s c => ⟨_, exec_clrev s c, ?_⟩,
    fun s c hp => ⟨_, exec_arm_of_wait hp, ?_⟩, fun s => ⟨_, rfl, exec_reset_evf rfl, ?_⟩,
    fun i c s t h => chanStep_clears_evf (exec_chanStep h c)⟩
  · obtain ⟨t, ht, hch⟩ := exec_bclk_stop_bit hb hp hz lv
    have hevf : (t.ch c).evf = true := hch ▸ commit_evf c _ _
    exact ⟨t, ht, hevf, wake_of_evf hevf⟩
  · have hch : (rollIn Chan.sensors s).ch c = _ := (roll_ch_sensor hr s).trans (rollChannel_third hen hrc)
    have hevf : ((rollIn Chan.sensors s).ch c).evf = true := by rw [hch]
    exact ⟨_, rfl, by rw [hch], hevf, wake_of_evf hevf⟩
  · rw [clrevOn_ch, if_pos rfl]
  · rw [State.respond_ch, State.modCh_ch_self]; rfl
  · rfl

/-! ### Order within one step -/

/-- A visit of the same channels in another order gives the same state. -/
theorem visit_perm {order order' : List Chan} (h : order.Perm order') (hn : order'.Nodup)
    (f : Chan → Channel → Channel) (s : State) : s.visit order f = s.visit order' f := by
  refine State.ext_ch (fun c => ?_) ?_ ?_ ?_ ?_ ?_
  · rw [State.visit_ch (h.nodup_iff.2 hn), State.visit_ch hn]
    simp only [h.mem_iff]
  all_goals simp

theorem tickIn_perm {order order' : List Chan} (h : order.Perm order') (hn : order'.Nodup) (lv : BitVec 5)
    (s : State) : tickIn order lv s = tickIn order' lv s := by
  simp only [tickIn, visit_perm h hn]

/-- Settles O36: each visited channel is updated once from its own old value. -/
theorem visitingOrderCannotBeObserved : Obligations.VisitingOrderCannotBeObserved := by
  refine ⟨fun order h lv s => ?_, fun order h s => ?_⟩
  · have htick : tickIn order lv s = tick lv s := tickIn_perm h Chan.all_nodup lv s
    exact ⟨htick, fun hb => by rw [htick, exec_bclk_run hb]⟩
  · exact congrArg Host.Outcome.next (visit_perm h Chan.sensors_nodup _ s).symm

/-- Settles O37: what an instruction does to a channel is a function of the channel, the BitClock and `HLEN`. -/
theorem channelsDoNotReadEachOther : Obligations.ChannelsDoNotReadEachOther := by
  intro i c s₁ s₂ t₁ t₂ hch hbclk hvariant h₁ h₂
  have hhlen : s₁.hlen = s₂.hlen := congrArg HostVariant.hlen hvariant
  rw [exec_ch h₁, exec_ch h₂, hch, hbclk, hhlen]

end Sys2Proof.Proofs

/-! The statements of 70_reset_and_hazards: RESET (R300), the end of a byte in flight (R318), the frames that stand still
until they are consumed (R315), and the tag that is the sentinel (R309). -/

namespace Sys2Proof.Proofs

open Sys2Proof Sys2Proof.Machine

/-! ### RESET -/

/-- RESET leaves of a channel its buffer only (R300). -/
theorem exec_reset_ch {s t : State} (h : exec .reset s = .next t) (c : Chan) : t.ch c = (s.ch c).cleared :=
  exec_ch h c

/-- Settles O30: RESET visits every channel with `Channel.cleared`, whose fields are those of `Channel.reset`. -/
theorem resetLoadsTheResetValues : Obligations.ResetLoadsTheResetValues := by
  refine ⟨decode_encode (i := .reset) rfl, fun s => ?_⟩
  have hexec : exec .reset s = .next _ := rfl
  have hch := exec_reset_ch hexec
  refine ⟨_, hexec, fun c => ?_, exec_sameBytes hexec (.inl nofun), rfl, rfl, rfl, rfl, rfl, rfl, rfl, rfl,
    (State.quiet_iff _).2 fun c => by rw [hch c]; rfl, rfl, State.visit_variant .., State.visit_input ..,
    State.visit_resp ..⟩
  rw [hch c]
  exact ⟨rfl, rfl, rfl, rfl, rfl, rfl, rfl, rfl, rfl, rfl, rfl, rfl, rfl⟩

/-! ### The byte in flight -/

/-- The byte in flight has ended: the channel waits again, its register is the last byte, the event is pending (R126). -/
def ByteEnded (k : Channel) : Prop := k.phase = .wait ∧ k.last = k.shift ∧ k.evf = true

theorem byteEnded_finalize (c : Chan) (k : Channel) : ByteEnded (finalize c k) :=
  ⟨rfl, (commit_last c _ k).trans (commit_shift c _ k).symm, commit_evf c _ k⟩

theorem ticksLeft_of_align {k : Channel} (h : k.phase = .align) : ticksLeft k = 10 := by rw [ticksLeft, h]

theorem ticksLeft_of_recv {k : Channel} (h : k.phase = .recv) : ticksLeft k = k.bits.toNat + 1 := by rw [ticksLeft, h]

theorem ticksLeft_pos {k : Channel} (h : k.phase ≠ .wait) : 0 < ticksLeft k := by
  cases hp : k.phase with
  | wait => exact absurd hp h
  | align => simp [ticksLeft_of_align hp]
  | recv => simp [ticksLeft_of_recv hp]

/-- At most eight samples are outstanding while a byte is received (10_state R52 item 1). -/
theorem ticksLeft_le_ten {s : State} (hs : ClockInv s) (c : Chan) : ticksLeft (s.ch c) ≤ 10 := by
  obtain ⟨hrecv, -⟩ := hs
  cases hp : (s.ch c).phase with
  | wait => simp [ticksLeft, hp]
  | align => simp [ticksLeft_of_align hp]
  | recv =>
    obtain ⟨-, hbits⟩ := hrecv c hp
    rw [ticksLeft_of_recv hp]
    omega

/-- A byte is still in flight, and `n` of its ticks have been taken since it had `m` to go. -/
def InFlightAfter (n m : Nat) (k : Channel) : Prop := k.phase ≠ .wait ∧ ticksLeft k + n ≤ m

theorem inFlightAfter_startByte {k : Channel} (h : k.phase = .align) : InFlightAfter 1 (ticksLeft k) k.startByte :=
  ⟨nofun, by rw [ticksLeft_of_align h]; exact Nat.le_refl 10⟩

theorem inFlightAfter_sampleBit (l : Bool) {k : Channel} (h : k.phase = .recv) (hz : k.bits ≠ 0#4) :
    InFlightAfter 1 (ticksLeft k) (sampleBit l k) := by
  have hp : (sampleBit l k).phase = .recv := h
  have hpos : k.bits.toNat ≠ 0 := fun h0 => hz (BitVec.eq_of_toNat_eq h0)
  refine ⟨by simp [hp], ?_⟩
  rw [ticksLeft_of_recv hp, ticksLeft_of_recv h, sampleBit_bits_toNat l hz]
  omega

/-- Under the clock invariant no tick is lost on a channel with a byte in flight: the clock is not stopped, and one that
has yet to align meets no channel in `RECV` (R122, R123, R124). -/
theorem exec_tick_inFlight {s t : State} {c : Chan} {lv : BitVec 5} (hs : ClockInv s) (hp : (s.ch c).phase ≠ .wait)
    (h : exec (.bclk lv) s = .next t) : ByteEnded (t.ch c) ∨ InFlightAfter 1 (ticksLeft (s.ch c)) (t.ch c) := by
  obtain ⟨-, hhalf, hstop, -⟩ := hs
  rw [exec_ch h c]
  cases hb : s.bclk with
  | stop => exact absurd (hstop hb c) hp
  | half =>
    obtain ⟨hno, -⟩ := hhalf hb
    cases hph : (s.ch c).phase with
    | wait => exact absurd hph hp
    | align =>
      rw [chanAfter, if_pos hph]
      exact .inr (inFlightAfter_startByte hph)
    | recv => exact absurd hph (hno c)
  | run =>
    rw [chanAfter]
    cases hph : (s.ch c).phase with
    | wait => exact absurd hph hp
    | align =>
      rw [tickChannel_of_align hph]
      exact .inr (inFlightAfter_startByte hph)
    | recv =>
      by_cases hz : (s.ch c).bits = 0#4
      · rw [tickChannel_of_stop_bit hph hz]
        exact .inl (byteEnded_finalize c _)
      · rw [tickChannel_of_bits hph hz]
        exact .inr (inFlightAfter_sampleBit _ hph hz)

/-- Between the ticks nothing but RESET moves a byte in flight: ARM and EDGE need the channel in `WAIT` (R120, R121). -/
theorem chanStep_inFlight {i : Instr} {b : BitClock} {hlen : Nat} {c : Chan} {k k' : Channel}
    (hs : ChanStep i b hlen c k k') (hp : k.phase ≠ .wait) (htick : ∀ lv, i ≠ .bclk lv) (hreset : i ≠ .reset) :
    InFlightAfter 0 (ticksLeft k) k' := by
  cases hs with
  | arm _ hp' | edge _ _ hp' => exact absurd hp' hp
  | start lv hi | sample lv hi | finish lv hi => exact absurd hi (htick lv)
  | reset hi => exact absurd hi hreset
  | roll => rw [rollChannel_eq]; exact ⟨hp, Nat.le_refl _⟩
  | same | ack | clrev => exact ⟨hp, Nat.le_refl _⟩

/-- Every instruction but RESET ends the byte in flight or, if it is a tick, brings its end one tick nearer. -/
theorem exec_inFlight {i : Instr} {s t : State} {c : Chan} (hs : ClockInv s) (hp : (s.ch c).phase ≠ .wait)
    (hreset : i ≠ .reset) (h : exec i s = .next t) :
    ByteEnded (t.ch c) ∨ InFlightAfter (isTick i).toNat (ticksLeft (s.ch c)) (t.ch c) := by
  cases i with
  | bclk lv => exact exec_tick_inFlight hs hp h
  | _ => exact .inr (chanStep_inFlight (exec_chanStep h c) hp nofun hreset)

theorem runInstrs_cons_of_exec {i : Instr} {s u : State} (h : exec i s = .next u) (is : List Instr) :
    runInstrs (i :: is) s = runInstrs is u := by
  rw [runInstrs, h]

theorem length_filter_isTick_cons (i : Instr) (is : List Instr) :
    ((i :: is).filter isTick).length = (isTick i).toNat + (is.filter isTick).length := by
  cases h : isTick i <;> simp [h, Nat.add_comm]

/-- A run without RESET that holds the ticks the byte still needs reaches its end. -/
theorem exists_byteEnded_of_run {c : Chan} {is : List Instr} {s t : State} (hs : ClockInv s)
    (hp : (s.ch c).phase ≠ .wait) (hreset : ∀ i ∈ is, i ≠ .reset)
    (hticks : ticksLeft (s.ch c) ≤ (is.filter isTick).length) (h : runInstrs is s = .next t) :
    ∃ n u, n ≤ is.length ∧ runInstrs (is.take n) s = .next u ∧ ByteEnded (u.ch c) := by
  induction is generalizing s with
  | nil => exact absurd (ticksLeft_pos hp) (Nat.not_lt.2 hticks)
  | cons i is ih =>
    obtain ⟨v, hv, hrun⟩ := runInstrs_cons h
    obtain ⟨hi, his⟩ := List.forall_mem_cons.1 hreset
    rcases exec_inFlight hs hp hi hv with hended | ⟨hp', hleft⟩
    · exact ⟨1, v, Nat.le_add_left 1 _, runInstrs_cons_of_exec hv [], hended⟩
    · rw [length_filter_isTick_cons] at hticks
      obtain ⟨n, u, hn, hu, hended⟩ := ih (clockInv_exec hv hs) hp' his (by omega) hrun
      exact ⟨n + 1, u, Nat.succ_le_succ hn, (runInstrs_cons_of_exec hv _).trans hu, hended⟩

/-- Settles O39: by induction on the run, each tick bringing the end of the byte nearer. -/
theorem byteInFlightEndsWithinTenTicks : Obligations.ByteInFlightEndsWithinTenTicks := by
  intro s t c is ⟨hclock, _⟩ hp hreset hticks h
  exact ⟨ticksLeft_le_ten hclock c, exists_byteEnded_of_run hclock hp hreset hticks h⟩

/-! ### A complete host frame -/

/-- While the ring does not overrun, a byte goes behind the unconsumed ones and so to no slot of theirs (R163). -/
theorem bufRead_frameSlot_finalize {k : Channel} (hk : HostInv k) (ho : (finalize .c4 k).ovf = false) {idx : BitVec 8}
    (hidx : idx.toNat < k.count.toNat) :
    bufRead .c4 (finalize .c4 k) (frameSlot .c4 (finalize .c4 k) idx) = bufRead .c4 k (frameSlot .c4 k idx) := by
  obtain ⟨-, -, -, hring⟩ := hk
  obtain ⟨-, hovf, -⟩ := commit_host_ring (c := .c4) rfl k.shift k
  obtain ⟨hno, hle⟩ := not_or.1 (mt hovf.2 (Bool.eq_false_iff.1 ho))
  obtain ⟨-, hcur⟩ := hring (Bool.eq_false_iff.2 hno)
  have hslot : frameSlot .c4 (finalize .c4 k) idx = frameSlot .c4 k idx :=
    congrArg (fun x : BitVec 5 => (x.toNat + idx.toNat) % 32) (commit_fstart .c4 k.shift k)
  rw [hslot, bufRead_finalize_of_ne]
  rw [frameSlot_host rfl]
  omega

/-- All that an instruction can do to the host channel, but for ARM, ACK, RESET and an overrun, keeps the unconsumed bytes
and adds at most one behind them (R315). -/
theorem chanStep_keeps_host_bytes {i : Instr} {b : BitClock} {hlen : Nat} {k k' : Channel}
    (hs : ChanStep i b hlen .c4 k k') (hk : HostInv k) (ho : k'.ovf = false) (harm : i ≠ .arm 4#4) (hack : i ≠ .ack 4#4)
    (hreset : i ≠ .reset) {idx : BitVec 8} (hidx : idx.toNat < k.count.toNat) :
    k.count.toNat ≤ k'.count.toNat ∧
      bufRead .c4 k' (frameSlot .c4 k' idx) = bufRead .c4 k (frameSlot .c4 k idx) := by
  cases hs with
  | arm hi => exact absurd hi harm
  | ack hi => exact absurd hi hack
  | reset hi => exact absurd hi hreset
  | roll _ hr => cases hr
  | finish =>
    refine ⟨?_, bufRead_frameSlot_finalize hk ho hidx⟩
    have hlt := k.count.isLt
    rw [finalize_count_toNat]
    omega
  | same | clrev | edge | start | sample => exact ⟨Nat.le_refl _, rfl⟩

/-- Settles O43: the bytes of a complete frame are among the unconsumed ones. -/
theorem completeHostFrameIsStable : Obligations.CompleteHostFrameIsStable := by
  intro i s t idx ⟨_, hchan, _⟩ hdone _ h ho harm hack hreset hidx
  obtain ⟨hcount, hbyte⟩ := chanStep_keeps_host_bytes (exec_chanStep h .c4) ((channelInv_host rfl _).1 (hchan .c4)) ho
    harm hack hreset (Nat.lt_of_lt_of_le hidx hdone)
  exact ⟨Nat.le_trans hdone hcount, hbyte⟩

/-! ### A terminated sensor frame -/

/-- A sensor channel with no byte in flight that is not armed takes no edge and counts no rollover (R167). -/
theorem chanStep_of_idle {i : Instr} {b : BitClock} {hlen : Nat} {c : Chan} {k k' : Channel}
    (hs : ChanStep i b hlen c k k') (hr : c.role = .sensor) (hen : k.en = false) (hp : k.phase = .wait)
    (harm : i ≠ .arm c.nibble) (hreset : i ≠ .reset) (hclrev : i ≠ .clrev c.nibble) : k' = k := by
  cases hs with
  | same => rfl
  | arm hi => exact absurd hi harm
  | ack _ hr' => rw [hr] at hr'; cases hr'
  | clrev hi => exact absurd hi hclrev
  | edge _ hen' => rw [hen] at hen'; cases hen'
  | start _ _ _ hp' | sample _ _ _ hp' | finish _ _ _ hp' => rw [hp] at hp'; cases hp'
  | roll => exact rollChannel_of_unarmed hen
  | reset hi => exact absurd hi hreset

/-- Settles O44: of all that an instruction can do to a channel, only ARM, CLREV and RESET apply to an idle one. -/
theorem terminatedSensorFrameIsFrozen : Obligations.TerminatedSensorFrameIsFrozen := by
  intro i c s t hr hen hp h harm hreset
  refine ⟨chanStep_of_idle (exec_chanStep h c) hr hen hp harm hreset, ?_⟩
  rintro rfl
  exact (exec_ch h c).trans (if_pos rfl)

/-! ### The tag that is the sentinel -/

/-- Digits and spaces are no control characters. -/
theorem space_le_of_mem_frameText {d e : List Byte} (h : FrameDigits d e) : ∀ b ∈ frameText d e, 0x20 ≤ b.toNat := by
  obtain ⟨-, -, -, -, hdig⟩ := h
  have hdig' (b : Byte) (hb : b ∈ d ++ e) : 0x20 ≤ b.toNat := by
    obtain ⟨hlow, -⟩ := hdig b hb
    omega
  simp only [frameText, List.forall_mem_append, List.forall_mem_cons] at hdig' ⊢
  exact ⟨⟨hdig'.1, by decide, by decide, by decide, nofun⟩, hdig'.2⟩

/-- A frame cut at its tag has a character of its text where the verdicts look for the CR (R202, R203). -/
theorem cutFrame_no_cr {d e : List Byte} (h : FrameDigits d e) (y z : Byte) {f : List Byte}
    (hf : f = frameText d e ++ [y, z]) : f[f.length - 4]? ≠ some 0x0D#8 := by
  have hlen := frameText_length d e
  have hpos : f.length - 4 = (frameText d e).length - 2 := by
    rw [hf, List.length_append]
    exact Nat.add_sub_add_right _ 2 2
  rw [hpos, hf, List.getElem?_append_left (by omega)]
  intro hcr
  exact absurd (space_le_of_mem_frameText h _ (List.mem_of_getElem? hcr)) (by decide)

/-- Without a CR at `L - 4` both verdicts are 0 (R202, R203). -/
theorem decodeFrame_of_no_cr (c : Chan) {f : List Byte} (h : f[f.length - 4]? ≠ some 0x0D#8) (ovf : Bool) :
    (decodeFrame c f ovf).ckok = false ∧ (decodeFrame c f ovf).fmtok = false := by
  have hck : ckOk f ovf = false := Bool.eq_false_iff.2 fun hok => by
    obtain ⟨-, -, -, hcr, -⟩ := ckOk_eq_true.1 hok
    exact h hcr
  have hfmt : formatOk f ovf = none := Option.eq_none_iff_forall_ne_some.2 fun ⟨d, e⟩ hok => by
    obtain ⟨-, -, ⟨-, hcr⟩, -⟩ := formatOk_eq_some.1 hok
    exact h hcr
  exact ⟨(decodeFrame_ckok c f ovf).trans hck, (decodeFrame_of_formatOk_none c hfmt).1⟩

/-- Settles O58: the frame ends at the tag, two bytes early, so that the decoder misses the CR. -/
theorem sentinelTagSpoilsTheFrame : Obligations.SentinelTagSpoilsTheFrame := by
  intro c k k' d e f hr hen hcur hdone hto hovf hd1 hd4 he1 he3 hdig hf hk'
  have hdigits : FrameDigits d e := ⟨hd1, hd4, he1, he3, hdig⟩
  have htext : f = frameText d e ++ [0x0D#8, 0x0A#8] := hf
  have hsplit : f = (frameText d e ++ [0x0D#8]) ++ [0x0A#8] := by rw [htext, List.append_assoc]; rfl
  have hbody : ∀ b ∈ frameText d e ++ [0x0D#8], b ≠ 0x0A#8 := by
    refine List.forall_mem_append.2 ⟨fun b hb => ?_, by decide⟩
    rintro rfl
    exact absurd (space_le_of_mem_frameText hdigits _ hb) (by decide)
  obtain ⟨hbytes, -, hcomplete, hdisarmed, -⟩ :=
    committedBytesAreTheSensorFrame c k k' _ f hr hen hcur hdone hto hovf hbody hsplit hk'
  have hlen : f.length ≤ 16 := by
    rw [htext, List.length_append, frameText_length]
    simp only [List.length_cons, List.length_nil]
    omega
  rw [List.take_of_length_le hlen] at hbytes
  exact ⟨hcomplete, hdisarmed, hbytes, decodeFrame_of_no_cr c (cutFrame_no_cr hdigits _ _ htext) k'.ovf⟩

end Sys2Proof.Proofs

/-! The statements that follow the model's own choices and free values: idling (assumption log 4), words of
95_test_vectors, the buffer's end (log 1), the free power-up bytes (R73) and the host cursor after saturation (log 8). -/

namespace Sys2Proof.Proofs

open Sys2Proof Sys2Proof.Machine

/-! ### Unwritten slots -/

theorem slotByte_of_unwritten {k : Channel} {i : Nat} (h : bufGet k.buf i = none) (c : Chan) :
    slotByte c k i = Config.powerUpByte c.num i := by
  rw [slotByte, h, Option.getD_none]

/-- The frame of a reset channel begins at slot 0, so an index is its slot (20_memory R72). -/
theorem frameSlot_reset {c : Chan} {i : BitVec 8} (h : i.toNat < c.cap) : frameSlot c Channel.reset i = i.toNat := by
  have hfstart : Channel.reset.fstart.toNat = 0 := rfl
  rw [frameSlot, hfstart, Nat.zero_add, Nat.mod_eq_of_lt h]

/-- Settles O32: no slot is listed at power-up, and RESET keeps the list. -/
theorem unwrittenSlotsReadTheirPowerUpValue : Obligations.UnwrittenSlotsReadTheirPowerUpValue := by
  refine ⟨fun c i hi => ⟨_, exec_rdbuf_of_lt hi _, ?_⟩, fun s t c i hunwritten h hi => ?_⟩
  · have hunwritten : bufGet Channel.reset.buf i.toNat = none := rfl
    rw [State.respond_resp, reset_ch, frameSlot_reset hi, slotByte_of_unwritten hunwritten]
  · have hkept : bufGet (t.ch c).buf i = none := by rw [exec_reset_ch h]; exact hunwritten
    exact bufRead_eq_some.2 ⟨hi, (slotByte_of_unwritten hkept c).symm⟩

/-! ### Steps and words -/

/-- Settles O2: `State.take` finds no word. -/
theorem stepWithoutAWordIdles : Obligations.StepWithoutAWordIdles := by
  intro s h
  rw [step, State.take_nil h]

theorem decode_of_encode_eq {i : Instr} {w : PortWord} (h : encode i = w) (hwf : i.wf = true) : decode w = .ok i :=
  h ▸ decode_encode hwf

/-- Settles O5: each word is the encoding of the instruction it stands for. -/
theorem specWordsDecode : Obligations.SpecWordsDecode := by
  refine ⟨?_, ?_, ?_, ?_, ?_, ?_, ?_, ?_, ?_, ?_, ?_⟩ <;> exact decode_of_encode_eq rfl rfl

/-! ### DECODE past the buffer's end -/

theorem frameBytes_eq_none {c : Chan} {k : Channel} : frameBytes c k = none ↔ c.cap < k.cur.toNat := by
  rw [Option.eq_none_iff_forall_ne_some, ← Nat.not_le]
  exact ⟨fun h hle => h _ (frameBytes_eq_some.2 ⟨hle, rfl⟩), fun h f hf => h (frameBytes_eq_some.1 hf).1⟩

/-- Settles O17: a sensor buffer has 16 slots, so there is no frame to decode. -/
theorem decodePastTheBufferFaults : Obligations.DecodePastTheBufferFaults := by
  intro s c hr hdone hcur
  have hframe : frameBytes c (s.ch c) = none := frameBytes_eq_none.2 (by rwa [Chan.cap_sensor hr])
  simp only [exec, execDecode, Chan.ofNibble_nibble, decodeOn, hr, hdone, hframe, if_true]

/-! ### The host cursor after saturation -/

/-- An ACK does not move the cursor relative to the end of the unconsumed bytes (R169): a cursor off it stays off it. -/
theorem hostCursorAtCount_consume_iff {n : Nat} {k : Channel} (hn : n ≤ k.count.toNat) :
    HostCursorAtCount (k.consume n) ↔ HostCursorAtCount k := by
  refine ⟨fun h => ?_, fun h => hostCursorAtCount_consume h hn⟩
  have hcur : (k.consume n).cur = k.cur := rfl
  simp only [HostCursorAtCount, consume_fstart_toNat, consume_count_toNat hn, hcur] at *
  omega

theorem forall_setCh_ch {P : Chan → Channel → Prop} {s : State} {c : Chan} {k : Channel} (hk : P c k)
    (hs : ∀ d, P d (s.ch d)) (d : Chan) : P d ((s.setCh c k).ch d) := by
  rw [State.setCh_ch]
  split
  · subst d; exact hk
  · exact hs d

/-- A channel may be replaced by another that meets its invariants, if the BitClock cannot tell them apart. -/
theorem stateInv_setCh {s : State} {c : Chan} {k : Channel} (hs : StateInv s)
    (hclock : k.phase = (s.ch c).phase ∧ k.bits = (s.ch c).bits) (hchan : ChannelInv c k) (hframe : FrameInv c k)
    (hbuf : Buffer.wf c.cap k.buf) : StateInv (s.setCh c k) := by
  obtain ⟨hclocks, hchans, hframes, hmem, hdec⟩ := hs
  refine ⟨clockInv_congr hclocks (State.setCh_bclk ..) ?_, forall_setCh_ch hchan hchans,
    forall_setCh_ch hframe hframes, (Memory.wf_iff _).2 ?_, by rwa [State.setCh_dec]⟩
  · exact forall_setCh_ch (P := fun d k' => k'.phase = (s.ch d).phase ∧ k'.bits = (s.ch d).bits) hclock
      fun _ => ⟨rfl, rfl⟩
  · exact forall_setCh_ch (P := fun d k' => Buffer.wf d.cap k'.buf) hbuf ((Memory.wf_iff s).1 hmem)

/-- The pointers of the host channel after 256 bytes without an ACK (95_test_vectors section 4.3): the cursor is back at
slot 0 and the count has stopped at 255. -/
def saturatedHost : Channel := { Channel.reset with en := true, count := 255#8, ovf := true }

/-- The state at reset but for that host channel. -/
def saturatedState : State := State.reset.setCh .c4 saturatedHost

theorem stateInv_saturatedState : StateInv saturatedState := by
  refine stateInv_setCh resetStateMeetsTheInvariant ⟨rfl, rfl⟩ ((channelInv_host rfl _).2 ?_)
    ((frameInv_host rfl _).2 nofun) ⟨List.Pairwise.nil, nofun⟩
  exact ⟨rfl, rfl, rfl, nofun⟩

/-- Slot 0 is not where 255 bytes from slot 0 end, which is slot 31. -/
theorem not_hostCursorAtCount_saturatedHost : ¬HostCursorAtCount saturatedHost := by
  unfold HostCursorAtCount
  decide

/-- Settles O53: the item says nothing of a count of 255; the ACK makes the count smaller and leaves the cursor off it. -/
theorem hostCursorClaimFailsAfterSaturation : Obligations.HostCursorClaimFailsAfterSaturation := by
  have hcount : saturatedState.ch4.count.toNat = 255 := rfl
  have hlen := saturatedState.hlen_cases
  have hack : saturatedState.hlen ≤ saturatedState.ch4.count.toNat := by omega
  have hexec := exec_ack_of_le hack
  refine ⟨saturatedState, _, stateInv_saturatedState, fun hlt => ?_, hexec,
    stateInv_exec hexec stateInv_saturatedState, fun hclaim => ?_⟩
  · omega
  · have hlt : (saturatedState.ch4.consume saturatedState.hlen).count.toNat < 255 := by
      rw [consume_count_toNat hack]
      omega
    exact not_hostCursorAtCount_saturatedHost ((hostCursorAtCount_consume_iff hack).1 (hclaim hlt))

end Sys2Proof.Proofs
